-- ==== Sys2Proof/Word.lean ====
section
/-!
DEFINITION. The words of the core: 32-bit elements, bytes, node indices (spec 00_scope.md R5, R8, R10).
All of them are unsigned.
-/

namespace Sys2Proof

/-- A 32-bit element: every register, count, weight, length and bit count (R5: `W` = 32). -/
abbrev Word := BitVec 32

/-- A buffer byte, which is also a symbol (R5: `SYM_BITS` = 8). -/
abbrev Byte := BitVec 8

/-- A NODE index (R5: 512 slots, 9 bits). -/
abbrev NodeIdx := BitVec 9

end Sys2Proof
end

