-- ==== Sys2Proof/Config.lean ====
section
/-!
DEFINITION. What an implementation fixes (spec 00_scope.md R4, R5) and the free values: the values the spec calls
unspecified (20_memory.md R65, 93_implementation_defined.md U5 to U7). A free value has no body here, so nothing
can be proved of it.
-/

namespace Sys2Proof

/-- The two values of the parameter PACK_ORDER (R4). -/
inductive PackOrder where
  | lsbFirst
  | msbFirst
deriving DecidableEq, Repr

/-- PACK_ORDER of this hardware (R4; 90_conflicts.md C1). -/
def Config.packOrder : PackOrder := .lsbFirst

/-- The default of IBUF_SIZE (R4). The size itself is a model argument, carried by the register IBUF_CAP. -/
def Config.ibufSizeDefault : Nat := 4096

/-- The default of OBUF_SIZE (R4). The size itself is a model argument, carried by the register OBUF_CAP. -/
def Config.obufSizeDefault : Nat := 32768

/-- The largest IBUF_SIZE (R4): 2^24. -/
def Config.ibufSizeMax : Nat := 16777216

/-- The largest OBUF_SIZE (R4): 2^27. -/
def Config.obufSizeMax : Nat := 134217728

/-- The number of symbols, NSYM_MAX (R5), which is also the slot of the first internal node (R43). -/
def Config.symbols : Nat := 256

/-- The number of NODE slots, NODE_SLOTS (R5). -/
def Config.nodeSlots : Nat := 512

/-- The slot of the unused leaf (R43). -/
def Config.unusedSlot : Nat := 511

/-- The longest code, MAX_CODE_LEN (R5). -/
def Config.maxCodeLen : Nat := 255

/-- FREE VALUE (R65 item 1, R227, U5): what IBUF holds, after hardware reset number `epoch`, at an index the host has
not written since. A function of the index, so that two reads with no write between give the same byte. Log entry 4. -/
opaque Config.unwrittenByte (epoch index : Nat) : Byte

/-- FREE VALUE (R65 items 2 and 3, U6, U7, U16): what host read number `n` returns where the content is unspecified.
Log entry 5. -/
opaque Config.unspecifiedRead (n : Nat) : Word

end Sys2Proof
end

