-- ==== Sys2Proof/Syntax.lean ====
section
/-!
DEFINITION. The commands (spec 30_encoding.md R81), the address spaces and accesses of the host port (20_memory.md
R60), and the register names (10_state.md R21).
-/

namespace Sys2Proof

/-- The nine commands, one per row of the opcode table (R81). None has an operand (R80, R82). -/
inductive Instr where
  | nop
  | rst
  | freq
  | build
  | gencode
  | pack
  | unpack
  | compress
  | discard
deriving DecidableEq, Repr

/-- The eight address spaces of the host port, in the order of their 3-bit ids (R60). -/
inductive Space where
  | reg
  | ibuf
  | obuf
  | freq
  | nodea
  | nodew
  | codel
  | codeb
deriving DecidableEq, Repr

/-- The space id (R60). -/
def Space.id : Space → BitVec 3
  | .reg => 0
  | .ibuf => 1
  | .obuf => 2
  | .freq => 3
  | .nodea => 4
  | .nodew => 5
  | .codel => 6
  | .codeb => 7

/-- The element size in bytes, fixed by the space (R61): an access of another size does not exist. -/
def Space.elementBytes : Space → Nat
  | .ibuf => 1
  | .obuf => 1
  | .reg => 4
  | .freq => 4
  | .nodea => 4
  | .nodew => 4
  | .codel => 4
  | .codeb => 4

/-- The registers of space REG (R21). -/
inductive RegName where
  | cmd
  | status
  | ctrl
  | inLen
  | outLen
  | bitLen
  | decBitLen
  | nsym
  | root
  | err
  | errInfo
  | decCur
  | ibufCap
  | obufCap
deriving DecidableEq, Repr

/-- The index of a register in space REG (R21). -/
def RegName.index : RegName → Nat
  | .cmd => 0
  | .status => 1
  | .ctrl => 2
  | .inLen => 3
  | .outLen => 4
  | .bitLen => 5
  | .decBitLen => 6
  | .nsym => 7
  | .root => 8
  | .err => 9
  | .errInfo => 10
  | .decCur => 11
  | .ibufCap => 12
  | .obufCap => 13

/-- One event at the core's boundary: a host read, a host write (R60), or the platform's reset (R215). -/
inductive Access where
  | read (space : Space) (index : Word)
  | write (space : Space) (index : Word) (value : Word)
  | reset
deriving DecidableEq, Repr

/-- The host's write of a command word to CMD, REG index 0 (R22, R80). -/
def Access.command (word : Word) : Access := .write .reg 0 word

end Sys2Proof
end

