-- ==== Sys2Proof/WellFormed.lean ====
section
/-!
DEFINITION. What is well-formed: a command (it has no operand, so each constructor is), a command word (spec
30_encoding.md R80, R83), and the two size parameters (00_scope.md R4).
-/

namespace Sys2Proof

/-- A command has no register field, no immediate and no mode bit (R80), so there is nothing to check in one. -/
def Instr.wf : Instr → Bool
  | .nop => true
  | .rst => true
  | .freq => true
  | .build => true
  | .gencode => true
  | .pack => true
  | .unpack => true
  | .compress => true
  | .discard => true

/-- A command word is legal when its ZERO field (bits 31:8) is 0 and its opcode is one of 0x00 to 0x08 (R80, R83). -/
def commandWordWf (w : Word) : Bool :=
  w.extractLsb' 8 24 == 0 && decide ((w.extractLsb' 0 8).toNat ≤ 8)

/-- IBUF_SIZE is from 1 to 2^24 (R4). -/
def ibufSizeWf (n : Nat) : Bool := decide (1 ≤ n) && decide (n ≤ Config.ibufSizeMax)

/-- OBUF_SIZE is from 1 to 2^27 (R4). -/
def obufSizeWf (n : Nat) : Bool := decide (1 ≤ n) && decide (n ≤ Config.obufSizeMax)

end Sys2Proof
end

