-- ==== Sys2Proof/Decode.lean ====
section
/-!
DEFINITION. The decoder of the command word (spec 30_encoding.md R81, R83), total on all words and rejecting by name,
and the encoder (R80, R81).
-/

namespace Sys2Proof

/-- One row of the opcode map: a word is the row's command when it agrees with `pattern` on the bits of `mask` (R81). -/
structure OpcodeRow where
  mask : Word
  pattern : Word
  instr : Instr
deriving DecidableEq, Repr

/-- Why a command word is illegal (R83). -/
inductive DecodeError where
  /-- A bit of the ZERO field, bits 31:8, is set. -/
  | zeroFieldSet
  /-- The ZERO field is 0 and the opcode is one of the reserved 0x09 to 0xFF (R84). -/
  | reservedOpcode
deriving DecidableEq, Repr

/-- The opcode map of R81: a decoder compares the whole word, mask 0xFFFFFFFF. -/
def opcodeMap : List OpcodeRow :=
  [ ⟨0xFFFFFFFF, 0x00000000, .nop⟩,
    ⟨0xFFFFFFFF, 0x00000001, .rst⟩,
    ⟨0xFFFFFFFF, 0x00000002, .freq⟩,
    ⟨0xFFFFFFFF, 0x00000003, .build⟩,
    ⟨0xFFFFFFFF, 0x00000004, .gencode⟩,
    ⟨0xFFFFFFFF, 0x00000005, .pack⟩,
    ⟨0xFFFFFFFF, 0x00000006, .unpack⟩,
    ⟨0xFFFFFFFF, 0x00000007, .compress⟩,
    ⟨0xFFFFFFFF, 0x00000008, .discard⟩ ]

/-- The name under which a word outside the opcode map is rejected (R83). -/
def rejection (w : Word) : DecodeError :=
  if w.extractLsb' 8 24 = 0 then .reservedOpcode else .zeroFieldSet

/-- The first row of a map that a word agrees with. -/
def findRow (rows : List OpcodeRow) (w : Word) : Option Instr :=
  match rows with
  | [] => none
  | row :: rest => if w &&& row.mask = row.pattern then some row.instr else findRow rest w

/-- The decoder: the command a word stands for, or why it is illegal (R81, R83). -/
def decode (w : Word) : Except DecodeError Instr :=
  match findRow opcodeMap w with
  | some i => .ok i
  | none => .error (rejection w)

/-- The opcode, bits 7:0 of the command word (R80, R81). -/
def opcode : Instr → BitVec 8
  | .nop => 0x00
  | .rst => 0x01
  | .freq => 0x02
  | .build => 0x03
  | .gencode => 0x04
  | .pack => 0x05
  | .unpack => 0x06
  | .compress => 0x07
  | .discard => 0x08

/-- The encoder: the opcode below a ZERO field of 24 zero bits (R80). -/
def encode (i : Instr) : Word := 0#24 ++ opcode i

/-- The command the decoder reads from the low `nbits` bits of `w`. A command is one 32-bit word that the port
transfers whole (R67, R80), so the table's bit numbering is the word's own. -/
def decodeTableWord (nbits w : Nat) : Option Instr :=
  match decode (BitVec.ofNat 32 (w % 2 ^ nbits)) with
  | .ok i => some i
  | .error _ => none

end Sys2Proof
end

