-- ==== Sys2Proof/Machine/State.lean ====
section
/-!
DEFINITION. The state of the core (spec 10_state.md R20 to R46), its value after reset (R55), and the reasons a step
can stop.
-/

namespace Sys2Proof.Machine

/-- The flags of STATUS (R23). Bits 31:7 are reserved and read 0, so only the seven flags are stored. -/
structure Status where
  freqValid : Bool
  treeValid : Bool
  codeValid : Bool
  outValid : Bool
  degen : Bool
  decPartial : Bool
  fault : Bool
deriving DecidableEq, Repr

/-- The register ROOT (R33): VALID and IDX. Bits 30:9 are reserved and read 0. -/
structure Root where
  valid : Bool
  idx : NodeIdx
deriving DecidableEq, Repr

/-- The kind of a NODE slot (R43). -/
inductive NodeKind where
  | empty
  | leaf
  | internal
  | unused
deriving DecidableEq, Repr

/-- A NODE record (R43). -/
structure Node where
  kind : NodeKind
  sym : Byte
  weight : Word
  left : NodeIdx
  right : NodeIdx
deriving DecidableEq, Repr

/-- A CODE record (R45): element j of `bits` is the j-th edge from the root. -/
structure Code where
  valid : Bool
  len : Byte
  bits : BitVec 256
deriving DecidableEq, Repr

/-- The state of the machine. The fields up to `code` are the spec's (R20); the last four are the model's own. -/
structure State where
  /-- STATUS (R23). -/
  status : Status
  /-- CTRL.LEN_EN (R25); the other bits of CTRL are reserved. -/
  lenEn : Bool
  /-- IN_LEN (R26). -/
  inLen : Word
  /-- OUT_LEN (R27). -/
  outLen : Word
  /-- BITLEN (R30). -/
  bitLen : Word
  /-- DEC_BITLEN (R31). -/
  decBitLen : Word
  /-- NSYM (R32). -/
  nsym : Word
  /-- ROOT (R33). -/
  root : Root
  /-- ERR.CODE (R34); the other bits of ERR are reserved. -/
  errCode : Byte
  /-- ERR_INFO (R35). -/
  errInfo : Word
  /-- DEC_CUR, bits 8:0 (R36); the other bits are reserved. -/
  decCur : NodeIdx
  /-- IBUF_CAP (R37): the parameter IBUF_SIZE. DESIGN CHOICE, log entry 3. -/
  ibufCap : Word
  /-- OBUF_CAP (R37): the parameter OBUF_SIZE. DESIGN CHOICE, log entry 3. -/
  obufCap : Word
  /-- IBUF (R40): the bytes the host has written since reset. -/
  ibuf : List Host.Cell
  /-- OBUF (R41): the bytes the commands have written. -/
  obuf : List Host.Cell
  /-- FREQ (R42): the counts that are not 0. -/
  freq : List (Nat × Word)
  /-- NODE (R43): the slots that are not EMPTY. -/
  node : List (Nat × Node)
  /-- CODE (R45): the records that are not the cleared one. -/
  code : List (Nat × Code)
  /-- The host's accesses still to come, oldest first (R6, R74). DESIGN CHOICE, log entry 1. -/
  port : List Access
  /-- What the latest host read returned (R61). DESIGN CHOICE, log entry 8. -/
  readData : Option Word
  /-- The number of the next host read, which picks its free value (R65). DESIGN CHOICE, log entry 5. -/
  fresh : Nat
  /-- The number of hardware resets so far, which picks the power-on contents of IBUF (R217). DESIGN CHOICE, log entry 7. -/
  epoch : Nat
deriving DecidableEq, Repr

/-- Why a step stops. The core's own faults are not here: they are latched in ERR and the machine goes on (R196). -/
inductive Fault where
  /-- Raised by GENCODE, and by COMPRESS in its GENCODE stage, when the traversal goes down more than MAX_CODE_LEN = 255
  edges. In a tree that BUILD made this cannot happen (R44 item 4, R113); in any other the spec's recursion gives no
  result. Safe (log entry 9). -/
  | endlessTree
deriving DecidableEq, Repr

/-- Why an instruction has no meaning. -/
inductive Refusal where
  /-- Raised only by an arm of `exec` whose instruction has no meaning yet. Safe. -/
  | notModelled (mnemonic : String)
deriving DecidableEq, Repr

/-- All seven flags 0. -/
def Status.clear : Status :=
  { freqValid := false, treeValid := false, codeValid := false, outValid := false, degen := false, decPartial := false,
    fault := false }

/-- ROOT = 0. -/
def Root.zero : Root := { valid := false, idx := 0 }

/-- The state after reset of a core whose parameters are `ibufSize` and `obufSize` (R4, R55, R216): every register 0 but
the two capacities, and nothing written in any memory. -/
def State.resetWith (ibufSize obufSize : Word) : State :=
  { status := Status.clear, lenEn := false, inLen := 0, outLen := 0, bitLen := 0, decBitLen := 0, nsym := 0,
    root := Root.zero, errCode := 0, errInfo := 0, decCur := 0, ibufCap := ibufSize, obufCap := obufSize,
    ibuf := [], obuf := [], freq := [], node := [], code := [], port := [], readData := none, fresh := 0, epoch := 0 }

/-- The state after reset, with the default sizes of R4. -/
def State.reset : State :=
  State.resetWith (BitVec.ofNat 32 Config.ibufSizeDefault) (BitVec.ofNat 32 Config.obufSizeDefault)

end Sys2Proof.Machine
end

