-- ==== Sys2Proof/Machine/Ops.lean ====
section
/-!
DEFINITION. The named operations over memories, registers and faults: sparse memories in canonical form, table reads and
writes, the run of a command's body, fault entry (spec 60_exceptions.md R196), the way out of a fault (R200), and the
fault gate (R197).
-/

namespace Sys2Proof.Machine

/-! ### Sparse memories

A memory is a list of (index, content) pairs with strictly rising indices. Reading, writing and erasing one index obey
the read-after-write laws on every list. -/

/-- The content listed at an index, if any. -/
def cellFind {α : Type} (cells : List (Nat × α)) (k : Nat) : Option α :=
  match cells with
  | [] => none
  | (a, v) :: rest => if a = k then some v else cellFind rest k

/-- The list with `v` at index `k`, in its place by index. -/
def cellInsert {α : Type} (cells : List (Nat × α)) (k : Nat) (v : α) : List (Nat × α) :=
  match cells with
  | [] => [(k, v)]
  | (a, w) :: rest =>
    if k < a then (k, v) :: (a, w) :: rest
    else if k = a then (k, v) :: rest
    else (a, w) :: cellInsert rest k v

/-- The list without index `k`. -/
def cellErase {α : Type} (cells : List (Nat × α)) (k : Nat) : List (Nat × α) :=
  match cells with
  | [] => []
  | (a, w) :: rest => if a = k then cellErase rest k else (a, w) :: cellErase rest k

/-- Strictly rising indices. -/
abbrev CellsSorted {α : Type} (cells : List (Nat × α)) : Prop :=
  cells.Pairwise (fun a b => a.1 < b.1)

/-! ### Byte memories: IBUF and OBUF (R40, R41)

An index nothing has written is not listed and holds `none`: what it reads as is not decided here. -/

/-- The byte at an index, `none` where nothing has written. -/
def Memory.read? (m : List Host.Cell) (i : Nat) : Option Byte := cellFind m i

/-- The memory with byte `b` at index `i`. -/
def Memory.write (m : List Host.Cell) (i : Nat) (b : Byte) : List Host.Cell := cellInsert m i b

/-- The canonical form of a byte memory of `size` bytes: strictly rising indices, all of them inside. -/
abbrev Memory.wf (size : Nat) (m : List Host.Cell) : Prop :=
  CellsSorted m ∧ ∀ c ∈ m, c.1 < size

/-! ### Tables: FREQ, NODE and CODE (R42, R43, R45)

An index not listed holds the table's default record, and a listed one never does. -/

/-- The record at an index of a table with default `d`. -/
def tableGet {α : Type} (d : α) (t : List (Nat × α)) (i : Nat) : α := (cellFind t i).getD d

/-- The table with record `v` at index `i`. -/
def tablePut {α : Type} [DecidableEq α] (d : α) (t : List (Nat × α)) (i : Nat) (v : α) : List (Nat × α) :=
  if v = d then cellErase t i else cellInsert t i v

/-- The canonical form of a table of `size` records with default `d`. -/
abbrev tableWf {α : Type} [DecidableEq α] (d : α) (size : Nat) (t : List (Nat × α)) : Prop :=
  CellsSorted t ∧ ∀ c ∈ t, c.1 < size ∧ c.2 ≠ d

/-- The EMPTY node record (R43). -/
def Node.emptyRecord : Node := { kind := .empty, sym := 0, weight := 0, left := 0, right := 0 }

/-- The record of a symbol that has no code (R45). -/
def Code.noCode : Code := { valid := false, len := 0, bits := 0 }

/-- FREQ[s] (R42). -/
def freqAt (t : List (Nat × Word)) (s : Nat) : Word := tableGet 0 t s

/-- FREQ[s] <- v. -/
def freqPut (t : List (Nat × Word)) (s : Nat) (v : Word) : List (Nat × Word) := tablePut 0 t s v

/-- NODE[i] (R43). -/
def nodeAt (t : List (Nat × Node)) (i : Nat) : Node := tableGet Node.emptyRecord t i

/-- NODE[i] <- v. -/
def nodePut (t : List (Nat × Node)) (i : Nat) (v : Node) : List (Nat × Node) := tablePut Node.emptyRecord t i v

/-- CODE[s] (R45). -/
def codeAt (t : List (Nat × Code)) (s : Nat) : Code := tableGet Code.noCode t s

/-- CODE[s] <- v. -/
def codePut (t : List (Nat × Code)) (s : Nat) (v : Code) : List (Nat × Code) := tablePut Code.noCode t s v

/-! ### Faults -/

/-- The names of the fault codes (R186). -/
inductive FaultCode where
  | illegalCmd
  | missingState
  | inRange
  | outOverflow
  | noCode
  | unusedLeaf
  | emptyTree
  | lenRange
deriving DecidableEq, Repr

/-- ERR.CODE of each fault (R186). -/
def FaultCode.number : FaultCode → Byte
  | .illegalCmd => 1
  | .missingState => 2
  | .inRange => 3
  | .outOverflow => 4
  | .noCode => 5
  | .unusedLeaf => 6
  | .emptyTree => 7
  | .lenRange => 8

/-- `raise X(info)` (R196): ERR.CODE and ERR_INFO are latched and STATUS.FAULT is set; nothing else is written. -/
def raiseFault (code : FaultCode) (info : Word) (s : State) : State :=
  { s with errCode := code.number, errInfo := info, status := { s.status with fault := true } }

/-- The only way out of a fault that a command gives (R200): every register to its reset value, the buffers as they
are, the tables invalid because their flags are 0 (R171). The capacities are constants (R37). -/
def softReset (s : State) : State :=
  { s with
    status := Status.clear, lenEn := false, inLen := 0, outLen := 0, bitLen := 0, decBitLen := 0, nsym := 0,
    root := Root.zero, errCode := 0, errInfo := 0, decCur := 0 }

/-- How far the body of a command, or a part of one, has come: it goes on with `a`, or has raised a fault after writing
`a` (R196: every write made before stays made), or cannot go on at all. -/
inductive Run (α : Type) where
  | ok (a : α)
  | raised (code : FaultCode) (info : Word) (a : α)
  | stopped (r : Fault)
deriving DecidableEq, Repr

/-- The next part of a body: a raise ends the command (R173, R196). -/
def runThen {α : Type} (r : Run α) (f : α → Run α) : Run α :=
  match r with
  | .ok a => f a
  | .raised c i a => .raised c i a
  | .stopped e => .stopped e

/-- The same run, with what it has written put into its place. -/
def runMap {α β : Type} (f : α → β) (r : Run α) : Run β :=
  match r with
  | .ok a => .ok (f a)
  | .raised c i a => .raised c i (f a)
  | .stopped e => .stopped e

/-- A loop over a list, ended by the first raise. -/
def runFold {α β : Type} (f : α → β → Run α) (a : α) (items : List β) : Run α :=
  match items with
  | [] => .ok a
  | b :: rest => runThen (f a b) (fun a' => runFold f a' rest)

/-- The outcome of a command from the run of its body. A raised fault is a next state (R196). -/
def runFinish (r : Run State) : Host.Outcome State Fault Refusal :=
  match r with
  | .ok s => .next s
  | .raised c i s => .next (raiseFault c i s)
  | .stopped e => .fault e

/-- The fault gate (R197): while STATUS.FAULT = 1 the command is ignored. -/
def gated (body : State → Run State) (s : State) : Host.Outcome State Fault Refusal :=
  if s.status.fault then .next s else runFinish (body s)

end Sys2Proof.Machine
end

