-- ==== Sys2Proof/Machine/Operands.lean ====
section
/-!
DEFINITION. The operand forms of the commands (spec 20_memory.md R79): sequential input, bit-indexed input, sequential
output, table lookup; the bit order inside a byte (R68); code bits (R45); and the words by which the host reads
registers and tables (10_state.md R21, 30_encoding.md R85, R86).
-/

namespace Sys2Proof.Machine

/-- IBUF[i]: what the host has written there, else the free value (R65 item 1). -/
def ibufByte (s : State) (i : Nat) : Byte := (Memory.read? s.ibuf i).getD (Config.unwrittenByte s.epoch i)

/-- Sequential input (R79): IBUF[0 .. IN_LEN-1]. -/
def inputBytes (s : State) : List Byte := (List.range s.inLen.toNat).map (ibufByte s)

/-- `pos(k)`: the bit position, inside a byte, of bit number k of a group of eight (R68, R140, R155). -/
def bitPos (k : Nat) : Nat :=
  match Config.packOrder with
  | .lsbFirst => k
  | .msbFirst => 7 - k

/-- Bit-indexed input (R79, R157): bit number t of the packed input. -/
def inputBit (s : State) (t : Nat) : Bool := (ibufByte s (t / 8)).getLsbD (bitPos (t % 8))

/-- The first `n` bits of the packed input. -/
def inputBits (s : State) (n : Nat) : List Bool := (List.range n).map (inputBit s)

/-- `v[k] <- b` for one bit of a byte. -/
def setBit (v : Byte) (k : Nat) (b : Bool) : Byte :=
  if b then v ||| (1#8 <<< k) else v &&& ~~~(1#8 <<< k)

/-- Where sequential output stands (R79): the output buffer and OPTR, the number of bytes emitted. -/
structure Sink where
  obuf : List Host.Cell
  optr : Nat
deriving DecidableEq, Repr

/-- `emit(v)` (R140, R155, R191): write OBUF[OPTR], or raise OUT_OVERFLOW(OPTR) when `cap` bytes are already there. -/
def emit (cap : Nat) (v : Byte) (k : Sink) : Run Sink :=
  if cap ≤ k.optr then .raised .outOverflow (BitVec.ofNat 32 k.optr) k
  else .ok { obuf := Memory.write k.obuf k.optr v, optr := k.optr + 1 }

/-- The number whose bit j is element j of a bit sequence. -/
def bitsValue (bs : List Bool) : Nat :=
  match bs with
  | [] => 0
  | b :: rest => b.toNat + 2 * bitsValue rest

/-- The CODE record of a path from the root (R130): bits[j] = path[j], 0 beyond. -/
def Code.ofPath (path : List Bool) : Code :=
  { valid := true, len := BitVec.ofNat 8 path.length, bits := BitVec.ofNat 256 (bitsValue path) }

/-- The bit sequence of a CODE record: bits[0] .. bits[len-1] (R45). -/
def Code.sequence (c : Code) : List Bool := (List.range c.len.toNat).map c.bits.getLsbD

/-- The child the walk moves to: left on bit 0, right on bit 1 (R158). -/
def childOf (n : Node) (b : Bool) : NodeIdx := if b then n.right else n.left

/-- The 2-bit number of a node kind (R43). -/
def NodeKind.number : NodeKind → BitVec 2
  | .empty => 0
  | .leaf => 1
  | .internal => 2
  | .unused => 3

/-- NODEA[i] (R85): kind 1:0, sym 9:2, left 18:10, right 27:19, zeros. -/
def nodeaWord (n : Node) : Word := 0#4 ++ n.right ++ n.left ++ n.sym ++ n.kind.number

/-- NODEW[i] (R85). -/
def nodewWord (n : Node) : Word := n.weight

/-- CODEL[s] (R86): len 7:0, valid 31. -/
def codelWord (c : Code) : Word := BitVec.ofBool c.valid ++ 0#23 ++ c.len

/-- CODEB[8s + w] (R86): bit j is bits[32w + j]. -/
def codebWord (c : Code) (w : Nat) : Word := c.bits.extractLsb' (32 * w) 32

/-- ROOT as a word (R33): VALID in bit 31, IDX in bits 8:0. -/
def Root.word (r : Root) : Word := BitVec.ofBool r.valid ++ 0#22 ++ r.idx

end Sys2Proof.Machine
end

