-- ==== Sys2Proof/Machine/Flags.lean ====
section
/-!
DEFINITION. The STATUS flags (spec 10_state.md R23, R24): STATUS as a word, what DEGEN and DEC_PARTIAL become, the flag
writes a command makes before its first check (60_exceptions.md R198), and the preconditions that read a flag (R188)
or a length (R190).
-/

namespace Sys2Proof.Machine

/-- STATUS as a word (R23): flag k in bit k, bits 31:7 zero. -/
def Status.word (f : Status) : Word :=
  0#25 ++ BitVec.ofBool f.fault ++ BitVec.ofBool f.decPartial ++ BitVec.ofBool f.degen ++ BitVec.ofBool f.outValid ++
    BitVec.ofBool f.codeValid ++ BitVec.ofBool f.treeValid ++ BitVec.ofBool f.freqValid

/-- DEGEN after a tree build over N symbols (R23 bit 4, R115, R116). -/
def degenOf (n : Nat) : Bool := decide (n ≤ 1)

/-- DEC_PARTIAL after a walk that ended at `cur` (R23 bit 5, R160). -/
def partialOf (cur : NodeIdx) (root : Root) : Bool := decide (cur ≠ root.idx)

/-- The clears at the start of FREQ (R100). -/
def clearFreq (s : State) : State :=
  { s with status := { s.status with freqValid := false }, nsym := 0 }

/-- The clears at the start of BUILD (R110). -/
def clearTree (s : State) : State :=
  { s with status := { s.status with treeValid := false, codeValid := false, degen := false }, root := Root.zero }

/-- The clear at the start of GENCODE (R130). -/
def clearCode (s : State) : State :=
  { s with status := { s.status with codeValid := false } }

/-- The clears at the start of PACK (R140). -/
def clearPack (s : State) : State :=
  { s with outLen := 0, status := { s.status with outValid := false }, bitLen := 0 }

/-- The clears at the start of UNPACK (R155). -/
def clearUnpack (s : State) : State :=
  { s with outLen := 0, status := { s.status with outValid := false, decPartial := false }, decCur := 0 }

/-- The codec state thrown away (R172; also the start of COMPRESS, R173). -/
def clearCodec (s : State) : State :=
  { s with
    status := { s.status with freqValid := false, treeValid := false, codeValid := false, degen := false }
    nsym := 0, root := Root.zero }

/-- A precondition: `raise` unless it holds. -/
def require (holds : Bool) (code : FaultCode) (info : Word) (s : State) : Run State :=
  if holds then .ok s else .raised code info s

/-- The IN_RANGE check (R190): IN_LEN ≤ IBUF_SIZE, else raise IN_RANGE(IN_LEN). -/
def checkInRange (s : State) : Run State :=
  require (decide (s.inLen.toNat ≤ s.ibufCap.toNat)) .inRange s.inLen s

end Sys2Proof.Machine
end

