-- ==== Sys2Proof/Machine/Freq.lean ====
section
/-!
DEFINITION. FREQ, the Frequency Analyzer (spec 40_freq.md R100 to R102).
-/

namespace Sys2Proof.Machine

/-- One byte of the scan: FREQ[s] <- FREQ[s] + 1 (R100). -/
def countByte (t : List (Nat × Word)) (b : Byte) : List (Nat × Word) :=
  freqPut t b.toNat (freqAt t b.toNat + 1)

/-- The frequency table of a buffer: all counts 0, then one increment per byte (R100). -/
def frequencyTable (bytes : List Byte) : List (Nat × Word) := bytes.foldl countByte []

/-- The alphabet of a frequency table, in rising order: the symbols with a non-zero count (R42, R101). -/
def alphabet (t : List (Nat × Word)) : List Nat :=
  (List.range Config.symbols).filter (fun s => decide (freqAt t s ≠ 0))

/-- The end of a successful FREQ: the table, NSYM and FREQ_VALID (R100). -/
def storeFreq (t : List (Nat × Word)) (s : State) : State :=
  { s with freq := t, nsym := BitVec.ofNat 32 (alphabet t).length, status := { s.status with freqValid := true } }

/-- The body of FREQ (R100). -/
def freqBody (s : State) : Run State :=
  runThen (checkInRange (clearFreq s)) (fun s => .ok (storeFreq (frequencyTable (inputBytes s)) s))

/-- FREQ (R100): scan the input buffer and build the frequency table. -/
def execFreq (s : State) : Host.Outcome State Fault Refusal := gated freqBody s

end Sys2Proof.Machine
end

