-- ==== Sys2Proof/Machine/Build.lean ====
section
/-!
DEFINITION. BUILD, the Tree Builder (spec 41_build.md R110 to R117): leaf initialisation, the merges with their
tie-break, and the two degenerate alphabets.
-/

namespace Sys2Proof.Machine

/-- The leaf of symbol s (R110, R111). -/
def leafNode (t : List (Nat × Word)) (s : Nat) : Node :=
  { kind := .leaf, sym := BitVec.ofNat 8 s, weight := freqAt t s, left := 0, right := 0 }

/-- An internal node over two slots (R110). -/
def internalNode (weight : Word) (left right : Nat) : Node :=
  { kind := .internal, sym := 0, weight := weight, left := BitVec.ofNat 9 left, right := BitVec.ofNat 9 right }

/-- The unused leaf of the single-symbol tree (R115). -/
def unusedNode : Node := { kind := .unused, sym := 0, weight := 0, left := 0, right := 0 }

/-- Leaf initialisation (R111): all slots EMPTY, then the leaf of each symbol of the alphabet in its own slot. -/
def leaves (t : List (Nat × Word)) : List (Nat × Node) :=
  (alphabet t).foldl (fun nodes s => nodePut nodes s (leafNode t s)) []

/-- The key order of the priority collection (R114): lower weight first, among equal weights the lower index. -/
def lighter (nodes : List (Nat × Node)) (i j : Nat) : Bool :=
  decide ((nodeAt nodes i).weight < (nodeAt nodes j).weight) ||
    (decide ((nodeAt nodes i).weight = (nodeAt nodes j).weight) && decide (i < j))

/-- The minimum of the collection by that order (R110, R114), none when it is empty. -/
def lightest (nodes : List (Nat × Node)) (active : List Nat) : Option Nat :=
  match active with
  | [] => none
  | i :: rest =>
    match lightest nodes rest with
    | none => some i
    | some j => if lighter nodes i j then some i else some j

/-- Remove the minimum of the collection (R112): the node removed and the members left. -/
def takeLightest (nodes : List (Nat × Node)) (active : List Nat) : Option (Nat × List Nat) :=
  match lightest nodes active with
  | none => none
  | some m => some (m, active.erase m)

/-- The node of one merge (R112): first removed left, second removed right, weight the sum. -/
def mergedNode (nodes : List (Nat × Node)) (m1 m2 : Nat) : Node :=
  internalNode ((nodeAt nodes m1).weight + (nodeAt nodes m2).weight) m1 m2

/-- `n` merges, the first of them into `slot` (R112). A merge of fewer than two members does not occur: the collection
holds one member more than there are merges to do. -/
def mergeLoop (n slot : Nat) (nodes : List (Nat × Node)) (active : List Nat) : List (Nat × Node) :=
  match n with
  | 0 => nodes
  | n + 1 =>
    match takeLightest nodes active with
    | none => nodes
    | some (m1, active1) =>
      match takeLightest nodes active1 with
      | none => nodes
      | some (m2, active2) => mergeLoop n (slot + 1) (nodePut nodes slot (mergedNode nodes m1 m2)) (active2 ++ [slot])

/-- The tree of a frequency table: R116 for N = 0, R115 for N = 1, N - 1 merges for N ≥ 2 (R110). -/
def treeOf (t : List (Nat × Word)) : List (Nat × Node) × Root :=
  match alphabet t with
  | [] => ([], Root.zero)
  | [s] =>
    (nodePut (nodePut (leaves t) Config.unusedSlot unusedNode) Config.symbols
        (internalNode (freqAt t s) s Config.unusedSlot),
      { valid := true, idx := BitVec.ofNat 9 Config.symbols })
  | s1 :: s2 :: rest =>
    (mergeLoop (rest.length + 1) Config.symbols (leaves t) (s1 :: s2 :: rest),
      { valid := true, idx := BitVec.ofNat 9 (Config.symbols + rest.length) })

/-- The end of a successful BUILD: NODE, ROOT, DEGEN and TREE_VALID (R110). -/
def storeTree (s : State) : State :=
  { s with
    node := (treeOf s.freq).1, root := (treeOf s.freq).2
    status := { s.status with degen := degenOf (alphabet s.freq).length, treeValid := true } }

/-- The body of BUILD (R110). The missing table is number 0 (R188). -/
def buildBody (s : State) : Run State :=
  runThen (require s.status.freqValid .missingState 0 (clearTree s)) (fun s => .ok (storeTree s))

/-- BUILD (R110): build the tree from the frequency table. -/
def execBuild (s : State) : Host.Outcome State Fault Refusal := gated buildBody s

end Sys2Proof.Machine
end

