-- ==== Sys2Proof/Machine/Gencode.lean ====
section
/-!
DEFINITION. GENCODE, the Code Table Generator (spec 42_gencode.md R130 to R133).
-/

namespace Sys2Proof.Machine

/-- `visit(n, path)` (R130): the depth-first traversal below slot `n`, which may go down `depth` more edges. It answers
none when it would have to go deeper (log entry 9). -/
def visit (nodes : List (Nat × Node)) (depth : Nat) (n : NodeIdx) (path : List Bool) (table : List (Nat × Code)) :
    Option (List (Nat × Code)) :=
  match (nodeAt nodes n.toNat).kind with
  | .leaf => some (codePut table (nodeAt nodes n.toNat).sym.toNat (Code.ofPath path))
  | .internal =>
    match depth with
    | 0 => none
    | d + 1 =>
      match visit nodes d (nodeAt nodes n.toNat).left (path ++ [false]) table with
      | none => none
      | some table' => visit nodes d (nodeAt nodes n.toNat).right (path ++ [true]) table'
  | .unused => some table
  -- never reached from the root of a tree that BUILD made (R44 item 3); log entry 10
  | .empty => some table

/-- The code table of a tree (R130): every record cleared, then the traversal from the root, if there is one. -/
def codeTable (nodes : List (Nat × Node)) (root : Root) : Option (List (Nat × Code)) :=
  if root.valid then visit nodes Config.maxCodeLen root.idx [] [] else some []

/-- The end of a successful GENCODE: CODE and CODE_VALID (R130). -/
def storeCode (t : List (Nat × Code)) (s : State) : State :=
  { s with code := t, status := { s.status with codeValid := true } }

/-- The traversal part of GENCODE (R130). -/
def generate (s : State) : Run State :=
  match codeTable s.node s.root with
  | none => .stopped .endlessTree
  | some t => .ok (storeCode t s)

/-- The body of GENCODE (R130). The missing tree is number 1 (R188). -/
def gencodeBody (s : State) : Run State :=
  runThen (require s.status.treeValid .missingState 1 (clearCode s)) generate

/-- GENCODE (R130): walk the tree and fill the code table. -/
def execGencode (s : State) : Host.Outcome State Fault Refusal := gated gencodeBody s

end Sys2Proof.Machine
end

