-- ==== Sys2Proof/Machine/Pack.lean ====
section
/-!
DEFINITION. PACK, the Bit Packer (spec 43_pack.md R140 to R146): symbol-to-code lookup and bit-serial shifter.
-/

namespace Sys2Proof.Machine

/-- The working registers of the packer (R50): the output, ACC, NACC and BCNT. Dead between commands (R51). -/
structure Packer where
  sink : Sink
  acc : Byte
  nacc : Nat
  bcnt : Nat
deriving DecidableEq, Repr

/-- ACC emitted and cleared (R140). -/
def flushAcc (cap : Nat) (p : Packer) : Run Packer :=
  match emit cap p.acc p.sink with
  | .ok k => .ok { p with sink := k, acc := 0, nacc := 0 }
  | .raised c i k => .raised c i { p with sink := k }
  | .stopped e => .stopped e

/-- One step of the bit-serial shifter (R140, R141): the bit enters ACC at pos(NACC), and a full ACC is emitted. -/
def shiftBit (cap : Nat) (p : Packer) (b : Bool) : Run Packer :=
  let q : Packer := { p with acc := setBit p.acc (bitPos p.nacc) b, nacc := p.nacc + 1, bcnt := p.bcnt + 1 }
  if q.nacc = 8 then flushAcc cap q else .ok q

/-- One input byte, with its index IPTR (R140): NO_CODE(IPTR) before any bit of it is shifted, then its code, first edge
first. -/
def packByte (code : List (Nat × Code)) (cap : Nat) (p : Packer) (item : Byte × Nat) : Run Packer :=
  let c := codeAt code item.1.toNat
  if c.valid then runFold (shiftBit cap) p c.sequence
  else .raised .noCode (BitVec.ofNat 32 item.2) p

/-- The last group (R142): a partly filled ACC is emitted as it stands. -/
def flushLast (cap : Nat) (p : Packer) : Run Packer := if 0 < p.nacc then flushAcc cap p else .ok p

/-- The whole of the packing (R140): every input byte in order, then the last group. -/
def packRun (s : State) : Run Packer :=
  runThen
    (runFold (packByte s.code s.obufCap.toNat) { sink := { obuf := s.obuf, optr := 0 }, acc := 0, nacc := 0, bcnt := 0 }
      (inputBytes s).zipIdx)
    (flushLast s.obufCap.toNat)

/-- The end of a successful PACK: OUT_LEN, BITLEN and OUT_VALID (R140). -/
def storePacked (p : Packer) (s : State) : State :=
  { s with
    obuf := p.sink.obuf, outLen := BitVec.ofNat 32 p.sink.optr, bitLen := BitVec.ofNat 32 p.bcnt
    status := { s.status with outValid := true } }

/-- The packing part of PACK: on a raise the bytes written so far stay in OBUF (R146). -/
def packInto (s : State) : Run State :=
  match packRun s with
  | .ok p => .ok (storePacked p s)
  | .raised c i p => .raised c i { s with obuf := p.sink.obuf }
  | .stopped e => .stopped e

/-- The body of PACK (R140). The missing code table is number 2 (R188). -/
def packBody (s : State) : Run State :=
  runThen (require s.status.codeValid .missingState 2 (clearPack s)) (fun s => runThen (checkInRange s) packInto)

/-- PACK (R140): encode the input buffer with the code table into the output buffer. -/
def execPack (s : State) : Host.Outcome State Fault Refusal := gated packBody s

end Sys2Proof.Machine
end

