-- ==== Sys2Proof/Machine/Compress.lean ====
section
/-!
DEFINITION. COMPRESS, the whole encode path as one command (spec 45_control_compound.md R173).
-/

namespace Sys2Proof.Machine

/-- The body of COMPRESS (R173): no output, fresh codec state, then the bodies of the four stages; the first raise ends
it. -/
def compressBody (s : State) : Run State :=
  runThen (freqBody (clearCodec (clearPack s))) (fun s =>
    runThen (buildBody s) (fun s =>
      runThen (gencodeBody s) packBody))

/-- COMPRESS (R173). -/
def execCompress (s : State) : Host.Outcome State Fault Refusal := gated compressBody s

end Sys2Proof.Machine
end

