-- ==== Sys2Proof/Machine/Control.lean ====
section
/-!
DEFINITION. NOP, RST and DISCARD (spec 45_control_compound.md R170 to R172).
-/

namespace Sys2Proof.Machine

/-- NOP (R170): nothing, in every state. -/
def execNop (s : State) : Host.Outcome State Fault Refusal := .next s

/-- RST (R171): the soft reset, not subject to the fault gate. -/
def execRst (s : State) : Host.Outcome State Fault Refusal := .next (softReset s)

/-- The body of DISCARD (R172). -/
def discardBody (s : State) : Run State := .ok (clearCodec s)

/-- DISCARD (R172): the codec state is thrown away, the output is kept. -/
def execDiscard (s : State) : Host.Outcome State Fault Refusal := gated discardBody s

end Sys2Proof.Machine
end

