-- ==== Sys2Proof/Machine/Unpack.lean ====
section
/-!
DEFINITION. UNPACK, the Bit Unpacker and Tree Walker (spec 44_unpack.md R155 to R165).
-/

namespace Sys2Proof.Machine

/-- The working registers of the decoder (R50): the output and CUR. Dead between commands (R51). -/
structure Walker where
  sink : Sink
  cur : NodeIdx
deriving DecidableEq, Repr

/-- One bit, with its index T (R158, R159, R163): CUR moves to a child; a LEAF is emitted and CUR returns to the root;
the unused leaf raises UNUSED_LEAF(T); after any other kind the walk goes on (an EMPTY slot is never reached, R44;
log entry 10). -/
def walkBit (nodes : List (Nat × Node)) (root : NodeIdx) (cap : Nat) (w : Walker) (item : Bool × Nat) : Run Walker :=
  let cur := childOf (nodeAt nodes w.cur.toNat) item.1
  let n := nodeAt nodes cur.toNat
  match n.kind with
  | .leaf => runMap (fun k => { sink := k, cur := root }) (emit cap n.sym w.sink)
  | .unused => .raised .unusedLeaf (BitVec.ofNat 32 item.2) { w with cur := cur }
  | .internal => .ok { w with cur := cur }
  | .empty => .ok { w with cur := cur }

/-- NBITS, the number of bits walked (R156): DEC_BITLEN in length mode, 8 * IN_LEN in baseline mode. -/
def bitCount (s : State) : Nat := if s.lenEn then s.decBitLen.toNat else 8 * s.inLen.toNat

/-- The LEN_RANGE check (R195): in length mode DEC_BITLEN ≤ 8 * IN_LEN, else raise LEN_RANGE(DEC_BITLEN). -/
def checkLenRange (s : State) : Run State :=
  require (!s.lenEn || decide (s.decBitLen.toNat ≤ 8 * s.inLen.toNat)) .lenRange s.decBitLen s

/-- The EMPTY_TREE check (R194): no bits to walk or a tree to walk, else raise EMPTY_TREE(NBITS). -/
def checkTree (s : State) : Run State :=
  require (decide (bitCount s = 0) || s.root.valid) .emptyTree (BitVec.ofNat 32 (bitCount s)) s

/-- The whole of the walk (R155): every bit in order, from the root. -/
def walkRun (s : State) : Run Walker :=
  runFold (walkBit s.node s.root.idx s.obufCap.toNat) { sink := { obuf := s.obuf, optr := 0 }, cur := s.root.idx }
    (inputBits s (bitCount s)).zipIdx

/-- The end of a successful UNPACK: DEC_CUR, DEC_PARTIAL, OUT_LEN and OUT_VALID (R155, R160). -/
def storeWalked (w : Walker) (s : State) : State :=
  { s with
    obuf := w.sink.obuf, decCur := w.cur, outLen := BitVec.ofNat 32 w.sink.optr
    status := { s.status with decPartial := partialOf w.cur s.root, outValid := true } }

/-- The walking part of UNPACK: on a raise the bytes written so far stay in OBUF (R196). -/
def walkInto (s : State) : Run State :=
  match walkRun s with
  | .ok w => .ok (storeWalked w s)
  | .raised c i w => .raised c i { s with obuf := w.sink.obuf }
  | .stopped e => .stopped e

/-- The body of UNPACK (R155), its checks in the order of R199. The missing tree is number 1 (R188). -/
def unpackBody (s : State) : Run State :=
  runThen (require s.status.treeValid .missingState 1 (clearUnpack s)) (fun s =>
    runThen (checkInRange s) (fun s =>
      runThen (checkLenRange s) (fun s =>
        runThen (checkTree s) walkInto)))

/-- UNPACK (R155): expand the packed input to bits and walk the tree, one symbol per leaf reached. -/
def execUnpack (s : State) : Host.Outcome State Fault Refusal := gated unpackBody s

end Sys2Proof.Machine
end

