-- ==== Sys2Proof/Machine/Port.lean ====
section
/-!
DEFINITION. The host port (spec 20_memory.md R60 to R66): reads, writes, the write of a command word (10_state.md R22),
and the platform's reset (70_reset_and_hazards.md R215, R217).
-/

namespace Sys2Proof.Machine

/-- The word a register of space REG reads as (R21, R38): CMD reads 0, and so does every reserved index. -/
def regWord (s : State) (index : Nat) : Word :=
  match index with
  | 1 => s.status.word
  | 2 => if s.lenEn then 1 else 0
  | 3 => s.inLen
  | 4 => s.outLen
  | 5 => s.bitLen
  | 6 => s.decBitLen
  | 7 => s.nsym
  | 8 => s.root.word
  | 9 => s.errCode.setWidth 32
  | 10 => s.errInfo
  | 11 => s.decCur.setWidth 32
  | 12 => s.ibufCap
  | 13 => s.obufCap
  | _ => 0

/-- The number of elements of a space (R60); every index of REG may be read (R38). -/
def spaceSize (s : State) : Space → Nat
  | .reg => 4294967296
  | .ibuf => s.ibufCap.toNat
  | .obuf => s.obufCap.toNat
  | .freq => Config.symbols
  | .nodea => Config.nodeSlots
  | .nodew => Config.nodeSlots
  | .codel => Config.symbols
  | .codeb => 8 * Config.symbols

/-- Whether the content at an index inside a space is specified (R65). IBUF has its own rule, in `ibufByte`. -/
def contentSpecified (s : State) (space : Space) (index : Nat) : Bool :=
  match space with
  | .reg => true
  | .ibuf => true
  | .obuf => s.status.outValid && decide (index < s.outLen.toNat)
  | .freq => s.status.freqValid
  | .nodea => s.status.treeValid
  | .nodew => s.status.treeValid
  | .codel => s.status.codeValid
  | .codeb => s.status.codeValid

/-- The free value of a read of unspecified content (R65), in the layout of its space: the bits that a layout gives no field
are 0 whatever the content (R61 for a buffer byte, R85 for NODEA 31:28, R86 for CODEL 30:8; U12). Log entry 18. -/
def unspecifiedWord (s : State) (space : Space) : Word :=
  match space with
  | .obuf => ((Config.unspecifiedRead s.fresh).setWidth 8).setWidth 32
  | .ibuf => ((Config.unspecifiedRead s.fresh).setWidth 8).setWidth 32
  | .reg => Config.unspecifiedRead s.fresh
  | .freq => Config.unspecifiedRead s.fresh
  | .nodea => 0#4 ++ (Config.unspecifiedRead s.fresh).extractLsb' 0 28
  | .nodew => Config.unspecifiedRead s.fresh
  | .codel =>
    (Config.unspecifiedRead s.fresh).extractLsb' 31 1 ++ 0#23 ++ (Config.unspecifiedRead s.fresh).extractLsb' 0 8
  | .codeb => Config.unspecifiedRead s.fresh

/-- The stored content at an index of a space, as the host's 32-bit word (R61, R85, R86). -/
def contentWord (s : State) (space : Space) (index : Nat) : Word :=
  match space with
  | .reg => regWord s index
  | .ibuf => (ibufByte s index).setWidth 32
  | .obuf =>
    match Memory.read? s.obuf index with
    | some b => b.setWidth 32
    | none => unspecifiedWord s .obuf
  | .freq => freqAt s.freq index
  | .nodea => nodeaWord (nodeAt s.node index)
  | .nodew => nodewWord (nodeAt s.node index)
  | .codel => codelWord (codeAt s.code index)
  | .codeb => codebWord (codeAt s.code (index / 8)) (index % 8)

/-- `MemRead(space:idx, n)` (R61): 0 outside the space, a free value where the content is unspecified (R65). -/
def memRead (space : Space) (index : Nat) (s : State) : Word :=
  if spaceSize s space ≤ index then 0
  else if contentSpecified s space index then contentWord s space index
  else unspecifiedWord s space

/-- A host read: it returns its value and changes nothing else (R61); the model numbers it. -/
def hostRead (space : Space) (index : Word) (s : State) : State :=
  { s with readData := some (memRead space index.toNat s), fresh := s.fresh + 1 }

/-- An illegal command word (R83, R187): ILLEGAL_CMD(word), unless the fault gate is closed (R197). -/
def illegalCommand (word : Word) (s : State) : State :=
  if s.status.fault then s else raiseFault .illegalCmd word s

/-- A write to CMD (R22): the command the word encodes is performed. -/
def issueCommand (word : Word) (s : State) : Host.Outcome State Fault Refusal :=
  match decode word with
  | .ok i => exec i s
  | .error _ => .next (illegalCommand word s)

/-- A host write to a register other than CMD (R62): CTRL keeps only LEN_EN, IN_LEN and DEC_BITLEN keep all 32 bits,
every other register ignores it. -/
def writeReg (index : Nat) (v : Word) (s : State) : State :=
  match index with
  | 2 => { s with lenEn := v.getLsbD 0 }
  | 3 => { s with inLen := v }
  | 6 => { s with decBitLen := v }
  | _ => s

/-- A host write to IBUF (R62): bits 7:0 are stored; outside the buffer it is ignored. -/
def writeIbuf (index : Nat) (v : Word) (s : State) : State :=
  if index < s.ibufCap.toNat then { s with ibuf := Memory.write s.ibuf index (v.setWidth 8) } else s

/-- `MemWrite(space:idx, n, v)` (R62): a command, a register, an input byte, or no effect. -/
def hostWrite (space : Space) (index : Word) (v : Word) (s : State) : Host.Outcome State Fault Refusal :=
  match space with
  | .reg => if index = 0 then issueCommand v s else .next (writeReg index.toNat v s)
  | .ibuf => .next (writeIbuf index.toNat v s)
  | .obuf => .next s
  | .freq => .next s
  | .nodea => .next s
  | .nodew => .next s
  | .codel => .next s
  | .codeb => .next s

/-- Hardware reset (R215 to R217): the reset state of a core of the same sizes, the contents of IBUF unspecified anew. The
host's coming accesses are its own and stay. -/
def hardwareReset (s : State) : State :=
  { State.resetWith s.ibufCap s.obufCap with port := s.port, fresh := s.fresh, epoch := s.epoch + 1 }

/-- One event at the boundary. -/
def serve (a : Access) (s : State) : Host.Outcome State Fault Refusal :=
  match a with
  | .read space index => .next (hostRead space index s)
  | .write space index v => hostWrite space index v s
  | .reset => .next (hardwareReset s)

/-- The command word whose low `nbits` bits are those of `w` and whose others are 0 (R80). -/
def tableWord (nbits w : Nat) : Word := BitVec.ofNat 32 (w % 2 ^ nbits)

end Sys2Proof.Machine
end

