-- ==== Sys2Proof/Machine/Step.lean ====
section
/-!
DEFINITION. One step: the host's next access is served (spec 00_scope.md R6, 20_memory.md R74); with none pending the core
is idle and keeps all state (60_exceptions.md R212).
-/

namespace Sys2Proof.Machine

/-- The core fetches nothing (R52): its next instruction is the host's next access. -/
def step (s : State) : Host.Outcome State Fault Refusal :=
  match s.port with
  | [] => .next s
  | a :: rest => serve a { s with port := rest }

/-- The state in which the host's very next access is the write of that command word to CMD (R22); log entry 1. -/
def State.withFetchWord (s : State) (nbits w : Nat) : State :=
  { s with port := Access.command (tableWord nbits w) :: s.port }

end Sys2Proof.Machine
end

