-- ==== Sys2Proof/Machine/Script.lean ====
section
/-!
DEFINITION. The host script notation (spec 30_encoding.md R90) and the pseudo-commands (R91): each line is the list of
accesses it stands for, which a host hands to the core by `State.withAccesses`; RDOUT and MOVOI go on from the words their
own reads return.
-/

namespace Sys2Proof.Machine

/-- One statement of a host script (R90). -/
inductive ScriptLine where
  | wr (reg : RegName) (v : Word)
  | rd (reg : RegName)
  | wrb (index : Nat) (v : Byte)
  | rdb (space : Space) (index : Nat)
  | command (i : Instr)
deriving DecidableEq, Repr

/-- The access a statement stands for (R90). -/
def ScriptLine.access : ScriptLine → Access
  | .wr reg v => .write .reg (BitVec.ofNat 32 reg.index) v
  | .rd reg => .read .reg (BitVec.ofNat 32 reg.index)
  | .wrb index v => .write .ibuf (BitVec.ofNat 32 index) (v.setWidth 32)
  | .rdb space index => .read space (BitVec.ofNat 32 index)
  | .command i => Access.command (encode i)

/-- `LDIN bytes` (R91): the bytes into IBUF from index 0, then their count into IN_LEN. -/
def ldin (bytes : List Byte) : List ScriptLine :=
  bytes.zipIdx.map (fun p => .wrb p.2 p.1) ++ [.wr .inLen (BitVec.ofNat 32 bytes.length)]

/-- `DECOMPRESS` (R91). -/
def decompress : List ScriptLine := [.command .unpack]

/-- `DECOMPRESS_LEN L` (R91). -/
def decompressLen (l : Word) : List ScriptLine := [.wr .ctrl 1, .wr .decBitLen l, .command .unpack]

/-- The accesses of `RDOUT` (R91) when its first read returned `n`. -/
def rdoutLines (n : Nat) : List ScriptLine := .rd .outLen :: (List.range n).map (.rdb .obuf)

/-- One host read in a script: the word it returns, and the state after it (R61). -/
def readWord (space : Space) (index : Nat) (s : State) : Word × State :=
  (memRead space (BitVec.ofNat 32 index).toNat s, hostRead space (BitVec.ofNat 32 index) s)

/-- `RDB OBUF, first`, then the `n - 1` bytes after it: the bytes read, in order, and the state after. -/
def readOutput (n first : Nat) (s : State) : List Byte × State :=
  match n with
  | 0 => ([], s)
  | n + 1 =>
    let r := readWord .obuf first s
    let more := readOutput n (first + 1) r.2
    (r.1.setWidth 8 :: more.1, more.2)

/-- `RDOUT` (R91): as many bytes as the word that `RD OUT_LEN` returned; the result is the list of the bytes read. -/
def rdout (s : State) : List Byte × State :=
  let n := readWord .reg RegName.outLen.index s
  readOutput n.1.toNat 0 n.2

/-- `v = RDB OBUF, first; WRB first, v`, then the `n - 1` bytes after it. -/
def copyOutput (n first : Nat) (s : State) : State :=
  match n with
  | 0 => s
  | n + 1 =>
    let r := readWord .obuf first s
    copyOutput n (first + 1) (writeIbuf (BitVec.ofNat 32 first).toNat ((r.1.setWidth 8).setWidth 32) r.2)

/-- `MOVOI` (R91): `n = RD OUT_LEN`, each output byte read and written back to IBUF, then `WR IN_LEN, n`. -/
def movoi (s : State) : State :=
  let n := readWord .reg RegName.outLen.index s
  writeReg RegName.inLen.index n.1 (copyOutput n.1.toNat 0 n.2)

/-- What `LDIN` and `MOVOI` require of the number of bytes (R91). A host that ignores it loses the bytes beyond (R62). -/
abbrev FitsInput (n : Nat) (s : State) : Prop := n ≤ s.ibufCap.toNat

/-- The state in which the host has these accesses to make after those already pending. -/
def State.withAccesses (s : State) (accesses : List Access) : State := { s with port := s.port ++ accesses }

/-- The word an access returned to the host, in the state right after it: a read returns one, a write and a reset none. -/
def returnedWord (a : Access) (s : State) : List Word :=
  match a with
  | .read _ _ => s.readData.toList
  | .write _ _ _ => []
  | .reset => []

/-- A list of accesses served one after another, up to the first stop: the words the reads returned, in order, and the state
after the last. -/
def serveAll (accesses : List Access) (s : State) : Host.Outcome (List Word × State) Fault Refusal :=
  match accesses with
  | [] => .next ([], s)
  | a :: rest =>
    match serve a s with
    | .fault r => .fault r
    | .refused r => .refused r
    | .next s' =>
      match serveAll rest s' with
      | .fault r => .fault r
      | .refused r => .refused r
      | .next r => .next (returnedWord a s' ++ r.1, r.2)

/-- A host script played from a state: what it read, and the state it leaves (R90). -/
def playScript (lines : List ScriptLine) (s : State) : Host.Outcome (List Word × State) Fault Refusal :=
  serveAll (lines.map ScriptLine.access) s

end Sys2Proof.Machine
end

