-- ==== Sys2Proof/Safety.lean ====
section
/-!
DEFINITION. What counts as a safe run, and the invariants the spec gives the machine: the sizes (spec 00_scope.md R4), the
canonical form of the memories, the registers (10_state.md R56), the tree (R44) and the code table (R46, R132).
-/

namespace Sys2Proof

open Sys2Proof.Machine

/-- A step is safe when it answers a next state: the machine goes on (R237). -/
def SafeStep (s : State) : Prop := ∃ t, step s = .next t

/-- The parameters are in the range of R4. -/
abbrev SizesOk (s : State) : Prop :=
  ibufSizeWf s.ibufCap.toNat = true ∧ obufSizeWf s.obufCap.toNat = true

/-- Every memory is in its canonical form, with no index outside its space (R60). -/
abbrev MemoryOk (s : State) : Prop :=
  Memory.wf s.ibufCap.toNat s.ibuf ∧ Memory.wf s.obufCap.toNat s.obuf ∧
  tableWf (0 : Word) Config.symbols s.freq ∧ tableWf Node.emptyRecord Config.nodeSlots s.node ∧
  tableWf Code.noCode Config.symbols s.code

/-- The sum of all counts of a frequency table. -/
def countSum (t : List (Nat × Word)) : Nat := (t.map (fun c => c.2.toNat)).sum

/-- The register invariants 1 to 5 of R56. -/
abbrev RegistersOk (s : State) : Prop :=
  (s.status.outValid = false → s.outLen = 0) ∧
  (s.status.freqValid = false → s.nsym = 0) ∧
  (s.status.freqValid = true →
    s.nsym.toNat = (alphabet s.freq).length ∧ countSum s.freq ≤ s.ibufCap.toNat) ∧
  (s.status.treeValid = false → s.root = Root.zero ∧ s.status.degen = false) ∧
  (s.status.fault = false → s.errCode = 0 ∧ s.errInfo = 0) ∧
  (s.status.fault = true → 1 ≤ s.errCode.toNat ∧ s.errCode.toNat ≤ 8) ∧
  s.outLen.toNat ≤ s.obufCap.toNat

/-- The slots of the leaves of a tree. -/
def leafSlots (nodes : List (Nat × Node)) : List Nat :=
  (nodes.filter (fun c => decide (c.2.kind = .leaf))).map Prod.fst

/-- The slots of the internal nodes of a tree of N leaves (R44 item 2). -/
def internalSlots (n : Nat) : List Nat :=
  if n = 1 then [Config.symbols] else (List.range (n - 1)).map (Config.symbols + ·)

/-- The slot of the unused leaf, in a tree of one leaf (R44 item 2). -/
def unusedSlots (n : Nat) : List Nat := if n = 1 then [Config.unusedSlot] else []

/-- ROOT of a tree of N leaves (R44 item 2). -/
def rootOf (n : Nat) : Root :=
  if n = 0 then Root.zero
  else if n = 1 then { valid := true, idx := BitVec.ofNat 9 Config.symbols }
  else { valid := true, idx := BitVec.ofNat 9 (Config.symbols + n - 2) }

/-- The child slots of all internal nodes, one entry per edge. -/
def childSlots (nodes : List (Nat × Node)) : List Nat :=
  nodes.flatMap (fun c => if c.2.kind = .internal then [c.2.left.toNat, c.2.right.toNat] else [])

/-- What a record in a given slot is (R43, R44 items 4 and 5): a leaf holds its slot's symbol; an internal node has both
children below it or in the unused slot, and the sum of their weights; slot 511 holds the unused leaf. -/
abbrev NodeOk (nodes : List (Nat × Node)) (c : Nat × Node) : Prop :=
  (c.1 < Config.symbols → c.2.kind = .leaf ∧ c.2.sym.toNat = c.1 ∧ c.2.left = 0 ∧ c.2.right = 0) ∧
  (Config.symbols ≤ c.1 → c.1 < Config.unusedSlot →
    c.2.kind = .internal ∧ c.2.sym = 0 ∧
    (c.2.left.toNat < c.1 ∨ c.2.left.toNat = Config.unusedSlot) ∧
    (c.2.right.toNat < c.1 ∨ c.2.right.toNat = Config.unusedSlot) ∧
    c.2.weight.toNat = (nodeAt nodes c.2.left.toNat).weight.toNat + (nodeAt nodes c.2.right.toNat).weight.toNat) ∧
  (Config.unusedSlot ≤ c.1 → c.2 = unusedNode)

/-- The tree invariants of R44, for a NODE memory in canonical form. The slots listed are the leaves, then the internal
nodes, then the unused leaf, which is the right child of the root; every slot but the root's is the child of exactly one
internal node, and the root's of none. -/
abbrev TreeOk (nodes : List (Nat × Node)) (root : Root) : Prop :=
  nodes.map Prod.fst =
    leafSlots nodes ++ internalSlots (leafSlots nodes).length ++ unusedSlots (leafSlots nodes).length ∧
  (∀ c ∈ nodes, NodeOk nodes c) ∧
  root = rootOf (leafSlots nodes).length ∧
  ((leafSlots nodes).length = 1 → (nodeAt nodes Config.symbols).right.toNat = Config.unusedSlot) ∧
  (childSlots nodes).Nodup ∧
  (∀ c ∈ nodes, c.1 ∈ childSlots nodes ↔ c.1 ≠ root.idx.toNat) ∧
  (∀ k ∈ childSlots nodes, k ∈ nodes.map Prod.fst)

/-- The slot a bit string leads to from slot `n`, when every slot before the last is an internal node (R158). -/
def descend (nodes : List (Nat × Node)) (n : NodeIdx) (path : List Bool) : Option NodeIdx :=
  match path with
  | [] => some n
  | b :: rest =>
    if (nodeAt nodes n.toNat).kind = .internal then descend nodes (childOf (nodeAt nodes n.toNat) b) rest else none

/-- What a record of a valid code table is (R45, R46, R132): it has a code of 1 to 255 bits, zero beyond its length, which
leads from the root to the leaf of its symbol. -/
abbrev CodeRecordOk (nodes : List (Nat × Node)) (root : Root) (c : Nat × Code) : Prop :=
  c.2.valid = true ∧ 1 ≤ c.2.len.toNat ∧ c.2.bits.toNat < 2 ^ c.2.len.toNat ∧
  descend nodes root.idx c.2.sequence = some (BitVec.ofNat 9 c.1)

/-- The code-table invariants of R46, for a CODE memory in canonical form: exactly the leaves have a record. -/
abbrev CodeOk (nodes : List (Nat × Node)) (root : Root) (code : List (Nat × Code)) : Prop :=
  code.map Prod.fst = leafSlots nodes ∧ ∀ c ∈ code, CodeRecordOk nodes root c

/-- The codec state is what its valid flags say: the tree (R44, with DEGEN of R23) and the code table of that tree (R46,
R77). -/
abbrev CodecOk (s : State) : Prop :=
  (s.status.treeValid = true →
    TreeOk s.node s.root ∧ s.status.degen = degenOf (leafSlots s.node).length) ∧
  (s.status.codeValid = true → s.status.treeValid = true ∧ CodeOk s.node s.root s.code)

/-- The invariant of the machine. -/
abbrev Inv (s : State) : Prop := SizesOk s ∧ MemoryOk s ∧ RegistersOk s ∧ CodecOk s

end Sys2Proof
end

