-- ==== Sys2Proof/Vocabulary.lean ====
section
/-!
DEFINITION. The words the statements are written in, beside those of Safety.lean: the spec's own formulas for what a command
does (the Bit Sequence, the Packed Buffer, the walk, a merge) and the frames.
-/

namespace Sys2Proof.Claims

open Sys2Proof Sys2Proof.Machine

/-- The host's next access is the write of word `w` to CMD (R22). -/
def CommandPending (s : State) (w : Word) (rest : List Access) : Prop := s.port = Access.command w :: rest

/-- A word outside the opcode map (R83): a bit of 31:8 is set, or the opcode is 0x09 to 0xFF. -/
def IllegalWord (w : Word) : Prop := w.extractLsb' 8 24 ≠ 0 ∨ 9 ≤ (w.extractLsb' 0 8).toNat

/-- Every byte of IBUF and of OBUF reads as before. -/
def BuffersKept (s t : State) : Prop :=
  (∀ a, Memory.read? t.ibuf a = Memory.read? s.ibuf a) ∧ ∀ a, Memory.read? t.obuf a = Memory.read? s.obuf a

/-- FREQ, NODE and CODE hold what they held. -/
def TablesKept (s t : State) : Prop := t.freq = s.freq ∧ t.node = s.node ∧ t.code = s.code

/-- The exception registers: unless the command latched a fault, they are as before (R196). -/
def FaultRegistersKept (s t : State) : Prop :=
  t.status.fault = s.status.fault → t.errCode = s.errCode ∧ t.errInfo = s.errInfo

/-- The order of the priority collection (R114): lower weight first, among equal weights the lower slot. -/
def Before (nodes : List (Nat × Node)) (x y : Nat) : Prop :=
  (nodeAt nodes x).weight < (nodeAt nodes y).weight ∨
    ((nodeAt nodes x).weight = (nodeAt nodes y).weight ∧ x < y)

/-- The members of the priority collection before merge k (R111, R112): the leaves and the internal nodes of merges 0 to
k - 1, less the children of those merges. -/
def InCollection (nodes : List (Nat × Node)) (k x : Nat) : Prop :=
  ((x < 256 ∧ (nodeAt nodes x).kind = .leaf) ∨ (256 ≤ x ∧ x < 256 + k)) ∧
  ∀ j < k, (nodeAt nodes (256 + j)).left.toNat ≠ x ∧ (nodeAt nodes (256 + j)).right.toNat ≠ x

/-- Merge k as R112 and R114 describe it: left is the least member of the collection, right the least of the others, the
weight is the sum. -/
def MergeStep (nodes : List (Nat × Node)) (k : Nat) : Prop :=
  let n := nodeAt nodes (256 + k)
  n.kind = .internal ∧ n.sym = 0 ∧
  InCollection nodes k n.left.toNat ∧ InCollection nodes k n.right.toNat ∧ n.left ≠ n.right ∧
  (∀ x, InCollection nodes k x → x ≠ n.left.toNat → Before nodes n.left.toNat x) ∧
  (∀ x, InCollection nodes k x → x ≠ n.left.toNat → x ≠ n.right.toNat → Before nodes n.right.toNat x) ∧
  n.weight = (nodeAt nodes n.left.toNat).weight + (nodeAt nodes n.right.toNat).weight

/-- N: the number of symbols with a non-zero count (R101). -/
def symbolCount (t : List (Nat × Word)) : Nat := ((List.range 256).filter (fun x => decide (freqAt t x ≠ 0))).length

/-- The Bit Sequence of a buffer under a code table (R143): the codes of its bytes, in order. -/
def bitSequence (code : List (Nat × Code)) (bytes : List Byte) : List Bool :=
  bytes.flatMap (fun b => (codeAt code b.toNat).sequence)

/-- bit(t) of a Bit Sequence: b_t, and 0 beyond its end (R89). -/
def bitOr0 (bits : List Bool) (t : Nat) : Nat := (bits.getD t false).toNat

/-- P[k] of R89: the sum over i in 0..7 of bit(8k + i) << i. -/
def packedByte (bits : List Bool) (k : Nat) : Byte :=
  BitVec.ofNat 8 (((List.range 8).map (fun i => bitOr0 bits (8 * k + i) * 2 ^ i)).sum)

/-- ceil(n / 8). -/
def bytesFor (n : Nat) : Nat := (n + 7) / 8

/-- Every byte of the input has a code (R144). -/
def AllCoded (s : State) : Prop := ∀ b ∈ inputBytes s, (codeAt s.code b.toNat).valid = true

/-- What the walk of R158 and R159 emits on a bit sequence, starting at `cur`, and where it ends; none when it meets the
unused leaf. -/
def decodeBits (nodes : List (Nat × Node)) (root cur : NodeIdx) (bits : List Bool) : Option (List Byte × NodeIdx) :=
  match bits with
  | [] => some ([], cur)
  | b :: rest =>
    let child := childOf (nodeAt nodes cur.toNat) b
    match (nodeAt nodes child.toNat).kind with
    | .leaf => (decodeBits nodes root root rest).map (fun r => ((nodeAt nodes child.toNat).sym :: r.1, r.2))
    | .unused => none
    | .internal => decodeBits nodes root child rest
    | .empty => decodeBits nodes root child rest

/-- Bit T of the packed input (R157): position T mod 8 of IBUF[T div 8]. -/
def packedInput (s : State) (n : Nat) : List Bool :=
  (List.range n).map (fun t => (ibufByte s (t / 8)).getLsbD (t % 8))

/-- NBITS (R156). -/
def walkLength (s : State) : Nat := if s.lenEn then s.decBitLen.toNat else 8 * s.inLen.toNat

/-- The conditions under which UNPACK starts its walk (R155): no fault latched, a tree, input in range, a length in range,
and something to walk on if there are bits. -/
def WalkStarts (s : State) : Prop :=
  s.status.fault = false ∧ s.status.treeValid = true ∧ s.inLen.toNat ≤ s.ibufCap.toNat ∧
  (s.lenEn = true → s.decBitLen.toNat ≤ 8 * s.inLen.toNat) ∧ (walkLength s = 0 ∨ s.root.valid = true)

/-- OBUF[0 .. OUT_LEN-1], as a list. -/
def outputBytes (s : State) : List (Option Byte) := (List.range s.outLen.toNat).map (Memory.read? s.obuf)

/-- The state of an UNPACK that faulted (R155): no output, no cursor, the fault latched, nothing else but OBUF changed. -/
def UnpackFaulted (s t : State) (code : Byte) (info : Word) : Prop :=
  t = { s with
        obuf := t.obuf, outLen := 0, decCur := 0, errCode := code, errInfo := info
        status := { s.status with outValid := false, decPartial := false, fault := true } }

/-- `u` is a core that holds the tree of `s`, has the packed output of `t` as its input, and room for `n` bytes of output,
with no fault latched. -/
def ReadyToDecode (s t u : State) (n : Nat) : Prop :=
  u.status.fault = false ∧ u.status.treeValid = true ∧ u.node = s.node ∧ u.root = s.root ∧
  u.inLen = t.outLen ∧ t.outLen.toNat ≤ u.ibufCap.toNat ∧ n ≤ u.obufCap.toNat ∧
  ∀ k < t.outLen.toNat, Memory.read? t.obuf k = some (ibufByte u k)

/-- Commands run one after another, up to the first stop. -/
def execAll (is : List Instr) (s : State) : Host.Outcome State Fault Refusal :=
  match is with
  | [] => .next s
  | i :: rest =>
    match exec i s with
    | .next t => execAll rest t
    | .fault r => .fault r
    | .refused r => .refused r

/-- The code table COMPRESS makes of the input: that of the tree of its frequency table (R173). -/
def inputCode (s : State) : List (Nat × Code) :=
  let tree := treeOf (frequencyTable (inputBytes s))
  (codeTable tree.1 tree.2).getD []

/-- The Bit Sequence of the input under that code table (R143, R173). -/
def compressedBits (s : State) : List Bool := bitSequence (inputCode s) (inputBytes s)

/-- COMPRESS up to its PACK stage: the clears, then FREQ, BUILD and GENCODE (R173). -/
def beforePackStage (s : State) : Run State :=
  runThen (freqBody (clearCodec (clearPack s))) (fun s => runThen (buildBody s) gencodeBody)

/-- Where the sequential output of a packing run stood when it ended: OPTR. -/
def packedCount (r : Run Packer) : Nat :=
  match r with
  | .ok p => p.sink.optr
  | .raised _ _ p => p.sink.optr
  | .stopped _ => 0

/-- Where the sequential output of a COMPRESS stood when it ended: the OPTR of its PACK stage, 0 when it is gated or ends
before that stage. -/
def compressedCount (s : State) : Nat :=
  if s.status.fault then 0
  else
    match beforePackStage s with
    | .ok u => packedCount (packRun (clearPack u))
    | .raised _ _ _ => 0
    | .stopped _ => 0

/-- Where the sequential output of a walk stood when it ended: OPTR. -/
def walkedCount (r : Run Walker) : Nat :=
  match r with
  | .ok w => w.sink.optr
  | .raised _ _ w => w.sink.optr
  | .stopped _ => 0

end Sys2Proof.Claims
end

