-- ==== Sys2Proof/Certificates/Slice0/Obligations.lean ====
section
/-!
DEFINITION. The statements for the provers. Each formalises a rule of the spec, named in its docstring; "derived" in a
docstring marks a statement that rests on a reading or on a choice of the model.
-/

open Sys2Proof Sys2Proof.Machine Sys2Proof.Claims

/-! ### Encoding -/

/-- R81 (derived): a few words of the opcode map, and the three illegal words of vectors V-X1 to V-X3. -/
def Obligations.SampleWordsDecode : Prop :=
  decode 0x00000000 = .ok .nop ∧ decode 0x00000001 = .ok .rst ∧ decode 0x00000002 = .ok .freq ∧
  decode 0x00000005 = .ok .pack ∧ decode 0x00000008 = .ok .discard ∧
  decode 0x00000009 = .error .reservedOpcode ∧ decode 0x00000105 = .error .zeroFieldSet ∧
  decode 0x80000000 = .error .zeroFieldSet

/-- R81: the decoder answers a command on exactly one word, the one of the opcode map, which the encoder gives. -/
def Obligations.DecodeIsTheInverseOfEncode : Prop :=
  (∀ (w : Word) (i : Instr), decode w = .ok i ↔ w = encode i) ∧
  encode .nop = 0x00000000 ∧ encode .rst = 0x00000001 ∧ encode .freq = 0x00000002 ∧ encode .build = 0x00000003 ∧
  encode .gencode = 0x00000004 ∧ encode .pack = 0x00000005 ∧ encode .unpack = 0x00000006 ∧
  encode .compress = 0x00000007 ∧ encode .discard = 0x00000008

/-- R83, R84 (derived: the two names of a rejection are the model's): which words are rejected, and under which name. -/
def Obligations.IllegalWordsAreRejectedByName : Prop :=
  ∀ w : Word,
    (w.extractLsb' 8 24 ≠ 0 → decode w = .error .zeroFieldSet) ∧
    (w.extractLsb' 8 24 = 0 → 9 ≤ (w.extractLsb' 0 8).toNat → decode w = .error .reservedOpcode) ∧
    (w.extractLsb' 8 24 = 0 → (w.extractLsb' 0 8).toNat ≤ 8 → ∃ i, decode w = .ok i)

/-! ### The host port -/

/-- R22 (derived: the pending access is the model's form of the host, log entry 1): a write of a command word to CMD runs
the command it encodes, on the state whose next access is the one after it. -/
def Obligations.StepRunsTheDecodedCommand : Prop :=
  ∀ (s : State) (w : Word) (i : Instr) (rest : List Access),
    CommandPending s w rest → decode w = .ok i → i.wf = true → step s = exec i { s with port := rest }

/-- R212 (derived; log entry 2): with no access pending the core is idle and keeps all state. -/
def Obligations.IdleCoreKeepsAllState : Prop := ∀ s : State, s.port = [] → step s = .next s

/-- R187: a command word with a non-zero bit in 31:8 or an opcode 0x09 to 0xFF raises ILLEGAL_CMD when no fault is
latched: ERR.CODE 1, ERR_INFO the word, FAULT; nothing else changes. -/
def Obligations.IllegalCommandIsLatched : Prop :=
  ∀ (s : State) (w : Word) (rest : List Access),
    CommandPending s w rest → IllegalWord w → s.status.fault = false →
    step s = .next { s with
      port := rest, errCode := 1, errInfo := w, status := { s.status with fault := true } }

/-- R197: while FAULT = 1 every CMD write but exactly 0x00000001 is ignored, and the other accesses are still served. -/
def Obligations.FaultGateIgnoresEveryCommandButRst : Prop :=
  ∀ (s : State) (rest : List Access), s.status.fault = true →
    (∀ w : Word, CommandPending s w rest → w ≠ 0x00000001 → step s = .next { s with port := rest }) ∧
    (∀ (sp : Space) (idx : Word), s.port = .read sp idx :: rest →
      ∃ t, step s = .next t ∧ t.readData = some (memRead sp idx.toNat s)) ∧
    (∀ v : Word, s.port = .write .reg 2 v :: rest → step s = .next { s with port := rest, lenEn := v.getLsbD 0 }) ∧
    (∀ v : Word, s.port = .write .reg 3 v :: rest → step s = .next { s with port := rest, inLen := v }) ∧
    (∀ v : Word, s.port = .write .reg 6 v :: rest → step s = .next { s with port := rest, decBitLen := v }) ∧
    (∀ (idx v : Word), s.port = .write .ibuf idx v :: rest → idx.toNat < s.ibufCap.toNat →
      ∃ t, step s = .next t ∧ Memory.read? t.ibuf idx.toNat = some (v.setWidth 8))

/-- R62: what each host write does. A write to CMD runs the command (R22); CTRL keeps bit 0, IN_LEN and DEC_BITLEN the whole
word, IBUF bits 7:0; every other write has no effect. -/
def Obligations.HostWritesDoWhatTheyMay : Prop :=
  ∀ (s : State) (sp : Space) (idx v : Word) (rest : List Access), s.port = .write sp idx v :: rest →
    (sp = .reg → idx = 0 →
      (∀ i, decode v = .ok i → step s = exec i { s with port := rest }) ∧
      (IllegalWord v → s.status.fault = false → ∃ t, step s = .next t ∧ t.status.fault = true ∧ t.errCode = 1)) ∧
    (sp = .reg → idx = 2 → step s = .next { s with port := rest, lenEn := v.getLsbD 0 }) ∧
    (sp = .reg → idx = 3 → step s = .next { s with port := rest, inLen := v }) ∧
    (sp = .reg → idx = 6 → step s = .next { s with port := rest, decBitLen := v }) ∧
    (sp = .ibuf → idx.toNat < s.ibufCap.toNat →
      ∃ m, step s = .next { s with port := rest, ibuf := m } ∧
        ∀ a, Memory.read? m a = if a = idx.toNat then some (v.setWidth 8) else Memory.read? s.ibuf a) ∧
    ((sp = .reg ∧ idx ≠ 0 ∧ idx ≠ 2 ∧ idx ≠ 3 ∧ idx ≠ 6) ∨ (sp = .ibuf ∧ s.ibufCap.toNat ≤ idx.toNat) ∨
      (sp ≠ .reg ∧ sp ≠ .ibuf) → step s = .next { s with port := rest })

/-- R61 (derived: the number of the next read, log entry 5, and the field that keeps the word read, log entry 8, are the
model's own): what each host read returns, where the content is specified, and that it changes no state of the core. -/
def Obligations.HostReadsReturnTheElement : Prop :=
  ∀ (s : State) (sp : Space) (idx : Word) (rest : List Access), s.port = .read sp idx :: rest →
    ∃ v : Word,
      step s = .next { s with port := rest, readData := some v, fresh := s.fresh + 1 } ∧
      (sp = .reg → v = regWord s idx.toNat) ∧
      (sp = .ibuf → v = if idx.toNat < s.ibufCap.toNat then (ibufByte s idx.toNat).setWidth 32 else 0) ∧
      (sp = .obuf → s.obufCap.toNat ≤ idx.toNat → v = 0) ∧
      (sp = .obuf → idx.toNat < s.obufCap.toNat → s.status.outValid = true → idx.toNat < s.outLen.toNat →
        ∀ b, Memory.read? s.obuf idx.toNat = some b → v = b.setWidth 32) ∧
      (sp = .freq → 256 ≤ idx.toNat → v = 0) ∧
      (sp = .freq → idx.toNat < 256 → s.status.freqValid = true → v = freqAt s.freq idx.toNat) ∧
      (sp = .nodea ∨ sp = .nodew → 512 ≤ idx.toNat → v = 0) ∧
      (sp = .nodea → idx.toNat < 512 → s.status.treeValid = true → v = nodeaWord (nodeAt s.node idx.toNat)) ∧
      (sp = .nodew → idx.toNat < 512 → s.status.treeValid = true → v = (nodeAt s.node idx.toNat).weight) ∧
      (sp = .codel → 256 ≤ idx.toNat → v = 0) ∧
      (sp = .codel → idx.toNat < 256 → s.status.codeValid = true → v = codelWord (codeAt s.code idx.toNat)) ∧
      (sp = .codeb → 2048 ≤ idx.toNat → v = 0) ∧
      (sp = .codeb → idx.toNat < 2048 → s.status.codeValid = true →
        v = codebWord (codeAt s.code (idx.toNat / 8)) (idx.toNat % 8))

/-- R21, R23, R25, R33, R34, R36, R38 (derived): the words the registers read as; CMD and every reserved index and bit read
0. -/
def Obligations.RegisterWordsReadAsLaidOut : Prop :=
  ∀ s : State,
    regWord s 0 = 0 ∧ (∀ n, 14 ≤ n → regWord s n = 0) ∧
    (∀ k < 32, (regWord s 1).getLsbD k =
      match k with
      | 0 => s.status.freqValid
      | 1 => s.status.treeValid
      | 2 => s.status.codeValid
      | 3 => s.status.outValid
      | 4 => s.status.degen
      | 5 => s.status.decPartial
      | 6 => s.status.fault
      | _ => false) ∧
    (∀ k < 32, (regWord s 2).getLsbD k = (decide (k = 0) && s.lenEn)) ∧
    regWord s 3 = s.inLen ∧ regWord s 4 = s.outLen ∧ regWord s 5 = s.bitLen ∧ regWord s 6 = s.decBitLen ∧
    regWord s 7 = s.nsym ∧
    (∀ k < 32, (regWord s 8).getLsbD k = if k = 31 then s.root.valid else s.root.idx.getLsbD k) ∧
    (regWord s 9).toNat = s.errCode.toNat ∧ regWord s 10 = s.errInfo ∧ (regWord s 11).toNat = s.decCur.toNat ∧
    regWord s 12 = s.ibufCap ∧ regWord s 13 = s.obufCap

/-- R85, R86 (derived): the fields of the table words. -/
def Obligations.TableWordsAreLaidOut : Prop :=
  (∀ n : Node,
    (nodeaWord n).extractLsb' 0 2 = n.kind.number ∧ (nodeaWord n).extractLsb' 2 8 = n.sym ∧
    (nodeaWord n).extractLsb' 10 9 = n.left ∧ (nodeaWord n).extractLsb' 19 9 = n.right ∧
    (nodeaWord n).extractLsb' 28 4 = 0 ∧ nodewWord n = n.weight) ∧
  (∀ c : Code,
    (codelWord c).extractLsb' 0 8 = c.len ∧ (codelWord c).extractLsb' 8 23 = 0 ∧
    (codelWord c).getLsbD 31 = c.valid ∧
    ∀ w < 8, ∀ j < 32, (codebWord c w).getLsbD j = c.bits.getLsbD (32 * w + j))

/-- R63 (derived: R63 also gives reasons): the host cannot change OBUF, FREQ, NODE, CODE, or what is kept beside them, by
any write but a command. -/
def Obligations.HostCannotWriteTheTables : Prop :=
  ∀ (s t : State) (sp : Space) (idx v : Word) (rest : List Access),
    s.port = .write sp idx v :: rest → ¬(sp = .reg ∧ idx = 0) → step s = .next t →
    t.obuf = s.obuf ∧ TablesKept s t ∧ t.root = s.root ∧ t.nsym = s.nsym ∧ t.status = s.status ∧
    t.outLen = s.outLen ∧ t.bitLen = s.bitLen ∧ t.decCur = s.decCur ∧ t.errCode = s.errCode ∧ t.errInfo = s.errInfo

/-! ### Reset -/

/-- R55, R216 (derived: the sizes are the defaults of R4, log entry 3): the registers after reset. -/
def Obligations.ResetRegisters : Prop :=
  State.reset.status.word = 0 ∧ State.reset.lenEn = false ∧ State.reset.inLen = 0 ∧ State.reset.outLen = 0 ∧
  State.reset.bitLen = 0 ∧ State.reset.decBitLen = 0 ∧ State.reset.nsym = 0 ∧ State.reset.root.word = 0 ∧
  State.reset.errCode = 0 ∧ State.reset.errInfo = 0 ∧ State.reset.decCur = 0 ∧
  State.reset.ibufCap = 4096 ∧ State.reset.obufCap = 32768

/-- R215, R217 (derived; log entry 7): a hardware reset gives every register the value RST gives it, from any state. -/
def Obligations.HardwareResetAgreesWithRst : Prop :=
  ∀ (s : State) (rest : List Access), s.port = .reset :: rest →
    ∃ t u, step s = .next t ∧ exec .rst s = .next u ∧
      (∀ n, regWord t n = regWord u n) ∧ t.port = rest ∧ ∀ a, Memory.read? t.ibuf a = none

/-- R171 (derived: the accesses to come, log entry 1, and the number of resets, log entry 7, are the model's own): RST zeroes
every register in every state, faulted or not, and leaves IBUF and OBUF; the capacities are constants. -/
def Obligations.RstZeroesEveryRegister : Prop :=
  ∀ s : State, ∃ t, exec .rst s = .next t ∧
    (∀ n, n ≠ 12 → n ≠ 13 → regWord t n = 0) ∧ t.ibufCap = s.ibufCap ∧ t.obufCap = s.obufCap ∧
    t.status.freqValid = false ∧ t.status.treeValid = false ∧ t.status.codeValid = false ∧ BuffersKept s t ∧
    t.port = s.port ∧ t.epoch = s.epoch

/-! ### NOP and DISCARD -/

/-- R170: NOP leaves every state as it is. -/
def Obligations.NopLeavesEveryStateAsItIs : Prop := ∀ s : State, exec .nop s = .next s

/-- R172 (derived: that the raw contents of FREQ, NODE and CODE stay as they are is log entry 21; R172 calls them unspecified
to the host): DISCARD clears the codec state and keeps the output; while FAULT = 1 it does nothing. -/
def Obligations.DiscardClearsTheCodecState : Prop :=
  ∀ s : State,
    (s.status.fault = true → exec .discard s = .next s) ∧
    (s.status.fault = false →
      ∃ t, exec .discard s = .next t ∧
        t = { s with
              nsym := 0, root := { valid := false, idx := 0 }
              status := { s.status with freqValid := false, treeValid := false, codeValid := false, degen := false } } ∧
        BuffersKept s t ∧ TablesKept s t)

/-! ### FREQ -/

/-- R101 (derived: the spec marks this law as derived from R100): what a successful FREQ leaves, with its frame: the counts,
their sum, NSYM, FREQ_VALID, and nothing else. -/
def Obligations.FreqCountsEveryByte : Prop :=
  ∀ s : State, s.status.fault = false → s.inLen.toNat ≤ s.ibufCap.toNat →
    ∃ t, exec .freq s = .next t ∧
      (∀ x < 256, (freqAt t.freq x).toNat =
        ((List.range s.inLen.toNat).filter (fun i => decide ((ibufByte s i).toNat = x))).length) ∧
      ((List.range 256).map (fun x => (freqAt t.freq x).toNat)).sum = s.inLen.toNat ∧
      (t.nsym = 0 ↔ s.inLen = 0) ∧
      (∀ x < 256, freqAt t.freq x ≠ 0 ↔ ∃ i < s.inLen.toNat, (ibufByte s i).toNat = x) ∧
      t.nsym.toNat = symbolCount t.freq ∧
      t = { s with freq := t.freq, nsym := t.nsym, status := { s.status with freqValid := true } }

/-- R102 (derived): FREQ is a function of IN_LEN and the input bytes: two cores of the same sizes that agree on those get
the same table, whatever else they hold. -/
def Obligations.FreqDependsOnTheInputAlone : Prop :=
  ∀ s s' : State, s.status.fault = false → s'.status.fault = false → s.inLen = s'.inLen → s.ibufCap = s'.ibufCap →
    s.inLen.toNat ≤ s.ibufCap.toNat → (∀ i < s.inLen.toNat, ibufByte s i = ibufByte s' i) →
    ∃ t t', exec .freq s = .next t ∧ exec .freq s' = .next t' ∧ t.freq = t'.freq ∧ t.nsym = t'.nsym

/-! ### BUILD -/

/-- R116 (derived: log entry 14 gives the tables their lists): an empty frequency table builds the empty tree, without a
fault: every slot EMPTY, ROOT 0, TREE_VALID and DEGEN set. -/
def Obligations.BuildOfAnEmptyTable : Prop :=
  ∀ s : State, s.status.fault = false → s.status.freqValid = true → (∀ x < 256, freqAt s.freq x = 0) →
    ∃ t, exec .build s = .next t ∧
      (∀ i, nodeAt t.node i = { kind := .empty, sym := 0, weight := 0, left := 0, right := 0 }) ∧
      t = { s with
            node := t.node, root := { valid := false, idx := 0 }
            status := { s.status with treeValid := true, codeValid := false, degen := true } }

/-- R115 (derived: R115 also speaks of the code and of decoding): one symbol x gives the synthetic root in slot 256 over the
leaf of x and the unused leaf in slot 511. -/
def Obligations.BuildOfASingleSymbol : Prop :=
  ∀ (s : State) (x : Nat), s.status.fault = false → s.status.freqValid = true → x < 256 → freqAt s.freq x ≠ 0 →
    (∀ y < 256, y ≠ x → freqAt s.freq y = 0) →
    ∃ t, exec .build s = .next t ∧
      nodeAt t.node x = { kind := .leaf, sym := BitVec.ofNat 8 x, weight := freqAt s.freq x, left := 0, right := 0 } ∧
      nodeAt t.node 256 =
        { kind := .internal, sym := 0, weight := freqAt s.freq x, left := BitVec.ofNat 9 x, right := 511 } ∧
      nodeAt t.node 511 = { kind := .unused, sym := 0, weight := 0, left := 0, right := 0 } ∧
      (∀ i, i ≠ x → i ≠ 256 → i ≠ 511 → (nodeAt t.node i).kind = .empty) ∧
      t = { s with
            node := t.node, root := { valid := true, idx := 256 }
            status := { s.status with treeValid := true, codeValid := false, degen := true } }

/-- R111, R112, R114 (derived: R114 also gives reasons): for N ≥ 2 symbols, the leaves in their slots, then N - 1 merges,
each of the two least members of the collection by (weight, index), first removed left; the root is the last. -/
def Obligations.BuildMergesTheTwoLightest : Prop :=
  ∀ s : State, s.status.fault = false → s.status.freqValid = true → 2 ≤ symbolCount s.freq →
    ∃ t, exec .build s = .next t ∧
      (∀ x < 256, nodeAt t.node x =
        if freqAt s.freq x = 0 then { kind := .empty, sym := 0, weight := 0, left := 0, right := 0 }
        else { kind := .leaf, sym := BitVec.ofNat 8 x, weight := freqAt s.freq x, left := 0, right := 0 }) ∧
      (∀ k < symbolCount s.freq - 1, MergeStep t.node k) ∧
      (∀ i, 256 + (symbolCount s.freq - 1) ≤ i →
        nodeAt t.node i = { kind := .empty, sym := 0, weight := 0, left := 0, right := 0 }) ∧
      t = { s with
            node := t.node, root := { valid := true, idx := BitVec.ofNat 9 (256 + symbolCount s.freq - 2) }
            status := { s.status with treeValid := true, codeValid := false, degen := false } }

/-- R114, R223 (derived): the tree is a function of the frequency table alone. -/
def Obligations.BuildDependsOnTheTableAlone : Prop :=
  ∀ s s' : State, s.status.fault = false → s'.status.fault = false → s.status.freqValid = true →
    s'.status.freqValid = true → (∀ x < 256, freqAt s.freq x = freqAt s'.freq x) →
    ∃ t t', exec .build s = .next t ∧ exec .build s' = .next t' ∧
      (∀ i, nodeAt t.node i = nodeAt t'.node i) ∧ t.root = t'.root ∧ t.status.degen = t'.status.degen

/-! ### GENCODE -/

/-- R130, R131, R132 (derived: "the tree is one that BUILD makes" is said by the invariant of R44): every leaf's symbol gets
the code that leads to it from the root, 1 to 255 bits, zero beyond; no other symbol gets one; nothing else changes. -/
def Obligations.GencodeRecordsTheRootPaths : Prop :=
  ∀ s : State, s.status.fault = false → s.status.treeValid = true →
    tableWf Node.emptyRecord Config.nodeSlots s.node → TreeOk s.node s.root →
    ∃ t, exec .gencode s = .next t ∧
      (∀ x < 256, (nodeAt s.node x).kind = .leaf →
        let c := codeAt t.code x
        c.valid = true ∧ 1 ≤ c.len.toNat ∧ c.len.toNat ≤ 255 ∧
        descend s.node s.root.idx c.sequence = some (BitVec.ofNat 9 x) ∧
        ∀ j, c.len.toNat ≤ j → c.bits.getLsbD j = false) ∧
      (∀ x < 256, (nodeAt s.node x).kind ≠ .leaf → codeAt t.code x = { valid := false, len := 0, bits := 0 }) ∧
      t = { s with code := t.code, status := { s.status with codeValid := true } }

/-- R46 (derived: the spec marks it as derived from R130 to R132): in every state of the invariant whose code table is
valid, exactly the symbols of leaves have a code, every code has at least one bit, and no code is a prefix of another. -/
def Obligations.NoCodeBeginsAnother : Prop :=
  ∀ s : State, Inv s → s.status.codeValid = true →
    (∀ x < 256, (codeAt s.code x).valid = true ↔ (nodeAt s.node x).kind = .leaf) ∧
    (∀ x < 256, (codeAt s.code x).valid = true → 1 ≤ (codeAt s.code x).len.toNat) ∧
    ∀ x < 256, ∀ y < 256, x ≠ y → (codeAt s.code x).valid = true → (codeAt s.code y).valid = true →
      ¬ (codeAt s.code x).sequence <+: (codeAt s.code y).sequence

/-! ### PACK -/

/-- R89, R140, R143 (derived: R143 also speaks of the tree): a successful PACK writes the Packed Buffer of the Bit Sequence
of the input, BITLEN and OUT_LEN, and nothing else. -/
def Obligations.PackWritesThePackedBuffer : Prop :=
  ∀ s : State, SizesOk s → s.status.fault = false → s.status.codeValid = true → s.inLen.toNat ≤ s.ibufCap.toNat →
    AllCoded s → bytesFor (bitSequence s.code (inputBytes s)).length ≤ s.obufCap.toNat →
    ∃ t, exec .pack s = .next t ∧
      t.bitLen.toNat = ((inputBytes s).map (fun b => (codeAt s.code b.toNat).len.toNat)).sum ∧
      t.outLen.toNat = bytesFor t.bitLen.toNat ∧
      (∀ a, Memory.read? t.obuf a =
        if a < bytesFor t.bitLen.toNat then some (packedByte (bitSequence s.code (inputBytes s)) a)
        else Memory.read? s.obuf a) ∧
      t = { s with
            obuf := t.obuf, outLen := t.outLen, bitLen := t.bitLen, status := { s.status with outValid := true } }

/-- R192, R199 (derived: R192 also speaks of COMPRESS): PACK stops at the first input byte with no code, with its index,
when what comes before it fits. -/
def Obligations.PackStopsAtAByteWithNoCode : Prop :=
  ∀ (s : State) (i : Nat), s.status.fault = false → s.status.codeValid = true → s.inLen.toNat ≤ s.ibufCap.toNat →
    i < s.inLen.toNat → (codeAt s.code (ibufByte s i).toNat).valid = false →
    (∀ j < i, (codeAt s.code (ibufByte s j).toNat).valid = true) →
    (bitSequence s.code ((inputBytes s).take i)).length / 8 ≤ s.obufCap.toNat →
    ∃ t, exec .pack s = .next t ∧
      t = { s with
            obuf := t.obuf, outLen := 0, bitLen := 0, errCode := 5, errInfo := BitVec.ofNat 32 i
            status := { s.status with outValid := false, fault := true } }

/-- R191, R199 for PACK (derived: R191 also names UNPACK and COMPRESS): PACK raises OUT_OVERFLOW with ERR_INFO = OBUF_SIZE,
and no output, when the codes of the first i bytes alone complete more bytes than OBUF holds, whatever the bytes after them
(a later one may have no code), or when all bytes have a code and the packed bytes with the last, padded one do not fit. -/
def Obligations.PackOverflowsAFullBuffer : Prop :=
  ∀ (s : State) (i : Nat), s.status.fault = false → s.status.codeValid = true → s.inLen.toNat ≤ s.ibufCap.toNat →
    i ≤ s.inLen.toNat → (∀ j < i, (codeAt s.code (ibufByte s j).toNat).valid = true) →
    s.obufCap.toNat < (bitSequence s.code ((inputBytes s).take i)).length / 8 ∨
      (i = s.inLen.toNat ∧ s.obufCap.toNat < bytesFor (bitSequence s.code (inputBytes s)).length) →
    ∃ t, exec .pack s = .next t ∧
      t = { s with
            obuf := t.obuf, outLen := 0, bitLen := 0, errCode := 4, errInfo := s.obufCap
            status := { s.status with outValid := false, fault := true } }

/-! ### UNPACK -/

/-- R155, R156, R158, R159, R160 (derived: these rules also give reasons): a successful UNPACK writes the symbols the walk
emits, OUT_LEN their number, DEC_CUR the slot the walk ends in, DEC_PARTIAL whether that is not the root, and nothing else. -/
def Obligations.UnpackEmitsTheWalkedSymbols : Prop :=
  ∀ (s : State) (out : List Byte) (cur : NodeIdx), WalkStarts s →
    decodeBits s.node s.root.idx s.root.idx (packedInput s (walkLength s)) = some (out, cur) →
    out.length ≤ s.obufCap.toNat →
    ∃ t, exec .unpack s = .next t ∧
      t.outLen.toNat = out.length ∧
      (∀ a, Memory.read? t.obuf a = if a < out.length then out[a]? else Memory.read? s.obuf a) ∧
      t = { s with
            obuf := t.obuf, outLen := t.outLen, decCur := cur
            status := { s.status with outValid := true, decPartial := decide (cur ≠ s.root.idx) } }

/-- R193: a bit T that leads to the unused leaf raises UNUSED_LEAF(T), when what was emitted before it fits. -/
def Obligations.UnpackFaultsOnTheUnusedLeaf : Prop :=
  ∀ (s : State) (n : Nat) (out : List Byte) (cur : NodeIdx), WalkStarts s → n < walkLength s →
    decodeBits s.node s.root.idx s.root.idx (packedInput s n) = some (out, cur) → out.length ≤ s.obufCap.toNat →
    (nodeAt s.node (childOf (nodeAt s.node cur.toNat) ((ibufByte s (n / 8)).getLsbD (n % 8))).toNat).kind = .unused →
    ∃ t, exec .unpack s = .next t ∧ UnpackFaulted s t 6 (BitVec.ofNat 32 n)

/-- R191 for UNPACK (derived): a bit that reaches a leaf when OBUF_SIZE symbols have been emitted raises OUT_OVERFLOW with
ERR_INFO = OBUF_SIZE. -/
def Obligations.UnpackOverflowsAFullBuffer : Prop :=
  ∀ (s : State) (n : Nat) (out : List Byte) (cur : NodeIdx), WalkStarts s → n < walkLength s →
    decodeBits s.node s.root.idx s.root.idx (packedInput s n) = some (out, cur) → out.length = s.obufCap.toNat →
    (nodeAt s.node (childOf (nodeAt s.node cur.toNat) ((ibufByte s (n / 8)).getLsbD (n % 8))).toNat).kind = .leaf →
    ∃ t, exec .unpack s = .next t ∧ UnpackFaulted s t 4 s.obufCap

/-- R194: bits to walk and no root raise EMPTY_TREE(NBITS). -/
def Obligations.UnpackFaultsOnTheEmptyTree : Prop :=
  ∀ s : State, s.status.fault = false → s.status.treeValid = true → s.inLen.toNat ≤ s.ibufCap.toNat →
    (s.lenEn = true → s.decBitLen.toNat ≤ 8 * s.inLen.toNat) → 0 < walkLength s → s.root.valid = false →
    ∃ t, exec .unpack s = .next t ∧ t.obuf = s.obuf ∧ UnpackFaulted s t 7 (BitVec.ofNat 32 (walkLength s))

/-- R195: in length mode more bits than the input holds raise LEN_RANGE(DEC_BITLEN), after the IN_RANGE check and whatever
the tree. -/
def Obligations.UnpackFaultsOnTooManyBits : Prop :=
  ∀ s : State, s.status.fault = false → s.status.treeValid = true → s.inLen.toNat ≤ s.ibufCap.toNat →
    s.lenEn = true → 8 * s.inLen.toNat < s.decBitLen.toNat →
    ∃ t, exec .unpack s = .next t ∧ t.obuf = s.obuf ∧ UnpackFaulted s t 8 s.decBitLen

/-- Conflict C7 and R155 (derived): UNPACK reads the tree and the input, not the code table, the frequency table, or what
OBUF held: two cores that agree on what it reads emit the same symbols. -/
def Obligations.UnpackReadsOnlyTheTreeAndTheInput : Prop :=
  ∀ s s' t : State, WalkStarts s → s'.status.fault = false → s'.status.treeValid = true → s'.inLen = s.inLen →
    s'.ibufCap = s.ibufCap → s'.obufCap = s.obufCap → s'.lenEn = s.lenEn → s'.decBitLen = s.decBitLen →
    s'.root = s.root → s'.node = s.node → (∀ i < s.inLen.toNat, ibufByte s' i = ibufByte s i) →
    exec .unpack s = .next t →
    ∃ t', exec .unpack s' = .next t' ∧ t'.status.fault = t.status.fault ∧ outputBytes t' = outputBytes t ∧
      t'.decCur = t.decCur ∧ t'.status.decPartial = t.status.decPartial ∧ t'.status.outValid = t.status.outValid

/-! ### COMPRESS -/

/-- R173 (derived: R173 also lists faults and flags): COMPRESS without a fault is DISCARD, FREQ, BUILD, GENCODE, PACK one by
one without a fault, in every register and memory. -/
def Obligations.CompressIsTheFiveCommands : Prop :=
  ∀ s t : State, s.status.fault = false → t.status.fault = false →
    (exec .compress s = .next t ↔ execAll [.discard, .freq, .build, .gencode, .pack] s = .next t)

/-- R173, R143 (derived: what is packed is computed by the model's own tree and code table of the input): COMPRESS completes
from any state with no fault latched, IN_LEN in range, and room for the packed bytes: all four valid flags, DEGEN for N ≤ 1, the
counts and the code table of the input, the Packed Buffer of its Bit Sequence, BITLEN, OUT_LEN = ceil(BITLEN / 8); DEC_PARTIAL,
DEC_CUR, CTRL, IN_LEN, DEC_BITLEN and IBUF as before. -/
def Obligations.CompressCompletes : Prop :=
  ∀ s : State, SizesOk s → s.status.fault = false → s.inLen.toNat ≤ s.ibufCap.toNat →
    bytesFor (compressedBits s).length ≤ s.obufCap.toNat →
    ∃ t, exec .compress s = .next t ∧
      t.status = { s.status with
        freqValid := true, treeValid := true, codeValid := true, outValid := true
        degen := decide (symbolCount t.freq ≤ 1) } ∧
      t.nsym.toNat = symbolCount t.freq ∧ t.code = inputCode s ∧
      t.bitLen.toNat = (compressedBits s).length ∧ t.outLen.toNat = bytesFor t.bitLen.toNat ∧
      (∀ x < 256, (freqAt t.freq x).toNat =
        ((List.range s.inLen.toNat).filter (fun i => decide ((ibufByte s i).toNat = x))).length) ∧
      (∀ a, Memory.read? t.obuf a =
        if a < t.outLen.toNat then some (packedByte (compressedBits s) a) else Memory.read? s.obuf a) ∧
      t = { s with
            freq := t.freq, node := t.node, code := t.code, obuf := t.obuf, nsym := t.nsym, root := t.root
            outLen := t.outLen, bitLen := t.bitLen, status := t.status }

/-- R173 (derived): COMPRESS raises only IN_RANGE, with nothing valid, or OUT_OVERFLOW, with all three tables valid; the
output is absent in both. -/
def Obligations.CompressRaisesOnlyInRangeOrOutOverflow : Prop :=
  ∀ s : State, s.status.fault = false →
    ∃ t, exec .compress s = .next t ∧
      (t.status.fault = true →
        t.status.outValid = false ∧ t.outLen = 0 ∧ t.bitLen = 0 ∧
        ((s.ibufCap.toNat < s.inLen.toNat ∧ t.errCode = 3 ∧ t.errInfo = s.inLen ∧ t.nsym = 0 ∧
            t.root = { valid := false, idx := 0 } ∧ t.status.freqValid = false ∧ t.status.treeValid = false ∧
            t.status.codeValid = false ∧ t.status.degen = false) ∨
          (s.inLen.toNat ≤ s.ibufCap.toNat ∧ t.errCode = 4 ∧ t.errInfo = s.obufCap ∧ t.status.freqValid = true ∧
            t.status.treeValid = true ∧ t.status.codeValid = true)))

/-! ### The preconditions -/

/-- R188, R196, R198 (derived: that the raw contents of NODE and CODE stay as they are after the fault is log entry 21;
R110, R130 and U16 call them unspecified): the command whose input table is not valid raises MISSING_STATE, after its
clears, with the number of the table. -/
def Obligations.MissingTablesAreRefused : Prop :=
  ∀ s : State, s.status.fault = false →
    (s.status.freqValid = false →
      exec .build s = .next { s with
        root := { valid := false, idx := 0 }, errCode := 2, errInfo := 0
        status := { s.status with treeValid := false, codeValid := false, degen := false, fault := true } }) ∧
    (s.status.treeValid = false →
      exec .gencode s = .next { s with
        errCode := 2, errInfo := 1, status := { s.status with codeValid := false, fault := true } }) ∧
    (s.status.treeValid = false →
      exec .unpack s = .next { s with
        outLen := 0, decCur := 0, errCode := 2, errInfo := 1
        status := { s.status with outValid := false, decPartial := false, fault := true } }) ∧
    (s.status.codeValid = false →
      exec .pack s = .next { s with
        outLen := 0, bitLen := 0, errCode := 2, errInfo := 2
        status := { s.status with outValid := false, fault := true } })

/-- R190, R196, R198 (derived: that the raw contents of FREQ, NODE and CODE stay as they are after the fault is log entry
21; R100 and U16 call them unspecified): IN_LEN > IBUF_SIZE raises IN_RANGE(IN_LEN) in the four commands that read the input
(in PACK and UNPACK after their table check, R199). -/
def Obligations.TooMuchInputIsRefused : Prop :=
  ∀ s : State, s.status.fault = false → s.ibufCap.toNat < s.inLen.toNat →
    exec .freq s = .next { s with
      nsym := 0, errCode := 3, errInfo := s.inLen, status := { s.status with freqValid := false, fault := true } } ∧
    exec .compress s = .next { s with
      outLen := 0, bitLen := 0, nsym := 0, root := { valid := false, idx := 0 }, errCode := 3, errInfo := s.inLen
      status := { s.status with
        freqValid := false, treeValid := false, codeValid := false, outValid := false, degen := false, fault := true } } ∧
    (s.status.codeValid = true →
      exec .pack s = .next { s with
        outLen := 0, bitLen := 0, errCode := 3, errInfo := s.inLen
        status := { s.status with outValid := false, fault := true } }) ∧
    (s.status.treeValid = true →
      exec .unpack s = .next { s with
        outLen := 0, decCur := 0, errCode := 3, errInfo := s.inLen
        status := { s.status with outValid := false, decPartial := false, fault := true } })

/-! ### Frames, faulting or not -/

/-- R100, R196 (derived): whatever FREQ does, it writes at most FREQ, NSYM, FREQ_VALID and the fault registers. -/
def Obligations.FreqFrame : Prop :=
  ∀ s t : State, exec .freq s = .next t →
    BuffersKept s t ∧ FaultRegistersKept s t ∧
    t = { s with
          freq := t.freq, nsym := t.nsym, errCode := t.errCode, errInfo := t.errInfo
          status := { s.status with freqValid := t.status.freqValid, fault := t.status.fault } }

/-- R110, R130, R196 (derived): whatever BUILD does, it writes at most NODE, ROOT, TREE_VALID, CODE_VALID, DEGEN and the fault
registers; GENCODE at most CODE, CODE_VALID and the fault registers. -/
def Obligations.BuildAndGencodeFrame : Prop :=
  (∀ s t : State, exec .build s = .next t →
    BuffersKept s t ∧ FaultRegistersKept s t ∧
    t = { s with
          node := t.node, root := t.root, errCode := t.errCode, errInfo := t.errInfo
          status := { s.status with
            treeValid := t.status.treeValid, codeValid := t.status.codeValid, degen := t.status.degen
            fault := t.status.fault } }) ∧
  ∀ s t : State, exec .gencode s = .next t →
    BuffersKept s t ∧ FaultRegistersKept s t ∧
    t = { s with
          code := t.code, errCode := t.errCode, errInfo := t.errInfo
          status := { s.status with codeValid := t.status.codeValid, fault := t.status.fault } }

/-- R140, R146, R196 (derived): whatever PACK does, it writes at most OBUF below OPTR, OUT_LEN, BITLEN, OUT_VALID and the fault
registers. OPTR is that of its packing run, on the state after its clears. -/
def Obligations.PackFrame : Prop :=
  ∀ s t : State, exec .pack s = .next t →
    (∀ a, Memory.read? t.ibuf a = Memory.read? s.ibuf a) ∧
    (∀ a, packedCount (packRun (clearPack s)) ≤ a → Memory.read? t.obuf a = Memory.read? s.obuf a) ∧
    FaultRegistersKept s t ∧
    t = { s with
          obuf := t.obuf, outLen := t.outLen, bitLen := t.bitLen, errCode := t.errCode, errInfo := t.errInfo
          status := { s.status with outValid := t.status.outValid, fault := t.status.fault } }

/-- R155, R196 (derived): whatever UNPACK does, it writes at most OBUF below OPTR, OUT_LEN, DEC_CUR, OUT_VALID, DEC_PARTIAL and
the fault registers. OPTR is that of its walk, on the state after its clears. -/
def Obligations.UnpackFrame : Prop :=
  ∀ s t : State, exec .unpack s = .next t →
    (∀ a, Memory.read? t.ibuf a = Memory.read? s.ibuf a) ∧
    (∀ a, walkedCount (walkRun (clearUnpack s)) ≤ a → Memory.read? t.obuf a = Memory.read? s.obuf a) ∧
    FaultRegistersKept s t ∧
    t = { s with
          obuf := t.obuf, outLen := t.outLen, decCur := t.decCur, errCode := t.errCode, errInfo := t.errInfo
          status := { s.status with
            outValid := t.status.outValid, decPartial := t.status.decPartial, fault := t.status.fault } }

/-- R173, R146, R196, R197 (derived): whatever COMPRESS does, CTRL, IN_LEN, DEC_BITLEN, DEC_CUR, DEC_PARTIAL and IBUF are as
before, and so is every byte of OBUF from the OPTR of its PACK stage on: that of the packing run on the state the GENCODE stage
leaves, after the clears of PACK. While FAULT = 1 nothing changes; with IN_LEN out of range all of OBUF is as before. -/
def Obligations.CompressFrame : Prop :=
  ∀ s t : State, exec .compress s = .next t →
    (∀ a, Memory.read? t.ibuf a = Memory.read? s.ibuf a) ∧
    (∀ a, compressedCount s ≤ a → Memory.read? t.obuf a = Memory.read? s.obuf a) ∧
    (s.status.fault = true → t = s) ∧
    (s.ibufCap.toNat < s.inLen.toNat → ∀ a, Memory.read? t.obuf a = Memory.read? s.obuf a) ∧
    FaultRegistersKept s t ∧
    t = { s with
          freq := t.freq, node := t.node, code := t.code, obuf := t.obuf, nsym := t.nsym, root := t.root
          outLen := t.outLen, bitLen := t.bitLen, errCode := t.errCode, errInfo := t.errInfo
          status := { t.status with decPartial := s.status.decPartial } }

/-! ### Rules of the whole machine -/

/-- R200, R201 (derived: the reset event is log entry 7): a step leaves the faulted state only by RST or reset, and every other
step keeps the first fault's code and information. -/
def Obligations.OnlyRstOrResetLeavesAFault : Prop :=
  ∀ s t : State, s.status.fault = true → step s = .next t →
    (t.status.fault = true ∧ t.errCode = s.errCode ∧ t.errInfo = s.errInfo) ∨
    (∃ rest, s.port = .reset :: rest) ∨ ∃ rest, CommandPending s 0x00000001 rest

/-- R117, R24, R222 (derived: the pending reset that is left out is log entry 7): only BUILD, COMPRESS, DISCARD, RST, or a
reset, changes NODE, ROOT, TREE_VALID or DEGEN. -/
def Obligations.OnlyFourCommandsTouchTheTree : Prop :=
  ∀ s t : State, step s = .next t → (∀ rest, s.port ≠ .reset :: rest) →
    (∀ i rest, CommandPending s (encode i) rest → i ≠ .build ∧ i ≠ .compress ∧ i ≠ .discard ∧ i ≠ .rst) →
    t.node = s.node ∧ t.root = s.root ∧ t.status.treeValid = s.status.treeValid ∧ t.status.degen = s.status.degen

/-- R60, R40, R41, R42, R45 (derived: that DISCARD and RST leave the raw contents of the tables is log entry 21): only FREQ
and COMPRESS write the FREQ memory, only BUILD and COMPRESS the NODE memory, only GENCODE and COMPRESS the CODE memory, only
PACK, UNPACK and COMPRESS the OBUF memory, and no command IBUF. -/
def Obligations.EachMemoryHasItsWriters : Prop :=
  ∀ (i : Instr) (s t : State), exec i s = .next t →
    (∀ a, Memory.read? t.ibuf a = Memory.read? s.ibuf a) ∧
    (i ≠ .freq → i ≠ .compress → t.freq = s.freq) ∧
    (i ≠ .build → i ≠ .compress → t.node = s.node) ∧
    (i ≠ .gencode → i ≠ .compress → t.code = s.code) ∧
    (i ≠ .pack → i ≠ .unpack → i ≠ .compress → ∀ a, Memory.read? t.obuf a = Memory.read? s.obuf a)

/-- R37 (derived: R37 also gives the reads and writes): IBUF_CAP and OBUF_CAP are constants: no step changes them. -/
def Obligations.CapacitiesAreConstants : Prop :=
  ∀ s t : State, step s = .next t → t.ibufCap = s.ibufCap ∧ t.obufCap = s.obufCap

/-! ### Invariants -/

/-- R44, R46, R55, R56 (derived; log entries 3 and 6): the invariant holds at reset. -/
def Obligations.InvHoldsAtReset : Prop := Inv State.reset

/-- R56 items 1 to 5 (derived: item 6 is a statement of its own): every step keeps the register invariants. -/
def Obligations.StepKeepsTheRegisterInvariants : Prop :=
  ∀ s t : State, RegistersOk s → step s = .next t → RegistersOk t

/-- R60, R4 (derived; log entry 14): every step keeps the sizes and the canonical form of every memory. -/
def Obligations.StepKeepsTheMemoryForm : Prop :=
  ∀ s t : State, SizesOk s → MemoryOk s → step s = .next t → SizesOk t ∧ MemoryOk t

/-- R44, R46, R56, R77 (derived): every step keeps the whole invariant: a valid tree is a tree in the sense of R44, and a valid
code table is the code table of that tree. -/
def Obligations.StepKeepsTheInvariant : Prop := ∀ s t : State, Inv s → step s = .next t → Inv t

/-- R237, R236 (derived; log entry 9): from every state of the invariant a step answers a next state: no command fails to
end. -/
def Obligations.EveryStepOfTheInvariantGoesOn : Prop := ∀ s : State, Inv s → SafeStep s

/-- R56 item 6 (derived): right after an UNPACK that set DEC_PARTIAL, OUT_VALID is set and DEC_CUR is an internal node that is
not the root. -/
def Obligations.PartialWalkEndsInside : Prop :=
  ∀ s t : State, Inv s → s.status.fault = false → exec .unpack s = .next t → t.status.decPartial = true →
    t.status.outValid = true ∧ t.decCur ≠ t.root.idx ∧ (nodeAt t.node t.decCur.toNat).kind = .internal

/-- R133, R221 (derived: the invariant rules out a GENCODE without a tree): only BUILD, COMPRESS, DISCARD, RST, or a reset,
clears CODE_VALID. -/
def Obligations.OnlyFourCommandsInvalidateTheCode : Prop :=
  ∀ s t : State, Inv s → step s = .next t → s.status.codeValid = true → t.status.codeValid = false →
    (∃ rest, s.port = .reset :: rest) ∨
    ∃ i rest, CommandPending s (encode i) rest ∧ (i = .build ∨ i = .compress ∨ i = .discard ∨ i = .rst)

/-! ### Headline results -/

/-- R162 (derived: the spec marks R162 as derived from R155, R161 and R132): the round trip. A packed buffer that a successful
PACK of X made, decoded with the same tree, gives X exactly: (a) for BITLEN bits in length mode, N = 0 and N = 1 included, and
(b) in baseline mode when BITLEN is a multiple of 8, both with DEC_PARTIAL = 0; and in baseline mode whenever the p padding bits
are fewer than d0, the length of the all-zero code, with DEC_PARTIAL = 1 exactly when p > 0. -/
def Obligations.PackedBuffersRoundTrip : Prop :=
  ∀ s t u : State, Inv s → s.status.fault = false → s.status.codeValid = true → exec .pack s = .next t →
    t.status.fault = false → ReadyToDecode s t u s.inLen.toNat →
    ((u.lenEn = true ∧ u.decBitLen = t.bitLen) ∨ (u.lenEn = false ∧ t.bitLen.toNat % 8 = 0) →
      ∃ v, exec .unpack u = .next v ∧ v.status.fault = false ∧ v.status.outValid = true ∧ v.outLen = s.inLen ∧
        outputBytes v = (inputBytes s).map some ∧ v.status.decPartial = false) ∧
    (∀ (z : Byte) (d0 : Nat), u.lenEn = false → (codeAt s.code z.toNat).valid = true →
      (codeAt s.code z.toNat).sequence = List.replicate d0 false → (8 - t.bitLen.toNat % 8) % 8 < d0 →
      ∃ v, exec .unpack u = .next v ∧ v.status.fault = false ∧ v.status.outValid = true ∧ v.outLen = s.inLen ∧
        outputBytes v = (inputBytes s).map some ∧
        (v.status.decPartial = true ↔ 0 < (8 - t.bitLen.toNat % 8) % 8))

/-- R162 (a) with R173 (derived): the same after COMPRESS, from any state with no fault latched, with no invariant assumed. -/
def Obligations.CompressThenUnpackIsTheIdentity : Prop :=
  ∀ s t u : State, SizesOk s → s.status.fault = false → exec .compress s = .next t → t.status.fault = false →
    ReadyToDecode t t u s.inLen.toNat → u.lenEn = true → u.decBitLen = t.bitLen →
    ∃ v, exec .unpack u = .next v ∧ v.status.fault = false ∧ v.outLen = s.inLen ∧
      outputBytes v = (inputBytes s).map some ∧ v.status.decPartial = false

/-- R161 (derived: the spec marks it as derived from R155, R142 and R132): baseline decoding of a packed buffer gives X and
then p div d0 copies of z, where p is the number of padding bits, z the symbol of the all-zero code and d0 its length;
DEC_PARTIAL = 1 exactly when p mod d0 ≠ 0. -/
def Obligations.BaselineDecodingAddsThePadding : Prop :=
  ∀ (s t u : State) (z : Byte) (p d0 : Nat), Inv s → s.status.fault = false → s.status.codeValid = true →
    exec .pack s = .next t → t.status.fault = false → p = (8 - t.bitLen.toNat % 8) % 8 →
    (codeAt s.code z.toNat).valid = true → (codeAt s.code z.toNat).sequence = List.replicate d0 false →
    ReadyToDecode s t u (s.inLen.toNat + p / d0) → u.lenEn = false →
    ∃ v, exec .unpack u = .next v ∧ v.status.fault = false ∧
      outputBytes v = (inputBytes s ++ List.replicate (p / d0) z).map some ∧
      (v.status.decPartial = true ↔ p % d0 ≠ 0)

/-- R118 (derived: the spec takes its reason from general knowledge): for any symbols a and b of the frequency table, if a
is more frequent than b then the code of a is not longer. -/
def Obligations.MoreFrequentSymbolsHaveNoLongerCodes : Prop :=
  ∀ s t u : State, Inv s → s.status.fault = false → s.status.freqValid = true → exec .build s = .next t →
    exec .gencode t = .next u →
    ∀ a b : Byte, freqAt s.freq b.toNat ≠ 0 → freqAt s.freq b.toNat < freqAt s.freq a.toNat →
      (codeAt u.code a.toNat).len ≤ (codeAt u.code b.toNat).len

/-- R113, R143 (derived): after a COMPRESS without a fault BITLEN is the sum of the weights of the internal nodes, and the
weight of the root is the length of the input. -/
def Obligations.EncodedLengthIsTheSumOfInternalWeights : Prop :=
  ∀ s t : State, SizesOk s → s.status.fault = false → exec .compress s = .next t → t.status.fault = false →
    t.bitLen.toNat =
      ((t.node.filter (fun c => decide (c.2.kind = .internal))).map (fun c => c.2.weight.toNat)).sum ∧
    (s.inLen ≠ 0 → (nodeAt t.node t.root.idx.toNat).weight = s.inLen)
end

