-- ==== Sys2Proof/Laws/Cells.lean ====
section
/-!
SUPPORT. The laws of the sparse memories: read after write, and that every operation keeps the canonical form.
-/

namespace Sys2Proof.Machine

variable {α : Type}

@[simp] theorem cellFind_nil (k : Nat) : cellFind ([] : List (Nat × α)) k = none := rfl

theorem cellFind_insert (cells : List (Nat × α)) (k k' : Nat) (v : α) :
    cellFind (cellInsert cells k v) k' = if k' = k then some v else cellFind cells k' := by
  induction cells with
  | nil => grind [cellInsert, cellFind]
  | cons c rest ih => grind [cellInsert, cellFind]

theorem cellFind_erase (cells : List (Nat × α)) (k k' : Nat) :
    cellFind (cellErase cells k) k' = if k' = k then none else cellFind cells k' := by
  induction cells with
  | nil => grind [cellErase, cellFind]
  | cons c rest ih => grind [cellErase, cellFind]

theorem mem_of_cellFind {cells : List (Nat × α)} {k : Nat} {v : α} (h : cellFind cells k = some v) :
    (k, v) ∈ cells := by
  induction cells with
  | nil => simp at h
  | cons c rest ih => grind [cellFind]

theorem cellFind_of_mem {cells : List (Nat × α)} (hs : CellsSorted cells) {k : Nat} {v : α} (h : (k, v) ∈ cells) :
    cellFind cells k = some v := by
  induction cells with
  | nil => simp at h
  | cons c rest ih =>
    rw [CellsSorted, List.pairwise_cons] at hs
    rcases List.mem_cons.1 h with rfl | h
    · simp [cellFind]
    · have := hs.1 _ h
      have hne : c.1 ≠ k := by simp at this; omega
      rw [show c = (c.1, c.2) from rfl, cellFind, if_neg hne]
      exact ih hs.2 h

theorem mem_cellInsert {cells : List (Nat × α)} {k : Nat} {v : α} {c : Nat × α} (h : c ∈ cellInsert cells k v) :
    c = (k, v) ∨ c ∈ cells := by
  induction cells with
  | nil => simpa [cellInsert] using h
  | cons d rest ih => grind [cellInsert]

theorem mem_cellErase {cells : List (Nat × α)} {k : Nat} {c : Nat × α} (h : c ∈ cellErase cells k) :
    c ∈ cells ∧ c.1 ≠ k := by
  induction cells with
  | nil => simp [cellErase] at h
  | cons d rest ih => grind [cellErase]

theorem cellsSorted_insert {cells : List (Nat × α)} (hs : CellsSorted cells) (k : Nat) (v : α) :
    CellsSorted (cellInsert cells k v) := by
  induction cells with
  | nil => simp [cellInsert, CellsSorted]
  | cons d rest ih =>
    obtain ⟨a, w⟩ := d
    rw [CellsSorted, List.pairwise_cons] at hs
    rw [cellInsert]
    split
    · rename_i h
      simp only [CellsSorted, List.pairwise_cons, List.mem_cons]
      refine ⟨?_, hs⟩
      rintro c (rfl | hc)
      · exact h
      · exact Nat.lt_trans h (hs.1 c hc)
    · split
      · rename_i h
        subst h
        simpa [CellsSorted, List.pairwise_cons] using hs
      · rename_i h1 h2
        refine List.pairwise_cons.2 ⟨fun c hc => ?_, ih hs.2⟩
        rcases mem_cellInsert hc with rfl | hc
        · simp; omega
        · exact hs.1 c hc

theorem cellsSorted_erase {cells : List (Nat × α)} (hs : CellsSorted cells) (k : Nat) :
    CellsSorted (cellErase cells k) := by
  induction cells with
  | nil => simp [cellErase, CellsSorted]
  | cons d rest ih =>
    obtain ⟨a, w⟩ := d
    rw [CellsSorted, List.pairwise_cons] at hs
    rw [cellErase]
    split
    · exact ih hs.2
    · exact List.pairwise_cons.2 ⟨fun c hc => hs.1 c (mem_cellErase hc).1, ih hs.2⟩

/-- Canonical lists that read alike are equal. -/
theorem cells_ext {xs ys : List (Nat × α)} (hx : CellsSorted xs) (hy : CellsSorted ys)
    (h : ∀ k, cellFind xs k = cellFind ys k) : xs = ys := by
  have irr : ∀ {zs : List (Nat × α)}, CellsSorted zs → zs.Pairwise (fun a b => a ≠ b) := by
    intro zs hz
    exact hz.imp (fun {a b} hab hc => by subst hc; omega)
  refine List.Perm.eq_of_pairwise (le := fun a b => a.1 < b.1)
    (fun a b _ _ hab hba => absurd hab (by omega)) hx hy ?_
  refine (List.perm_ext_iff_of_nodup (irr hx) (irr hy)).2 (fun c => ⟨fun hc => ?_, fun hc => ?_⟩)
  · exact mem_of_cellFind ((h c.1).symm.trans (cellFind_of_mem hx hc))
  · exact mem_of_cellFind ((h c.1).trans (cellFind_of_mem hy hc))

/-! ### Byte memories -/

@[simp] theorem Memory.read?_nil (i : Nat) : Memory.read? [] i = none := rfl

theorem Memory.read?_write (m : List Host.Cell) (i j : Nat) (b : Byte) :
    Memory.read? (Memory.write m i b) j = if j = i then some b else Memory.read? m j :=
  cellFind_insert m i j b

theorem Memory.wf_nil (size : Nat) : Memory.wf size [] := ⟨List.Pairwise.nil, by simp⟩

theorem Memory.wf_write {size : Nat} {m : List Host.Cell} (h : Memory.wf size m) {i : Nat} (hi : i < size) (b : Byte) :
    Memory.wf size (Memory.write m i b) := by
  refine ⟨cellsSorted_insert h.1 i b, fun c hc => ?_⟩
  rcases mem_cellInsert hc with rfl | hc
  · exact hi
  · exact h.2 c hc

/-- An index outside a well-formed memory is not listed. -/
theorem Memory.read?_eq_none {size : Nat} {m : List Host.Cell} (h : Memory.wf size m) {i : Nat} (hi : size ≤ i) :
    Memory.read? m i = none := by
  cases hm : Memory.read? m i with
  | none => rfl
  | some b => exact absurd (h.2 _ (mem_of_cellFind hm)) (by simp; omega)

/-! ### Tables -/

@[simp] theorem tableGet_nil (d : α) (i : Nat) : tableGet d [] i = d := rfl

/-- A record that is not the default is listed. -/
theorem mem_of_tableGet_ne {d : α} {t : List (Nat × α)} {i : Nat} (h : tableGet d t i ≠ d) : (i, tableGet d t i) ∈ t := by
  unfold tableGet at h ⊢
  cases hf : cellFind t i with
  | none => rw [hf] at h; exact absurd rfl h
  | some v => exact mem_of_cellFind hf

variable [DecidableEq α]

theorem tableGet_put (d : α) (t : List (Nat × α)) (i j : Nat) (v : α) :
    tableGet d (tablePut d t i v) j = if j = i then v else tableGet d t j := by
  unfold tableGet tablePut
  split
  · rename_i h
    subst h
    rw [cellFind_erase]
    split <;> rfl
  · rw [cellFind_insert]
    split <;> rfl

theorem tableWf_nil (d : α) (size : Nat) : tableWf d size [] := ⟨List.Pairwise.nil, by simp⟩

theorem tableWf_put {d : α} {size : Nat} {t : List (Nat × α)} (h : tableWf d size t) {i : Nat} (hi : i < size) (v : α) :
    tableWf d size (tablePut d t i v) := by
  unfold tablePut
  split
  · exact ⟨cellsSorted_erase h.1 i, fun c hc => h.2 c (mem_cellErase hc).1⟩
  · rename_i hv
    refine ⟨cellsSorted_insert h.1 i v, fun c hc => ?_⟩
    rcases mem_cellInsert hc with rfl | hc
    · exact ⟨hi, hv⟩
    · exact h.2 c hc

theorem tableGet_of_mem {d : α} {size : Nat} {t : List (Nat × α)} (h : tableWf d size t) {i : Nat} {v : α}
    (hm : (i, v) ∈ t) : tableGet d t i = v := by
  unfold tableGet
  rw [cellFind_of_mem h.1 hm]
  rfl

/-- Outside its range a well-formed table holds the default. -/
theorem tableGet_eq_default {d : α} {size : Nat} {t : List (Nat × α)} (h : tableWf d size t) {i : Nat} (hi : size ≤ i) :
    tableGet d t i = d := by
  by_contra hne
  exact absurd (h.2 _ (mem_of_tableGet_ne hne)).1 (by simp; omega)

/-- Well-formed tables that read alike are equal. -/
theorem table_ext {d : α} {size : Nat} {xs ys : List (Nat × α)} (hx : tableWf d size xs) (hy : tableWf d size ys)
    (h : ∀ i, tableGet d xs i = tableGet d ys i) : xs = ys := by
  refine cells_ext hx.1 hy.1 (fun k => ?_)
  have hk := h k
  cases hfx : cellFind xs k with
  | some v =>
    have hv := (hx.2 _ (mem_of_cellFind hfx)).2
    cases hfy : cellFind ys k with
    | some w => simpa [tableGet, hfx, hfy] using hk
    | none => exact absurd (by simpa [tableGet, hfx, hfy] using hk) hv
  | none =>
    cases hfy : cellFind ys k with
    | none => rfl
    | some w =>
      have hw := (hy.2 _ (mem_of_cellFind hfy)).2
      exact absurd (by simpa [tableGet, hfx, hfy] using hk.symm) hw

theorem freqAt_put (t : List (Nat × Word)) (i j : Nat) (v : Word) :
    freqAt (freqPut t i v) j = if j = i then v else freqAt t j := tableGet_put 0 t i j v

theorem nodeAt_put (t : List (Nat × Node)) (i j : Nat) (v : Node) :
    nodeAt (nodePut t i v) j = if j = i then v else nodeAt t j := tableGet_put Node.emptyRecord t i j v

theorem codeAt_put (t : List (Nat × Code)) (i j : Nat) (v : Code) :
    codeAt (codePut t i v) j = if j = i then v else codeAt t j := tableGet_put Code.noCode t i j v

end Sys2Proof.Machine
end

