-- ==== Sys2Proof/Laws/Counting.lean ====
section
/-!
SUPPORT. The frequency table in closed form: each count is the number of occurrences, and the counts sum up to the length
of the buffer (spec 40_freq.md R101).
-/

namespace Sys2Proof.Machine

open Sys2Proof.Claims

theorem freqAt_countBytes (bytes : List Byte) (t : List (Nat × Word)) (x : Nat) :
    freqAt (bytes.foldl countByte t) x =
      freqAt t x + BitVec.ofNat 32 (bytes.countP (fun b => decide (b.toNat = x))) := by
  induction bytes generalizing t with
  | nil => simp
  | cons b rest ih =>
    rw [List.foldl_cons, ih, countByte, freqAt_put, List.countP_cons]
    by_cases h : b.toNat = x
    · rw [if_pos h.symm, h]
      rw [if_pos (decide_eq_true rfl), BitVec.ofNat_add, BitVec.add_assoc, BitVec.add_comm 1]; rfl
    · simp [h, Ne.symm h]

/-- FREQ[x] after FREQ: the number of bytes x (R101). -/
theorem freqAt_frequencyTable (bytes : List Byte) (x : Nat) :
    freqAt (frequencyTable bytes) x = BitVec.ofNat 32 (bytes.countP (fun b => decide (b.toNat = x))) := by
  have h0 : freqAt [] x = 0 := rfl
  rw [frequencyTable, freqAt_countBytes, h0]
  simp

/-- The same as a number: a count cannot wrap (R11). -/
theorem freqAt_frequencyTable_toNat {bytes : List Byte} (h : bytes.length < 2 ^ 32) (x : Nat) :
    (freqAt (frequencyTable bytes) x).toNat = bytes.countP (fun b => decide (b.toNat = x)) := by
  rw [freqAt_frequencyTable, BitVec.toNat_ofNat]
  exact Nat.mod_eq_of_lt (Nat.lt_of_le_of_lt List.countP_le_length h)

theorem tableWf_countBytes (bytes : List Byte) {t : List (Nat × Word)} (h : tableWf (0 : Word) Config.symbols t) :
    tableWf (0 : Word) Config.symbols (bytes.foldl countByte t) := by
  induction bytes generalizing t with
  | nil => exact h
  | cons b rest ih => exact ih (tableWf_put h (show b.toNat < 256 from b.isLt) _)

theorem tableWf_frequencyTable (bytes : List Byte) : tableWf (0 : Word) Config.symbols (frequencyTable bytes) :=
  tableWf_countBytes bytes (tableWf_nil 0 _)

/-- A symbol is in the alphabet exactly when it has a count (R42, R101). -/
theorem mem_alphabet {t : List (Nat × Word)} {x : Nat} : x ∈ alphabet t ↔ x < 256 ∧ freqAt t x ≠ 0 := by
  simp [alphabet, Config.symbols]

theorem alphabet_sorted (t : List (Nat × Word)) : (alphabet t).Pairwise (· < ·) :=
  List.Pairwise.filter _ List.pairwise_lt_range

theorem alphabet_nodup (t : List (Nat × Word)) : (alphabet t).Nodup :=
  (alphabet_sorted t).imp (fun h => Nat.ne_of_lt h)

theorem alphabet_length_le (t : List (Nat × Word)) : (alphabet t).length ≤ 256 := by
  simpa [alphabet, Config.symbols] using List.length_filter_le (fun s => decide (freqAt t s ≠ 0)) (List.range 256)

theorem symbolCount_eq (t : List (Nat × Word)) : symbolCount t = (alphabet t).length := rfl

/-- The alphabet depends on the counts of the 256 symbols alone. -/
theorem alphabet_congr {t t' : List (Nat × Word)} (h : ∀ x < 256, freqAt t x = freqAt t' x) : alphabet t = alphabet t' := by
  unfold alphabet
  apply List.filter_congr
  intro x hx
  rw [h x (by simpa [Config.symbols] using hx)]

/-- Strictly rising lists with the same members are equal. -/
theorem sorted_ext {xs ys : List Nat} (hx : xs.Pairwise (· < ·)) (hy : ys.Pairwise (· < ·)) (h : ∀ a, a ∈ xs ↔ a ∈ ys) :
    xs = ys :=
  List.Perm.eq_of_pairwise (le := (· < ·)) (fun _ _ _ _ hab hba => absurd hab (Nat.lt_asymm hba)) hx hy
    ((List.perm_ext_iff_of_nodup (hx.imp (fun h => Nat.ne_of_lt h)) (hy.imp (fun h => Nat.ne_of_lt h))).2 h)

/-- In a canonical table the symbols listed are the alphabet. -/
theorem keys_eq_alphabet {t : List (Nat × Word)} (h : tableWf (0 : Word) Config.symbols t) :
    t.map Prod.fst = alphabet t := by
  refine sorted_ext (List.pairwise_map.2 h.1) (alphabet_sorted t) (fun a => ?_)
  rw [mem_alphabet, List.mem_map]
  constructor
  · rintro ⟨c, hc, rfl⟩
    refine ⟨(h.2 c hc).1, ?_⟩
    rw [freqAt, tableGet_of_mem h (show (c.1, c.2) ∈ t from hc)]
    exact (h.2 c hc).2
  · rintro ⟨-, hne⟩
    exact ⟨_, mem_of_tableGet_ne hne, rfl⟩

/-- The sum of all counts, taken over the alphabet. -/
theorem countSum_eq {t : List (Nat × Word)} (h : tableWf (0 : Word) Config.symbols t) :
    countSum t = ((alphabet t).map (fun x => (freqAt t x).toNat)).sum := by
  rw [← keys_eq_alphabet h, List.map_map, countSum]
  congr 1
  apply List.map_congr_left
  intro c hc
  have := tableGet_of_mem h (show (c.1, c.2) ∈ t from hc)
  simp only [Function.comp_apply, freqAt, this]

theorem sum_filter_ne_zero (f : Nat → Nat) (p : Nat → Bool) (hp : ∀ x, p x = false → f x = 0) (l : List Nat) :
    ((l.filter p).map f).sum = (l.map f).sum := by
  induction l with
  | nil => rfl
  | cons a rest ih =>
    cases h : p a with
    | false => simp [h, ih, hp a h]
    | true => simp [h, ih]

/-- The sum of all counts, taken over the 256 symbols. -/
theorem countSum_eq_range {t : List (Nat × Word)} (h : tableWf (0 : Word) Config.symbols t) :
    countSum t = ((List.range 256).map (fun x => (freqAt t x).toNat)).sum := by
  rw [countSum_eq h]
  refine sum_filter_ne_zero (fun x => (freqAt t x).toNat) _ (fun x hx => ?_) _
  have hx : freqAt t x = 0 := by simpa using hx
  simp [hx]

theorem sum_countP_range (bytes : List Byte) :
    ((List.range 256).map (fun x => bytes.countP (fun b => decide (b.toNat = x)))).sum = bytes.length := by
  induction bytes with
  | nil => exact List.sum_eq_zero (fun n hn => by obtain ⟨x, -, rfl⟩ := List.mem_map.1 hn; rfl)
  | cons b rest ih =>
    have hadd : ∀ (f g : Nat → Nat) (l : List Nat),
        (l.map (fun x => f x + g x)).sum = (l.map f).sum + (l.map g).sum := by
      intro f g l
      induction l with
      | nil => rfl
      | cons a l ihl => simp only [List.map_cons, List.sum_cons, ihl]; omega
    have hone : ((List.range 256).map (fun x => if b.toNat = x then 1 else 0)).sum = 1 := by
      have : ∀ n, ((List.range n).map (fun x => if b.toNat = x then 1 else 0)).sum = if b.toNat < n then 1 else 0 := by
        intro n
        induction n with
        | zero => rfl
        | succ n ihn =>
          rw [List.range_succ, List.map_append, List.sum_append, ihn]
          by_cases h1 : b.toNat < n
          · simp [h1, show b.toNat ≠ n by omega, show b.toNat < n + 1 by omega]
          · by_cases h2 : b.toNat = n
            · simp [h2]
            · simp [h1, h2, show ¬ b.toNat < n + 1 by omega]
      rw [this 256, if_pos b.isLt]
    simp only [List.countP_cons, decide_eq_true_eq, List.length_cons]
    rw [hadd, ih, hone]

/-- The sum of all counts after FREQ is the length of the buffer (R101). -/
theorem countSum_frequencyTable {bytes : List Byte} (h : bytes.length < 2 ^ 32) :
    countSum (frequencyTable bytes) = bytes.length := by
  rw [countSum_eq_range (tableWf_frequencyTable bytes)]
  simp only [freqAt_frequencyTable_toNat h]
  exact sum_countP_range bytes

/-- The input is IN_LEN bytes long, so its counts cannot wrap. -/
theorem inputBytes_length (s : State) : (inputBytes s).length = s.inLen.toNat := by simp [inputBytes]

theorem inputBytes_length_lt (s : State) : (inputBytes s).length < 2 ^ 32 := by
  rw [inputBytes_length]
  exact s.inLen.isLt

end Sys2Proof.Machine
end

