-- ==== Sys2Proof/Laws/Merging.lean ====
section
/-!
SUPPORT. The Tree Builder in closed form: the merge loop makes the merges of spec 41_build.md R112 and R114, and the tree
of a frequency table has the form of 10_state.md R44.
-/

namespace Sys2Proof.Machine

open Sys2Proof.Claims

/-! ### The minimum of the collection -/

theorem lighter_iff {nodes : List (Nat × Node)} {i j : Nat} : lighter nodes i j = true ↔ Before nodes i j := by
  simp [lighter, Before]

theorem before_total {nodes : List (Nat × Node)} {i j : Nat} (h : i ≠ j) : Before nodes i j ∨ Before nodes j i := by
  unfold Before
  simp only [BitVec.lt_def, ← BitVec.toNat_inj]
  omega

theorem before_trans {nodes : List (Nat × Node)} {i j k : Nat} (h1 : Before nodes i j) (h2 : Before nodes j k) :
    Before nodes i k := by
  unfold Before at *
  simp only [BitVec.lt_def, ← BitVec.toNat_inj] at *
  omega

/-- The minimum is a member, and before every other member (R114). -/
theorem lightest_spec (nodes : List (Nat × Node)) {active : List Nat} {m : Nat} (h : lightest nodes active = some m) :
    m ∈ active ∧ ∀ x ∈ active, x ≠ m → Before nodes m x := by
  induction active generalizing m with
  | nil => simp [lightest] at h
  | cons i rest ih =>
    rw [lightest] at h
    cases hr : lightest nodes rest with
    | none =>
      simp only [hr, Option.some.injEq] at h
      subst h
      cases rest with
      | nil => simp
      | cons j rest' =>
        rw [lightest] at hr
        split at hr
        · simp at hr
        · split at hr <;> simp at hr
    | some j =>
      obtain ⟨hj, hmin⟩ := ih hr
      simp only [hr] at h
      by_cases hl : lighter nodes i j = true
      · rw [if_pos hl] at h
        cases h
        have hb := lighter_iff.1 hl
        refine ⟨by simp, fun x hx hne => ?_⟩
        rcases List.mem_cons.1 hx with rfl | hx
        · exact absurd rfl hne
        · by_cases hxj : x = j
          · exact hxj ▸ hb
          · exact before_trans hb (hmin x hx hxj)
      · rw [if_neg hl] at h
        cases h
        refine ⟨by simp [hj], fun x hx hne => ?_⟩
        rcases List.mem_cons.1 hx with rfl | hx
        · exact (before_total hne).resolve_left (fun hb => hl (lighter_iff.2 hb))
        · exact hmin x hx hne

theorem lightest_isSome (nodes : List (Nat × Node)) {active : List Nat} (h : active ≠ []) :
    ∃ m, lightest nodes active = some m := by
  cases active with
  | nil => exact absurd rfl h
  | cons i rest =>
    rw [lightest]
    split
    · exact ⟨_, rfl⟩
    · split <;> exact ⟨_, rfl⟩

/-- What taking the minimum answers (R112). -/
theorem takeLightest_spec (nodes : List (Nat × Node)) {active : List Nat} (hne : active ≠ []) :
    ∃ m, takeLightest nodes active = some (m, active.erase m) ∧ m ∈ active ∧
      ∀ x ∈ active, x ≠ m → Before nodes m x := by
  obtain ⟨m, hm⟩ := lightest_isSome nodes hne
  exact ⟨m, by simp [takeLightest, hm], lightest_spec nodes hm⟩

/-! ### Nodes that a later merge does not change -/

theorem before_congr {nodes nodes' : List (Nat × Node)} {x y : Nat} (hx : nodeAt nodes' x = nodeAt nodes x)
    (hy : nodeAt nodes' y = nodeAt nodes y) : Before nodes' x y ↔ Before nodes x y := by
  simp only [Before, hx, hy]

theorem inCollection_congr {nodes nodes' : List (Nat × Node)} {k x : Nat}
    (h : ∀ i < 256 + k, nodeAt nodes' i = nodeAt nodes i) : InCollection nodes' k x ↔ InCollection nodes k x := by
  unfold InCollection
  have h2 : (∀ j < k, (nodeAt nodes' (256 + j)).left.toNat ≠ x ∧ (nodeAt nodes' (256 + j)).right.toNat ≠ x) ↔
      ∀ j < k, (nodeAt nodes (256 + j)).left.toNat ≠ x ∧ (nodeAt nodes (256 + j)).right.toNat ≠ x := by
    refine forall_congr' (fun j => imp_congr_right (fun hj => ?_))
    rw [h _ (by omega)]
  rw [h2]
  by_cases hx : x < 256
  · rw [h x (by omega)]
  · simp [hx]

theorem lt_of_inCollection {nodes : List (Nat × Node)} {k x : Nat} (h : InCollection nodes k x) : x < 256 + k := by
  rcases h.1 with h | h <;> omega

theorem mergeStep_congr {nodes nodes' : List (Nat × Node)} {k : Nat}
    (h : ∀ i ≤ 256 + k, nodeAt nodes' i = nodeAt nodes i) : MergeStep nodes' k ↔ MergeStep nodes k := by
  have hn := h (256 + k) (Nat.le_refl _)
  have hc : ∀ x, InCollection nodes' k x ↔ InCollection nodes k x :=
    fun x => inCollection_congr (fun i hi => h i (Nat.le_of_lt hi))
  unfold MergeStep
  simp only [hn, hc]
  refine and_congr_right (fun _ => and_congr_right (fun _ => and_congr_right (fun hl => and_congr_right (fun hr =>
    and_congr_right (fun _ => ?_)))))
  have hl' := h _ (Nat.le_of_lt (lt_of_inCollection hl))
  have hr' := h _ (Nat.le_of_lt (lt_of_inCollection hr))
  have hb : ∀ y x, nodeAt nodes' y = nodeAt nodes y → InCollection nodes k x → (Before nodes' y x ↔ Before nodes y x) :=
    fun y x hy hx => before_congr hy (h x (Nat.le_of_lt (lt_of_inCollection hx)))
  rw [hl', hr']
  refine and_congr (forall_congr' (fun x => ?_)) (and_congr (forall_congr' (fun x => ?_)) Iff.rfl)
  · exact imp_congr_right (fun hx => imp_congr_right (fun _ => hb _ x hl' hx))
  · exact imp_congr_right (fun hx => imp_congr_right (fun _ => imp_congr_right (fun _ => hb _ x hr' hx)))

/-! ### The merge loop -/

/-- What holds after `k` merges (R111, R112): the collection is `active`, of which no weight is lost. -/
structure Merging (t : List (Nat × Word)) (k : Nat) (nodes : List (Nat × Node)) (active : List Nat) : Prop where
  wf : tableWf Node.emptyRecord Config.nodeSlots nodes
  leaf : ∀ x < 256, nodeAt nodes x = if freqAt t x = 0 then Node.emptyRecord else leafNode t x
  merged : ∀ j < k, MergeStep nodes j
  empty : ∀ i, 256 + k ≤ i → nodeAt nodes i = Node.emptyRecord
  nodup : active.Nodup
  mem : ∀ x, x ∈ active ↔ InCollection nodes k x
  weight : ((alphabet t).map (fun x => (freqAt t x).toNat)).sum < 2 ^ 32 →
    (active.map (fun x => (nodeAt nodes x).weight.toNat)).sum = ((alphabet t).map (fun x => (freqAt t x).toNat)).sum
  exact : ((alphabet t).map (fun x => (freqAt t x).toNat)).sum < 2 ^ 32 →
    ∀ j < k, (nodeAt nodes (256 + j)).weight.toNat = (nodeAt nodes (nodeAt nodes (256 + j)).left.toNat).weight.toNat +
      (nodeAt nodes (nodeAt nodes (256 + j)).right.toNat).weight.toNat

theorem leafNode_ne (t : List (Nat × Word)) (x : Nat) : leafNode t x ≠ Node.emptyRecord := by
  intro h
  have := congrArg Node.kind h
  simp [leafNode, Node.emptyRecord] at this

theorem nodeAt_leaves_aux (t : List (Nat × Word)) (xs : List Nat) (nodes : List (Nat × Node)) (i : Nat) :
    nodeAt (xs.foldl (fun nodes s => nodePut nodes s (leafNode t s)) nodes) i =
      if i ∈ xs then leafNode t i else nodeAt nodes i := by
  induction xs generalizing nodes with
  | nil => simp
  | cons x rest ih =>
    rw [List.foldl_cons, ih, nodeAt_put]
    by_cases h1 : i ∈ rest
    · simp [h1]
    · by_cases h2 : i = x
      · subst h2; simp [h1]
      · simp [h1, h2]

/-- The leaves: one per symbol of the alphabet, in its own slot (R111). -/
theorem nodeAt_leaves (t : List (Nat × Word)) (i : Nat) :
    nodeAt (leaves t) i = if i < 256 ∧ freqAt t i ≠ 0 then leafNode t i else Node.emptyRecord := by
  rw [leaves, nodeAt_leaves_aux]
  simp only [mem_alphabet]
  rfl

theorem tableWf_leaves (t : List (Nat × Word)) : tableWf Node.emptyRecord Config.nodeSlots (leaves t) := by
  have : ∀ (xs : List Nat) (nodes : List (Nat × Node)), (∀ x ∈ xs, x < 256) →
      tableWf Node.emptyRecord Config.nodeSlots nodes →
      tableWf Node.emptyRecord Config.nodeSlots
        (xs.foldl (fun nodes s => nodePut nodes s (leafNode t s)) nodes) := by
    intro xs
    induction xs with
    | nil => exact fun _ _ h => h
    | cons x rest ih =>
      intro nodes hx h
      exact ih _ (fun y hy => hx y (by simp [hy]))
        (tableWf_put h (show x < 512 by have := hx x (by simp); omega) _)
  exact this _ _ (fun x hx => (mem_alphabet.1 hx).1) (tableWf_nil _ _)

/-- Before the first merge the collection is the alphabet (R111). -/
theorem merging_start (t : List (Nat × Word)) : Merging t 0 (leaves t) (alphabet t) where
  wf := tableWf_leaves t
  leaf := fun x hx => by
    rw [nodeAt_leaves]
    by_cases h : freqAt t x = 0 <;> simp [h, hx]
  merged := fun j hj => absurd hj (Nat.not_lt_zero _)
  empty := fun i hi => by rw [nodeAt_leaves, if_neg (fun h => by omega)]
  nodup := alphabet_nodup t
  mem := fun x => by
    rw [mem_alphabet, InCollection, nodeAt_leaves]
    constructor
    · rintro ⟨h1, h2⟩
      exact ⟨Or.inl ⟨h1, by rw [if_pos ⟨h1, h2⟩]; rfl⟩, fun j hj => absurd hj (Nat.not_lt_zero _)⟩
    · rintro ⟨⟨h1, h2⟩ | h, -⟩
      · by_cases h : freqAt t x = 0
        · rw [if_neg (fun hh => hh.2 h)] at h2
          simp [Node.emptyRecord] at h2
        · exact ⟨h1, h⟩
      · omega
  exact := fun _ j hj => absurd hj (Nat.not_lt_zero _)
  weight := by
    intro _
    congr 1
    apply List.map_congr_left
    intro x hx
    rw [nodeAt_leaves, if_pos (mem_alphabet.1 hx)]
    rfl

theorem sum_erase (f : Nat → Nat) {l : List Nat} {a : Nat} (h : a ∈ l) :
    (l.map f).sum = f a + ((l.erase a).map f).sum := by
  have := (List.perm_cons_erase h).map f
  rw [this.sum_eq]
  simp

/-- One more merge (R112). -/
theorem merging_step {t : List (Nat × Word)} {k : Nat} {nodes : List (Nat × Node)} {active : List Nat}
    (h : Merging t k nodes active) (hk : k < 255) (hlen : 2 ≤ active.length) :
    ∃ m1 m2, takeLightest nodes active = some (m1, active.erase m1) ∧
      takeLightest nodes (active.erase m1) = some (m2, (active.erase m1).erase m2) ∧
      Merging t (k + 1) (nodePut nodes (256 + k) (mergedNode nodes m1 m2))
        ((active.erase m1).erase m2 ++ [256 + k]) ∧
      ((active.erase m1).erase m2 ++ [256 + k]).length + 1 = active.length := by
  obtain ⟨m1, ht1, hm1, hmin1⟩ := takeLightest_spec nodes (active := active) (by intro hn; simp [hn] at hlen)
  have hlen1 : (active.erase m1).length = active.length - 1 := List.length_erase_of_mem hm1
  obtain ⟨m2, ht2, hm2, hmin2⟩ := takeLightest_spec nodes (active := active.erase m1)
    (by intro hn; rw [hn] at hlen1; simp at hlen1; omega)
  have hlen2 : ((active.erase m1).erase m2).length = (active.erase m1).length - 1 := List.length_erase_of_mem hm2
  refine ⟨m1, m2, ht1, ht2, ?_, by simp [hlen2, hlen1]; omega⟩
  have hm2a : m2 ∈ active := List.mem_of_mem_erase hm2
  have hne : m2 ≠ m1 := fun he => by
    rw [he, h.nodup.mem_erase_iff] at hm2
    exact hm2.1 rfl
  have hc1 := (h.mem m1).1 hm1
  have hc2 := (h.mem m2).1 hm2a
  have hl1 := lt_of_inCollection hc1
  have hl2 := lt_of_inCollection hc2
  have hn1 : (BitVec.ofNat 9 m1).toNat = m1 := by rw [BitVec.toNat_ofNat]; exact Nat.mod_eq_of_lt (by omega)
  have hn2 : (BitVec.ofNat 9 m2).toNat = m2 := by rw [BitVec.toNat_ofNat]; exact Nat.mod_eq_of_lt (by omega)
  have hkeep : ∀ i, i ≠ 256 + k → nodeAt (nodePut nodes (256 + k) (mergedNode nodes m1 m2)) i = nodeAt nodes i :=
    fun i hi => by rw [nodeAt_put, if_neg hi]
  have hnew : nodeAt (nodePut nodes (256 + k) (mergedNode nodes m1 m2)) (256 + k) = mergedNode nodes m1 m2 := by
    rw [nodeAt_put, if_pos rfl]
  generalize hN : nodePut nodes (256 + k) (mergedNode nodes m1 m2) = nodes' at hkeep hnew ⊢
  have hcol : ∀ x, InCollection nodes' k x ↔ InCollection nodes k x :=
    fun x => inCollection_congr (fun i hi => hkeep i (by omega))
  have herase : ∀ x, x ∈ (active.erase m1).erase m2 ↔ x ∈ active ∧ x ≠ m1 ∧ x ≠ m2 := by
    intro x
    rw [(h.nodup.erase m1).mem_erase_iff, h.nodup.mem_erase_iff]
    tauto
  have hbefore : ∀ y x, y < 256 + k → x < 256 + k → Before nodes y x → Before nodes' y x :=
    fun y x hy hx hb => (before_congr (hkeep y (by omega)) (hkeep x (by omega))).2 hb
  refine ⟨?_, ?_, ?_, ?_, ?_, ?_, ?_, ?_⟩
  · rw [← hN]
    exact tableWf_put h.wf (show 256 + k < 512 by omega) _
  · intro x hx
    rw [hkeep x (by omega)]
    exact h.leaf x hx
  · intro j hj
    by_cases hjk : j = k
    · subst hjk
      unfold MergeStep
      simp only [hnew, mergedNode, internalNode, hn1, hn2, hcol]
      refine ⟨trivial, trivial, hc1, hc2, ?_, ?_, ?_, ?_⟩
      · intro he
        have := congrArg BitVec.toNat he
        rw [hn1, hn2] at this
        exact hne this.symm
      · intro x hx hxne
        exact hbefore _ _ hl1 (lt_of_inCollection hx) (hmin1 x ((h.mem x).2 hx) hxne)
      · intro x hx hx1 hx2
        exact hbefore _ _ hl2 (lt_of_inCollection hx)
          (hmin2 x (h.nodup.mem_erase_iff.2 ⟨hx1, (h.mem x).2 hx⟩) hx2)
      · rw [hkeep m1 (by omega), hkeep m2 (by omega)]
    · exact (mergeStep_congr (fun i hi => hkeep i (by omega))).2 (h.merged j (by omega))
  · intro i hi
    rw [hkeep i (by omega)]
    exact h.empty i (by omega)
  · refine List.Nodup.append ((h.nodup.erase m1).erase m2) (List.nodup_singleton _) ?_
    intro x hx hx'
    rw [List.mem_singleton] at hx'
    have := lt_of_inCollection ((h.mem x).1 ((herase x).1 hx).1)
    omega
  · intro x
    rw [List.mem_append, herase, List.mem_singleton]
    unfold InCollection
    constructor
    · rintro (⟨hx, hx1, hx2⟩ | rfl)
      · have hxc := (hcol x).2 ((h.mem x).1 hx)
        have hxl := lt_of_inCollection hxc
        refine ⟨?_, fun j hj => ?_⟩
        · rcases hxc.1 with hh | hh
          · exact Or.inl hh
          · exact Or.inr ⟨hh.1, by omega⟩
        · by_cases hjk : j = k
          · subst hjk
            rw [hnew]
            simp only [mergedNode, internalNode, hn1, hn2]
            exact ⟨Ne.symm hx1, Ne.symm hx2⟩
          · exact hxc.2 j (by omega)
      · refine ⟨Or.inr ⟨by omega, by omega⟩, fun j hj => ?_⟩
        by_cases hjk : j = k
        · subst hjk
          rw [hnew]
          simp only [mergedNode, internalNode, hn1, hn2]
          exact ⟨by omega, by omega⟩
        · have hjm := h.merged j (by omega)
          rw [hkeep _ (by omega)]
          have ha := lt_of_inCollection hjm.2.2.1
          have hb := lt_of_inCollection hjm.2.2.2.1
          exact ⟨by omega, by omega⟩
    · rintro ⟨hx, hch⟩
      by_cases hxk : x = 256 + k
      · exact Or.inr hxk
      · left
        have hlast := hch k (by omega)
        rw [hnew] at hlast
        simp only [mergedNode, internalNode, hn1, hn2] at hlast
        refine ⟨(h.mem x).2 ((hcol x).1 ⟨?_, fun j hj => hch j (by omega)⟩), Ne.symm hlast.1, Ne.symm hlast.2⟩
        rcases hx with hx | hx
        · exact Or.inl hx
        · exact Or.inr ⟨hx.1, by omega⟩
  · intro hT
    have hw := h.weight hT
    rw [sum_erase _ hm1, sum_erase _ hm2] at hw
    have hmap : ((active.erase m1).erase m2).map (fun x => (nodeAt nodes' x).weight.toNat) =
        ((active.erase m1).erase m2).map (fun x => (nodeAt nodes x).weight.toNat) := by
      apply List.map_congr_left
      intro x hx
      have := lt_of_inCollection ((h.mem x).1 ((herase x).1 hx).1)
      simp only [hkeep x (by omega)]
    rw [List.map_append, List.sum_append, hmap, ← hw]
    simp only [List.map_cons, List.map_nil, List.sum_cons, List.sum_nil, hnew, mergedNode, internalNode, BitVec.toNat_add]
    omega
  · intro hT j hj
    by_cases hjk : j = k
    · subst hjk
      have hw := h.weight hT
      rw [sum_erase _ hm1, sum_erase _ hm2] at hw
      rw [hnew]
      simp only [mergedNode, internalNode, hn1, hn2, BitVec.toNat_add]
      rw [hkeep m1 (by omega), hkeep m2 (by omega)]
      omega
    · have hjm := h.merged j (by omega)
      have hl := lt_of_inCollection hjm.2.2.1
      have hr := lt_of_inCollection hjm.2.2.2.1
      rw [hkeep (256 + j) (by omega), hkeep _ (by omega), hkeep _ (by omega)]
      exact h.exact hT j (by omega)

/-- `n` more merges of a collection of `n + 1` members. -/
theorem mergeLoop_spec {t : List (Nat × Word)} (n k : Nat) {nodes : List (Nat × Node)} {active : List Nat}
    (h : Merging t k nodes active) (hn : active.length = n + 1) (hk : k + n ≤ 255) :
    ∃ root, Merging t (k + n) (mergeLoop n (256 + k) nodes active) [root] := by
  induction n generalizing k nodes active with
  | zero =>
    obtain ⟨a, rfl⟩ := List.length_eq_one_iff.1 hn
    exact ⟨a, by simpa [mergeLoop] using h⟩
  | succ n ih =>
    obtain ⟨m1, m2, ht1, ht2, hs, hl⟩ := merging_step h (by omega) (by omega)
    have := ih (k + 1) hs (by omega) (by omega)
    rw [mergeLoop]
    simp only [ht1, ht2]
    rw [show k + (n + 1) = k + 1 + n by omega]
    exact this

end Sys2Proof.Machine
end

