-- ==== Sys2Proof/Laws/Trees.lean ====
section
/-!
SUPPORT. The tree of a frequency table is a tree in the sense of spec 10_state.md R44, and what a valid tree's lists say
slot by slot.
-/

namespace Sys2Proof.Machine

open Sys2Proof.Claims

/-! ### Slots of a table in canonical form -/

theorem mem_keys_iff {nodes : List (Nat × Node)} (h : tableWf Node.emptyRecord Config.nodeSlots nodes) {x : Nat} :
    x ∈ nodes.map Prod.fst ↔ nodeAt nodes x ≠ Node.emptyRecord := by
  rw [List.mem_map]
  constructor
  · rintro ⟨c, hc, rfl⟩
    have : nodeAt nodes c.1 = c.2 := tableGet_of_mem h hc
    rw [this]
    exact (h.2 c hc).2
  · intro hne
    exact ⟨_, mem_of_tableGet_ne hne, rfl⟩

theorem mem_nodes_iff {nodes : List (Nat × Node)} (h : tableWf Node.emptyRecord Config.nodeSlots nodes) {c : Nat × Node} :
    c ∈ nodes ↔ nodeAt nodes c.1 = c.2 ∧ c.2 ≠ Node.emptyRecord := by
  constructor
  · intro hc
    exact ⟨tableGet_of_mem h hc, (h.2 c hc).2⟩
  · rintro ⟨h1, h2⟩
    have hg : tableGet Node.emptyRecord nodes c.1 = c.2 := h1
    have := mem_of_tableGet_ne (d := Node.emptyRecord) (t := nodes) (i := c.1) (by rw [hg]; exact h2)
    rw [hg] at this
    exact this

theorem keys_sorted {nodes : List (Nat × Node)} (h : tableWf Node.emptyRecord Config.nodeSlots nodes) :
    (nodes.map Prod.fst).Pairwise (· < ·) := by
  rw [List.pairwise_map]
  exact h.1

theorem mem_leafSlots_iff {nodes : List (Nat × Node)} (h : tableWf Node.emptyRecord Config.nodeSlots nodes) {x : Nat} :
    x ∈ leafSlots nodes ↔ (nodeAt nodes x).kind = .leaf := by
  rw [leafSlots, List.mem_map]
  constructor
  · rintro ⟨c, hc, rfl⟩
    rw [List.mem_filter, decide_eq_true_eq] at hc
    rw [((mem_nodes_iff h).1 hc.1).1]
    exact hc.2
  · intro hk
    refine ⟨(x, nodeAt nodes x), List.mem_filter.2 ⟨(mem_nodes_iff h).2 ⟨rfl, fun he => ?_⟩, decide_eq_true hk⟩, rfl⟩
    rw [show nodeAt nodes x = Node.emptyRecord from he] at hk
    cases hk

theorem leafSlots_sorted {nodes : List (Nat × Node)} (h : tableWf Node.emptyRecord Config.nodeSlots nodes) :
    (leafSlots nodes).Pairwise (· < ·) := by
  rw [leafSlots, List.pairwise_map]
  exact h.1.filter _

theorem mem_childSlots_iff {nodes : List (Nat × Node)} (h : tableWf Node.emptyRecord Config.nodeSlots nodes) {x : Nat} :
    x ∈ childSlots nodes ↔
      ∃ i, (nodeAt nodes i).kind = .internal ∧ ((nodeAt nodes i).left.toNat = x ∨ (nodeAt nodes i).right.toNat = x) := by
  rw [childSlots, List.mem_flatMap]
  constructor
  · rintro ⟨c, hc, hx⟩
    have hn := ((mem_nodes_iff h).1 hc).1
    by_cases hk : c.2.kind = .internal
    · rw [if_pos hk, List.mem_pair] at hx
      refine ⟨c.1, by rw [hn]; exact hk, ?_⟩
      rw [hn]
      exact hx.imp Eq.symm Eq.symm
    · rw [if_neg hk] at hx
      cases hx
  · rintro ⟨i, hk, hx⟩
    refine ⟨(i, nodeAt nodes i), (mem_nodes_iff h).2 ⟨rfl, fun he => ?_⟩, ?_⟩
    · rw [show nodeAt nodes i = Node.emptyRecord from he] at hk
      cases hk
    · rw [if_pos hk, List.mem_pair]
      exact hx.imp Eq.symm Eq.symm

/-! ### Two symbols or more -/

/-- A finished sequence of merges: N leaves, N - 1 merges, one member left (R112). -/
theorem merging_done {t : List (Nat × Word)} {nodes : List (Nat × Node)} {root : Nat} (n : Nat) (hn : n + 1 ≤ 255)
    (h : Merging t (n + 1) nodes [root]) : root = 256 + n := by
  have hin : InCollection nodes (n + 1) (256 + n) := by
    refine ⟨Or.inr ⟨by omega, by omega⟩, fun j hj => ?_⟩
    have hjm := h.merged j hj
    have hl := lt_of_inCollection hjm.2.2.1
    have hr := lt_of_inCollection hjm.2.2.2.1
    exact ⟨by omega, by omega⟩
  simpa [eq_comm] using (h.mem _).2 hin

/-- The slots that hold a record after `k` merges. -/
theorem merging_ne_empty {t : List (Nat × Word)} {k : Nat} {nodes : List (Nat × Node)} {active : List Nat}
    (h : Merging t k nodes active) (x : Nat) :
    nodeAt nodes x ≠ Node.emptyRecord ↔ (x < 256 ∧ freqAt t x ≠ 0) ∨ (256 ≤ x ∧ x < 256 + k) := by
  by_cases hx : x < 256
  · rw [h.leaf x hx]
    by_cases hf : freqAt t x = 0
    · rw [if_pos hf]
      refine iff_of_false (fun he => he rfl) ?_
      rintro (⟨-, hh⟩ | hh)
      · exact hh hf
      · omega
    · rw [if_neg hf]
      exact iff_of_true (leafNode_ne t x) (Or.inl ⟨hx, hf⟩)
  · by_cases hk : x < 256 + k
    · obtain ⟨j, rfl⟩ : ∃ j, x = 256 + j := ⟨x - 256, by omega⟩
      have := (h.merged j (by omega)).1
      simp only [show ¬ 256 + j < 256 by omega, false_and, false_or]
      refine iff_of_true (fun he => ?_) ⟨by omega, hk⟩
      rw [he] at this
      cases this
    · rw [h.empty x (by omega)]
      simp; omega

/-- The slots of the leaves after `k` merges. -/
theorem merging_leafSlots {t : List (Nat × Word)} {k : Nat} {nodes : List (Nat × Node)} {active : List Nat}
    (h : Merging t k nodes active) : leafSlots nodes = alphabet t := by
  refine sorted_ext (leafSlots_sorted h.wf) (alphabet_sorted t) (fun x => ?_)
  rw [mem_leafSlots_iff h.wf, mem_alphabet]
  by_cases hx : x < 256
  · rw [h.leaf x hx]
    by_cases hf : freqAt t x = 0
    · rw [if_pos hf]
      exact iff_of_false (fun he => by cases he) (fun he => he.2 hf)
    · rw [if_neg hf]
      exact iff_of_true rfl ⟨hx, hf⟩
  · refine iff_of_false (fun hk => ?_) (fun hh => hx hh.1)
    by_cases hlt : x < 256 + k
    · obtain ⟨j, rfl⟩ : ∃ j, x = 256 + j := ⟨x - 256, by omega⟩
      rw [(h.merged j (by omega)).1] at hk
      cases hk
    · rw [h.empty x (by omega)] at hk
      cases hk

/-- The internal nodes after `k` merges. -/
theorem merging_internal {t : List (Nat × Word)} {k : Nat} {nodes : List (Nat × Node)} {active : List Nat}
    (h : Merging t k nodes active) (i : Nat) : (nodeAt nodes i).kind = .internal ↔ ∃ j < k, i = 256 + j := by
  constructor
  · intro hk
    have hne : nodeAt nodes i ≠ Node.emptyRecord := fun he => by rw [he] at hk; cases hk
    rcases (merging_ne_empty h i).1 hne with ⟨hx, hf⟩ | ⟨h1, h2⟩
    · rw [h.leaf i hx, if_neg hf] at hk
      cases hk
    · exact ⟨i - 256, by omega, by omega⟩
  · rintro ⟨j, hj, rfl⟩
    exact (h.merged j hj).1

theorem merging_keys {t : List (Nat × Word)} {n : Nat} {nodes : List (Nat × Node)} {active : List Nat}
    (h : Merging t n nodes active) :
    nodes.map Prod.fst = alphabet t ++ (List.range n).map (256 + ·) := by
  refine sorted_ext (keys_sorted h.wf) ?_ (fun x => ?_)
  · rw [List.pairwise_append]
    refine ⟨alphabet_sorted t, ?_, fun a ha b hb => ?_⟩
    · rw [List.pairwise_map]
      exact List.pairwise_lt_range.imp (by omega)
    · obtain ⟨j, -, rfl⟩ := List.mem_map.1 hb
      have := (mem_alphabet.1 ha).1
      omega
  · rw [mem_keys_iff h.wf, merging_ne_empty h, List.mem_append, mem_alphabet, List.mem_map]
    simp only [List.mem_range]
    refine or_congr Iff.rfl ⟨fun hx => ⟨x - 256, by omega, by omega⟩, ?_⟩
    rintro ⟨j, hj, rfl⟩
    omega

/-- No node is the child of two merges. -/
theorem merging_childSlots_nodup {t : List (Nat × Word)} {n : Nat} {nodes : List (Nat × Node)} {active : List Nat}
    (h : Merging t n nodes active) : (childSlots nodes).Nodup := by
  rw [childSlots, List.nodup_flatMap]
  have hint : ∀ c ∈ nodes, c.2.kind = .internal → ∃ j < n, c.1 = 256 + j ∧ MergeStep nodes j ∧ nodeAt nodes (256 + j) = c.2 := by
    intro c hc hk
    have hn := ((mem_nodes_iff h.wf).1 hc).1
    obtain ⟨j, hj, hcj⟩ := (merging_internal h c.1).1 (by rw [hn]; exact hk)
    exact ⟨j, hj, hcj, h.merged j hj, hcj ▸ hn⟩
  constructor
  · intro c hc
    by_cases hk : c.2.kind = .internal
    · obtain ⟨j, -, -, hm, hn⟩ := hint c hc hk
      have hne := hm.2.2.2.2.1
      rw [hn] at hne
      rw [if_pos hk]
      simp only [List.nodup_cons, List.mem_singleton, List.not_mem_nil, not_false_eq_true, List.nodup_nil, and_true]
      exact fun he => hne (BitVec.eq_of_toNat_eq he)
    · rw [if_neg hk]
      exact List.nodup_nil
  · refine h.wf.1.imp_of_mem (fun {a b} ha hb hab => ?_)
    change List.Disjoint (if a.2.kind = .internal then [a.2.left.toNat, a.2.right.toNat] else [])
      (if b.2.kind = .internal then [b.2.left.toNat, b.2.right.toNat] else [])
    by_cases hka : a.2.kind = .internal
    · by_cases hkb : b.2.kind = .internal
      · obtain ⟨i, hi, hai, -, hna⟩ := hint a ha hka
        obtain ⟨j, hj, hbj, hm, hnb⟩ := hint b hb hkb
        rw [if_pos hka, if_pos hkb]
        intro x hx hx'
        have hl := hm.2.2.1.2 i (by omega)
        have hr := hm.2.2.2.1.2 i (by omega)
        rw [hna, hnb] at hl hr
        rw [List.mem_pair] at hx hx'
        omega
      · rw [if_neg hkb]
        exact fun x _ hx => absurd hx (List.not_mem_nil)
    · rw [if_neg hka]
      exact fun x hx _ => absurd hx (List.not_mem_nil)

/-- The tree after all merges (R44). -/
theorem merging_treeOk {t : List (Nat × Word)} {n : Nat} {nodes : List (Nat × Node)} (hn : n + 1 ≤ 255)
    (hN : (alphabet t).length = n + 2)
    (hT : ((alphabet t).map (fun x => (freqAt t x).toNat)).sum < 2 ^ 32) (h : Merging t (n + 1) nodes [256 + n]) :
    TreeOk nodes { valid := true, idx := BitVec.ofNat 9 (256 + n) } := by
  have hroot : (BitVec.ofNat 9 (256 + n)).toNat = 256 + n := by
    rw [BitVec.toNat_ofNat]
    exact Nat.mod_eq_of_lt (by omega)
  have hchild : ∀ x, x ∈ childSlots nodes ↔
      ∃ j < n + 1, (nodeAt nodes (256 + j)).left.toNat = x ∨ (nodeAt nodes (256 + j)).right.toNat = x := by
    intro x
    rw [mem_childSlots_iff h.wf]
    constructor
    · rintro ⟨i, hk, hx⟩
      obtain ⟨j, hj, rfl⟩ := (merging_internal h i).1 hk
      exact ⟨j, hj, hx⟩
    · rintro ⟨j, hj, hx⟩
      exact ⟨256 + j, (merging_internal h _).2 ⟨j, hj, rfl⟩, hx⟩
  refine ⟨?_, ?_, ?_, ?_, merging_childSlots_nodup h, ?_, ?_⟩
  · rw [merging_leafSlots h, hN, merging_keys h]
    simp [internalSlots, unusedSlots, Config.symbols]
  · intro c hc
    obtain ⟨hnode, hne⟩ := (mem_nodes_iff h.wf).1 hc
    have hcases := (merging_ne_empty h c.1).1 (by rw [hnode]; exact hne)
    simp only [NodeOk, Config.symbols, Config.unusedSlot]
    refine ⟨fun hx => ?_, fun hx hx' => ?_, fun hx => ?_⟩
    · rw [h.leaf c.1 hx] at hnode
      have hf : freqAt t c.1 ≠ 0 := by
        rcases hcases with hh | hh
        · exact hh.2
        · omega
      rw [if_neg hf] at hnode
      rw [← hnode]
      refine ⟨rfl, ?_, rfl, rfl⟩
      simp only [leafNode, BitVec.toNat_ofNat]
      exact Nat.mod_eq_of_lt hx
    · obtain ⟨j, hj, hcj⟩ : ∃ j < n + 1, c.1 = 256 + j := ⟨c.1 - 256, by omega, by omega⟩
      have hm := h.merged j hj
      have he := h.exact hT j hj
      have hl := lt_of_inCollection hm.2.2.1
      have hr := lt_of_inCollection hm.2.2.2.1
      rw [hcj] at hnode
      rw [hnode] at he hl hr
      refine ⟨hnode ▸ hm.1, hnode ▸ hm.2.1, Or.inl (by omega), Or.inl (by omega), he⟩
    · omega
  · rw [merging_leafSlots h, hN]
    simp [rootOf, Config.symbols]
    congr 1
  · intro h1
    rw [merging_leafSlots h, hN] at h1
    omega
  · intro c hc
    obtain ⟨hnode, hne⟩ := (mem_nodes_iff h.wf).1 hc
    have hcases := (merging_ne_empty h c.1).1 (by rw [hnode]; exact hne)
    have hmem := h.mem c.1
    rw [List.mem_singleton] at hmem
    rw [hchild, hroot, show (c.1 ≠ 256 + n) ↔ ¬InCollection nodes (n + 1) c.1 from hmem.not, InCollection]
    have hkind : (c.1 < 256 ∧ (nodeAt nodes c.1).kind = .leaf) ∨ (256 ≤ c.1 ∧ c.1 < 256 + (n + 1)) := by
      rcases hcases with ⟨hx, hf⟩ | hh
      · exact Or.inl ⟨hx, by rw [h.leaf _ hx, if_neg hf]; rfl⟩
      · exact Or.inr hh
    simp only [hkind, true_and, not_forall, not_and_or, not_not, exists_prop]
  · intro x hx
    rw [mem_keys_iff h.wf, merging_ne_empty h]
    obtain ⟨j, hj, hx⟩ := (hchild x).1 hx
    have hm := h.merged j hj
    have hin : InCollection nodes j x := by
      rcases hx with rfl | rfl
      · exact hm.2.2.1
      · exact hm.2.2.2.1
    rcases hin.1 with ⟨hx, hk⟩ | hh
    · refine Or.inl ⟨hx, fun hf => ?_⟩
      rw [h.leaf x hx, if_pos hf] at hk
      cases hk
    · exact Or.inr ⟨hh.1, by omega⟩

/-! ### One symbol, and none -/

theorem tableWf_single (t : List (Nat × Word)) (x : Nat) :
    tableWf Node.emptyRecord Config.nodeSlots
      (nodePut (nodePut (leaves t) Config.unusedSlot unusedNode) Config.symbols
        (internalNode (freqAt t x) x Config.unusedSlot)) :=
  tableWf_put (tableWf_put (tableWf_leaves t) (show 511 < 512 by decide) _) (show 256 < 512 by decide) _

/-- The tree of a single symbol, slot by slot (R115). -/
theorem treeOf_single {t : List (Nat × Word)} {x : Nat} (h : alphabet t = [x]) :
    (treeOf t).1 = [(x, leafNode t x), (256, internalNode (freqAt t x) x 511), (511, unusedNode)] ∧
      (treeOf t).2 = { valid := true, idx := 256 } := by
  have hx : x < 256 := (mem_alphabet.1 (h ▸ List.mem_singleton.2 rfl : x ∈ alphabet t)).1
  have halone : ∀ i, (i < 256 ∧ freqAt t i ≠ 0) ↔ i = x := by
    intro i
    rw [← mem_alphabet, h, List.mem_singleton]
  rw [treeOf, h]
  refine ⟨?_, rfl⟩
  have hwl : tableWf Node.emptyRecord Config.nodeSlots
      [(x, leafNode t x), (256, internalNode (freqAt t x) x 511), (511, unusedNode)] := by
    refine ⟨?_, ?_⟩
    · simp only [CellsSorted, List.pairwise_cons, List.mem_cons, List.not_mem_nil, or_false, forall_eq_or_imp, forall_eq]
      simp
      omega
    · simp only [List.mem_cons, List.not_mem_nil, or_false, forall_eq_or_imp, forall_eq, Config.nodeSlots]
      refine ⟨⟨by omega, leafNode_ne t x⟩, ⟨by omega, fun he => ?_⟩, by omega, by decide⟩
      cases congrArg Node.kind he
  refine table_ext (tableWf_single t x) hwl (fun i => ?_)
  change nodeAt (nodePut (nodePut (leaves t) 511 unusedNode) 256 (internalNode (freqAt t x) x 511)) i =
    nodeAt [(x, leafNode t x), (256, internalNode (freqAt t x) x 511), (511, unusedNode)] i
  rw [nodeAt_put, nodeAt_put, nodeAt_leaves]
  simp only [halone]
  simp only [nodeAt, tableGet, cellFind]
  by_cases h1 : i = 256
  · subst h1
    simp [show x ≠ 256 by omega]
  · by_cases h2 : i = 511
    · subst h2
      simp [show x ≠ 511 by omega]
    · by_cases h3 : i = x
      · subst h3
        simp [h1, h2]
      · simp [h1, h2, h3, Ne.symm h1, Ne.symm h2, Ne.symm h3]

theorem treeOf_empty {t : List (Nat × Word)} (h : alphabet t = []) : treeOf t = ([], Root.zero) := by
  rw [treeOf, h]

/-- Two symbols or more (R112). -/
theorem treeOf_merged {t : List (Nat × Word)} {n : Nat} (h : (alphabet t).length = n + 2) :
    Merging t (n + 1) (treeOf t).1 [256 + n] ∧ (treeOf t).2 = { valid := true, idx := BitVec.ofNat 9 (256 + n) } := by
  have hle := alphabet_length_le t
  obtain ⟨root, hr⟩ := mergeLoop_spec (n + 1) 0 (merging_start t) h (by omega)
  rw [Nat.zero_add] at hr
  have hroot := merging_done n (by omega) hr
  subst hroot
  rw [treeOf]
  match hal : alphabet t with
  | [] => simp [hal] at h
  | [_] => simp [hal] at h
  | s1 :: s2 :: rest =>
    have hl : rest.length = n := by simpa [hal] using h
    rw [hal] at hr
    simp only [hl, Config.symbols]
    exact ⟨hr, trivial⟩

/-- The tree of any frequency table whose counts do not wrap is a tree in the sense of R44. -/
theorem treeOf_ok {t : List (Nat × Word)} (hT : ((alphabet t).map (fun x => (freqAt t x).toNat)).sum < 2 ^ 32) :
    tableWf Node.emptyRecord Config.nodeSlots (treeOf t).1 ∧ TreeOk (treeOf t).1 (treeOf t).2 ∧
      leafSlots (treeOf t).1 = alphabet t := by
  have hle := alphabet_length_le t
  match hlen : (alphabet t).length with
  | 0 =>
    have h0 : alphabet t = [] := List.length_eq_zero_iff.1 hlen
    rw [treeOf_empty h0, h0]
    exact ⟨tableWf_nil _ _, ⟨rfl, by simp, rfl, by simp [leafSlots], List.nodup_nil, by simp, by simp [childSlots]⟩, rfl⟩
  | 1 =>
    obtain ⟨x, hx⟩ := List.length_eq_one_iff.1 hlen
    obtain ⟨h1, h2⟩ := treeOf_single hx
    have hlt : x < 256 := (mem_alphabet.1 (hx ▸ List.mem_singleton.2 rfl : x ∈ alphabet t)).1
    have hwf : tableWf Node.emptyRecord Config.nodeSlots (treeOf t).1 := by
      rw [treeOf, hx]
      exact tableWf_single t x
    have hx9 : (BitVec.ofNat 9 x).toNat = x := by rw [BitVec.toNat_ofNat]; exact Nat.mod_eq_of_lt (by omega)
    have hls : leafSlots (treeOf t).1 = [x] := by
      rw [h1]
      simp [leafSlots, leafNode, internalNode, unusedNode]
    have hcs : childSlots (treeOf t).1 = [x, 511] := by
      rw [h1]
      simp [childSlots, leafNode, internalNode, unusedNode, hx9]
    refine ⟨hwf, ⟨?_, ?_, ?_, ?_, ?_, ?_, ?_⟩, hls.trans hx.symm⟩
    · rw [hls, h1]
      rfl
    · rw [h1]
      simp only [List.mem_cons, List.not_mem_nil, or_false, forall_eq_or_imp, forall_eq, NodeOk, Config.symbols,
        Config.unusedSlot]
      refine ⟨⟨fun _ => ⟨rfl, ?_, rfl, rfl⟩, by omega, by omega⟩, ⟨by omega, fun _ _ => ⟨rfl, rfl, ?_, ?_, ?_⟩, by omega⟩,
        by omega, by omega, fun _ => trivial⟩
      · simp only [leafNode, BitVec.toNat_ofNat]
        exact Nat.mod_eq_of_lt hlt
      · simp only [internalNode, hx9]
        omega
      · exact Or.inr rfl
      · simp only [internalNode, hx9]
        simp only [nodeAt, tableGet, cellFind]
        simp [show x ≠ 511 by omega, leafNode, unusedNode]
    · rw [hls, h2]
      rfl
    · intro _
      rw [h1]
      simp [nodeAt, tableGet, cellFind, show x ≠ 256 by omega, Config.symbols, Config.unusedSlot, internalNode]
    · rw [hcs]
      simp
      omega
    · rw [hcs, h2, h1]
      simp
      omega
    · rw [hcs, h1]
      simp
  | n + 2 =>
    obtain ⟨hm, hr⟩ := treeOf_merged hlen
    rw [hr]
    exact ⟨hm.wf, merging_treeOk (by omega) hlen hT hm, merging_leafSlots hm⟩

end Sys2Proof.Machine
end

