-- ==== Sys2Proof/Laws/Coding.lean ====
section
/-!
SUPPORT. Codes: a record made from a path gives the path back (spec 10_state.md R45); the traversal of GENCODE records the
paths to the leaves (42_gencode.md R130 to R132) and ends in a tree of R44; the bits of a code lead the walk of UNPACK to its
symbol (44_unpack.md R158).
-/

namespace Sys2Proof.Machine

open Sys2Proof.Claims

/-! ### Records and paths -/

theorem bitsValue_lt (bs : List Bool) : bitsValue bs < 2 ^ bs.length := by
  induction bs with
  | nil => simp [bitsValue]
  | cons b rest ih =>
    rw [bitsValue, List.length_cons, Nat.pow_succ]
    cases b <;> simp <;> omega

theorem bitsValue_testBit (bs : List Bool) (j : Nat) : (bitsValue bs).testBit j = bs.getD j false := by
  induction bs generalizing j with
  | nil => simp [bitsValue]
  | cons b rest ih =>
    rw [bitsValue]
    cases j with
    | zero => cases b <;> simp [Nat.testBit_zero, Nat.add_mod]
    | succ j =>
      rw [Nat.testBit_succ, show (b.toNat + 2 * bitsValue rest) / 2 = bitsValue rest by
        have := b.toNat_lt
        omega, ih]
      rfl

theorem ofPath_len {path : List Bool} (h : path.length < 256) : (Code.ofPath path).len.toNat = path.length := by
  simp only [Code.ofPath, BitVec.toNat_ofNat]
  exact Nat.mod_eq_of_lt (by omega)

theorem ofPath_bits_lt {path : List Bool} (h : path.length < 256) :
    (Code.ofPath path).bits.toNat < 2 ^ (Code.ofPath path).len.toNat := by
  rw [ofPath_len h]
  simp only [Code.ofPath, BitVec.toNat_ofNat]
  exact Nat.lt_of_le_of_lt (Nat.mod_le _ _) (bitsValue_lt path)

/-- The bit sequence of a record is the path it was made from (R130). -/
theorem sequence_ofPath {path : List Bool} (h : path.length < 256) : (Code.ofPath path).sequence = path := by
  rw [Code.sequence, ofPath_len h]
  apply List.ext_getElem
  · simp
  · intro j h1 h2
    simp only [List.getElem_map, List.getElem_range, Code.ofPath]
    rw [BitVec.getLsbD_ofNat, bitsValue_testBit, List.getD_eq_getElem _ _ h2]
    simp
    omega

theorem ofPath_ne (path : List Bool) : Code.ofPath path ≠ Code.noCode := fun h => by cases congrArg Code.valid h

theorem sequence_length (c : Code) : c.sequence.length = c.len.toNat := by simp [Code.sequence]

/-! ### Paths in a tree -/

theorem descend_append (nodes : List (Nat × Node)) (n : NodeIdx) (p q : List Bool) :
    descend nodes n (p ++ q) = (descend nodes n p).bind (fun m => descend nodes m q) := by
  induction p generalizing n with
  | nil => rfl
  | cons b rest ih =>
    simp only [List.cons_append, descend]
    split
    · exact ih _
    · rfl

/-- A path from `n` to a leaf of symbol `x`. -/
def Reaches (nodes : List (Nat × Node)) (n : NodeIdx) (p : List Bool) (x : Nat) : Prop :=
  ∃ m, descend nodes n p = some m ∧ (nodeAt nodes m.toNat).kind = .leaf ∧ (nodeAt nodes m.toNat).sym.toNat = x

theorem reaches_nil {nodes : List (Nat × Node)} {n : NodeIdx} {x : Nat} :
    Reaches nodes n [] x ↔ (nodeAt nodes n.toNat).kind = .leaf ∧ (nodeAt nodes n.toNat).sym.toNat = x := by
  simp [Reaches, descend]

theorem reaches_cons {nodes : List (Nat × Node)} {n : NodeIdx} {b : Bool} {p : List Bool} {x : Nat} :
    Reaches nodes n (b :: p) x ↔
      (nodeAt nodes n.toNat).kind = .internal ∧ Reaches nodes (childOf (nodeAt nodes n.toNat) b) p x := by
  unfold Reaches
  rw [descend]
  split
  · rename_i h
    simp [h]
  · rename_i h
    simp [h]

/-! ### The traversal -/

/-- What the traversal leaves at every symbol: the record of a path to its leaf, or the old record where there is none. -/
theorem visit_spec {nodes : List (Nat × Node)} (d : Nat) {n : NodeIdx} {path : List Bool} {table table' : List (Nat × Code)}
    (h : visit nodes d n path table = some table') (x : Nat) :
    (codeAt table' x = codeAt table x ∧ ∀ p, ¬ Reaches nodes n p x) ∨
      ∃ p, Reaches nodes n p x ∧ p.length ≤ d ∧ codeAt table' x = Code.ofPath (path ++ p) := by
  have hstop : (nodeAt nodes n.toNat).kind ≠ .leaf → (nodeAt nodes n.toNat).kind ≠ .internal → ∀ p, ¬ Reaches nodes n p x := by
    intro h1 h2 p hp
    cases p with
    | nil => exact h1 (reaches_nil.1 hp).1
    | cons b p => exact h2 (reaches_cons.1 hp).1
  induction d generalizing n path table table' with
  | zero =>
    rw [visit.eq_def] at h
    cases hk : (nodeAt nodes n.toNat).kind with
    | leaf =>
      simp only [hk, Option.some.injEq] at h
      subst h
      rw [codeAt_put]
      by_cases hx : x = (nodeAt nodes n.toNat).sym.toNat
      · right
        exact ⟨[], reaches_nil.2 ⟨hk, hx.symm⟩, Nat.le_refl _, by rw [if_pos hx, List.append_nil]⟩
      · left
        refine ⟨if_neg hx, fun p hp => ?_⟩
        cases p with
        | nil => exact hx (reaches_nil.1 hp).2.symm
        | cons b p => exact absurd (reaches_cons.1 hp).1 (by simp [hk])
    | internal => simp [hk] at h
    | unused =>
      simp only [hk, Option.some.injEq] at h
      exact Or.inl ⟨by rw [h], hstop (by simp [hk]) (by simp [hk])⟩
    | empty =>
      simp only [hk, Option.some.injEq] at h
      exact Or.inl ⟨by rw [h], hstop (by simp [hk]) (by simp [hk])⟩
  | succ d ih =>
    rw [visit.eq_def] at h
    cases hk : (nodeAt nodes n.toNat).kind with
    | leaf =>
      simp only [hk, Option.some.injEq] at h
      subst h
      rw [codeAt_put]
      by_cases hx : x = (nodeAt nodes n.toNat).sym.toNat
      · right
        exact ⟨[], reaches_nil.2 ⟨hk, hx.symm⟩, Nat.zero_le _, by rw [if_pos hx, List.append_nil]⟩
      · left
        refine ⟨if_neg hx, fun p hp => ?_⟩
        cases p with
        | nil => exact hx (reaches_nil.1 hp).2.symm
        | cons b p => exact absurd (reaches_cons.1 hp).1 (by simp [hk])
    | internal =>
      simp only [hk] at h
      cases hl : visit nodes d (nodeAt nodes n.toNat).left (path ++ [false]) table with
      | none => simp [hl] at h
      | some t1 =>
        simp only [hl] at h
        have hstop' : ∀ m : NodeIdx, (nodeAt nodes m.toNat).kind ≠ .leaf → (nodeAt nodes m.toNat).kind ≠ .internal →
            ∀ p, ¬ Reaches nodes m p x := by
          intro m h1 h2 p hp
          cases p with
          | nil => exact h1 (reaches_nil.1 hp).1
          | cons b p => exact h2 (reaches_cons.1 hp).1
        rcases ih h (hstop' _) with ⟨h2, hn2⟩ | ⟨p, hp, hlen, hc⟩
        · rcases ih hl (hstop' _) with ⟨h1, hn1⟩ | ⟨p, hp, hlen, hc⟩
          · refine Or.inl ⟨h2.trans h1, fun p hp => ?_⟩
            cases p with
            | nil => exact absurd (reaches_nil.1 hp).1 (by simp [hk])
            | cons b p =>
              have := (reaches_cons.1 hp).2
              cases b
              · exact hn1 p this
              · exact hn2 p this
          · exact Or.inr ⟨false :: p, reaches_cons.2 ⟨hk, hp⟩, by simp; omega, by rw [h2, hc, List.append_assoc]; rfl⟩
        · exact Or.inr ⟨true :: p, reaches_cons.2 ⟨hk, hp⟩, by simp; omega, by rw [hc, List.append_assoc]; rfl⟩
    | unused =>
      simp only [hk, Option.some.injEq] at h
      exact Or.inl ⟨by rw [h], hstop (by simp [hk]) (by simp [hk])⟩
    | empty =>
      simp only [hk, Option.some.injEq] at h
      exact Or.inl ⟨by rw [h], hstop (by simp [hk]) (by simp [hk])⟩

/-- The traversal keeps the table's form. -/
theorem tableWf_visit {nodes : List (Nat × Node)} (d : Nat) {n : NodeIdx} {path : List Bool} {table table' : List (Nat × Code)}
    (hw : tableWf Code.noCode Config.symbols table) (h : visit nodes d n path table = some table') :
    tableWf Code.noCode Config.symbols table' := by
  have hput : tableWf Code.noCode Config.symbols
      (codePut table (nodeAt nodes n.toNat).sym.toNat (Code.ofPath path)) :=
    tableWf_put hw (nodeAt nodes n.toNat).sym.isLt _
  induction d generalizing n path table table' with
  | zero =>
    rw [visit.eq_def] at h
    split at h
    · cases h; exact hput
    · cases h
    · cases h; exact hw
    · cases h; exact hw
  | succ d ih =>
    rw [visit.eq_def] at h
    split at h
    · cases h; exact hput
    · simp only at h
      split at h
      · cases h
      · rename_i t1 hl
        have h1 := ih hw hl (tableWf_put hw (BitVec.isLt _) _)
        exact ih h1 h (tableWf_put h1 (BitVec.isLt _) _)
    · cases h; exact hw
    · cases h; exact hw

/-! ### In a tree -/

/-- What R44 says of the record in a slot. -/
theorem treeOk_node {nodes : List (Nat × Node)} {root : Root} (hw : tableWf Node.emptyRecord Config.nodeSlots nodes)
    (ht : TreeOk nodes root) {i : Nat} (hne : nodeAt nodes i ≠ Node.emptyRecord) : NodeOk nodes (i, nodeAt nodes i) :=
  ht.2.1 _ ((mem_nodes_iff hw).2 ⟨rfl, hne⟩)

/-- The internal nodes of a tree: their slots, and that both children lie below or in the unused slot. -/
theorem treeOk_internal {nodes : List (Nat × Node)} {root : Root} (hw : tableWf Node.emptyRecord Config.nodeSlots nodes)
    (ht : TreeOk nodes root) {i : Nat} (hk : (nodeAt nodes i).kind = .internal) (b : Bool) :
    256 ≤ i ∧ i < 511 ∧
      ((childOf (nodeAt nodes i) b).toNat < i ∨ (childOf (nodeAt nodes i) b).toNat = 511) := by
  have hne : nodeAt nodes i ≠ Node.emptyRecord := fun he => by rw [he] at hk; cases hk
  obtain ⟨h1, h2, h3⟩ := treeOk_node hw ht hne
  simp only [Config.symbols, Config.unusedSlot] at h1 h2 h3
  have hlo : 256 ≤ i := by
    by_contra hlt
    have := (h1 (by omega)).1
    rw [hk] at this
    cases this
  have hhi : i < 511 := by
    by_contra hlt
    have := h3 (by omega)
    rw [this] at hk
    cases hk
  have := h2 hlo hhi
  refine ⟨hlo, hhi, ?_⟩
  cases b
  · exact this.2.2.1
  · exact this.2.2.2.1

/-- A leaf of a tree stands in the slot of its symbol. -/
theorem treeOk_leaf {nodes : List (Nat × Node)} {root : Root} (hw : tableWf Node.emptyRecord Config.nodeSlots nodes)
    (ht : TreeOk nodes root) {i : Nat} (hk : (nodeAt nodes i).kind = .leaf) :
    i < 256 ∧ (nodeAt nodes i).sym.toNat = i := by
  have hne : nodeAt nodes i ≠ Node.emptyRecord := fun he => by rw [he] at hk; cases hk
  obtain ⟨h1, h2, h3⟩ := treeOk_node hw ht hne
  simp only [Config.symbols, Config.unusedSlot] at h1 h2 h3
  by_cases hlt : i < 256
  · exact ⟨hlt, (h1 hlt).2.1⟩
  · exfalso
    by_cases hhi : i < 511
    · rw [(h2 (by omega) hhi).1] at hk
      cases hk
    · rw [h3 (by omega)] at hk
      cases hk

/-- The traversal of a tree ends within the bound (R113). -/
theorem visit_isSome {nodes : List (Nat × Node)} {root : Root} (hw : tableWf Node.emptyRecord Config.nodeSlots nodes)
    (ht : TreeOk nodes root) (d : Nat) (n : NodeIdx) (path : List Bool) (table : List (Nat × Code))
    (hd : (nodeAt nodes n.toNat).kind = .internal → n.toNat < 256 + d) : ∃ table', visit nodes d n path table = some table' := by
  induction d generalizing n path table with
  | zero =>
    rw [visit.eq_def]
    split
    · exact ⟨_, rfl⟩
    · rename_i hk
      have h1 := hd hk
      have h2 := (treeOk_internal hw ht hk false).1
      omega
    · exact ⟨_, rfl⟩
    · exact ⟨_, rfl⟩
  | succ d ih =>
    rw [visit.eq_def]
    split
    · exact ⟨_, rfl⟩
    · rename_i hk
      have hchild : ∀ b, (nodeAt nodes (childOf (nodeAt nodes n.toNat) b).toNat).kind = .internal →
          (childOf (nodeAt nodes n.toNat) b).toNat < 256 + d := by
        intro b hkb
        have h1 := hd hk
        have h2 := treeOk_internal hw ht hk b
        have h3 := treeOk_internal hw ht hkb b
        omega
      obtain ⟨t1, h1⟩ := ih (nodeAt nodes n.toNat).left (path ++ [false]) table (hchild false)
      obtain ⟨t2, h2⟩ := ih (nodeAt nodes n.toNat).right (path ++ [true]) t1 (hchild true)
      exact ⟨t2, by simp only [h1, h2]⟩
    · exact ⟨_, rfl⟩
    · exact ⟨_, rfl⟩

/-- The root of a tree that has one is an internal node (R44 item 3). -/
theorem treeOk_root {nodes : List (Nat × Node)} {root : Root} (hw : tableWf Node.emptyRecord Config.nodeSlots nodes)
    (ht : TreeOk nodes root) :
    (root.valid = false ∧ nodes = []) ∨
      (root.valid = true ∧ (nodeAt nodes root.idx.toNat).kind = .internal ∧ 256 ≤ root.idx.toNat ∧ root.idx.toNat < 511) := by
  have hkeys := ht.1
  have hroot := ht.2.2.1
  have hle : (leafSlots nodes).length ≤ 256 := by
    have hsub : ∀ x ∈ leafSlots nodes, x ∈ List.range 256 := fun x hx =>
      List.mem_range.2 (treeOk_leaf hw ht ((mem_leafSlots_iff hw).1 hx)).1
    have hnd : (leafSlots nodes).Nodup := (leafSlots_sorted hw).imp (fun h => Nat.ne_of_lt h)
    simpa using (hnd.subperm hsub).length_le
  generalize hn : (leafSlots nodes).length = n at hkeys hroot hle
  match n with
  | 0 =>
    left
    rw [hroot]
    rw [List.length_eq_zero_iff.1 hn] at hkeys
    refine ⟨rfl, ?_⟩
    simpa [internalSlots, unusedSlots] using hkeys
  | n + 1 =>
    right
    have hidx : ∃ r, root = { valid := true, idx := BitVec.ofNat 9 r } ∧ 256 ≤ r ∧ r < 511 ∧ r ∈ internalSlots (n + 1) := by
      cases n with
      | zero => exact ⟨256, by rw [hroot]; rfl, by omega, by omega, by simp [internalSlots, Config.symbols]⟩
      | succ n =>
        refine ⟨256 + n, by rw [hroot]; simp [rootOf, Config.symbols]; congr 1, by omega, by omega, ?_⟩
        simp only [internalSlots, Config.symbols]
        rw [if_neg (by omega), List.mem_map]
        exact ⟨n, by simp, rfl⟩
    obtain ⟨r, hr, h1, h2, h3⟩ := hidx
    have hr9 : (BitVec.ofNat 9 r).toNat = r := by rw [BitVec.toNat_ofNat]; exact Nat.mod_eq_of_lt (by omega)
    subst hr
    refine ⟨rfl, ?_, by simp only [hr9]; omega, by simp only [hr9]; omega⟩
    simp only [hr9]
    have hmem : r ∈ nodes.map Prod.fst := by
      rw [hkeys]
      simp [h3]
    have hok := treeOk_node hw ht ((mem_keys_iff hw).1 hmem)
    exact (hok.2.1 h1 h2).1

/-- Every slot of a tree but the unused leaf's is reached from the root (R44 item 4). -/
theorem treeOk_reaches {nodes : List (Nat × Node)} {root : Root} (hw : tableWf Node.emptyRecord Config.nodeSlots nodes)
    (ht : TreeOk nodes root) (k : Nat) (i : Nat) (hk : 512 ≤ i + k) (hi : i < 511) (hm : i ∈ nodes.map Prod.fst) :
    ∃ p, descend nodes root.idx p = some (BitVec.ofNat 9 i) := by
  induction k generalizing i with
  | zero => omega
  | succ k ih =>
    by_cases hr : i = root.idx.toNat
    · exact ⟨[], by simp [descend, hr]⟩
    · obtain ⟨c, hc, hci⟩ := List.mem_map.1 hm
      have hch := (ht.2.2.2.2.2.1 c hc).2 (by rw [hci]; exact hr)
      rw [hci, mem_childSlots_iff hw] at hch
      obtain ⟨j, hkj, hj⟩ := hch
      obtain ⟨b, hb⟩ : ∃ b, (childOf (nodeAt nodes j) b).toNat = i := by
        rcases hj with hj | hj
        · exact ⟨false, hj⟩
        · exact ⟨true, hj⟩
      obtain ⟨h1, h2, h3⟩ := treeOk_internal hw ht hkj b
      rw [hb] at h3
      have hjm : j ∈ nodes.map Prod.fst := (mem_keys_iff hw).2 (fun he => by rw [he] at hkj; cases hkj)
      obtain ⟨p, hp⟩ := ih j (by omega) h2 hjm
      have hj9 : (BitVec.ofNat 9 j).toNat = j := by rw [BitVec.toNat_ofNat]; exact Nat.mod_eq_of_lt (by omega)
      refine ⟨p ++ [b], ?_⟩
      rw [descend_append, hp]
      simp only [Option.bind_some, descend, hj9, if_pos hkj]
      rw [← hb]
      simp

/-! ### The code table of a tree -/

/-- GENCODE on a tree of R44: it ends, and what it leaves is a code table of R46 (R130, R132). -/
theorem codeTable_ok {nodes : List (Nat × Node)} {root : Root} (hw : tableWf Node.emptyRecord Config.nodeSlots nodes)
    (ht : TreeOk nodes root) :
    ∃ code, codeTable nodes root = some code ∧ tableWf Code.noCode Config.symbols code ∧ CodeOk nodes root code := by
  rcases treeOk_root hw ht with ⟨hv, rfl⟩ | ⟨hv, hkr, hr1, hr2⟩
  · exact ⟨[], by simp [codeTable, hv], tableWf_nil _ _, rfl, by simp⟩
  · obtain ⟨code, hcode⟩ := visit_isSome hw ht Config.maxCodeLen root.idx [] [] (fun _ => by simp only [Config.maxCodeLen]; omega)
    have hwc := tableWf_visit Config.maxCodeLen (tableWf_nil _ _) hcode
    have hspec := visit_spec Config.maxCodeLen hcode
    have hpath : ∀ x, codeAt code x ≠ Code.noCode → ∃ p : List Bool, p.length ≤ 255 ∧ 1 ≤ p.length ∧
        codeAt code x = Code.ofPath p ∧ x < 256 ∧ (nodeAt nodes x).kind = .leaf ∧
        descend nodes root.idx p = some (BitVec.ofNat 9 x) := by
      intro x hx
      rcases hspec x with ⟨h, -⟩ | ⟨p, ⟨m, hd, hk, hs⟩, hlen, hc⟩
      · exact absurd h hx
      · obtain ⟨hm, hsm⟩ := treeOk_leaf hw ht hk
        have hxm : x = m.toNat := hs.symm.trans hsm
        refine ⟨p, hlen, ?_, by simpa using hc, by omega, by rw [hxm]; exact hk, ?_⟩
        · cases p with
          | nil =>
            simp only [descend, Option.some.injEq] at hd
            rw [← hd, hkr] at hk
            cases hk
          | cons b p => simp
        · rw [hd, hxm]
          simp
    refine ⟨code, by rw [codeTable, if_pos hv]; exact hcode, hwc, ?_, ?_⟩
    · refine sorted_ext (List.pairwise_map.2 hwc.1) (leafSlots_sorted hw) (fun x => ?_)
      rw [mem_leafSlots_iff hw, List.mem_map]
      constructor
      · rintro ⟨c, hc, rfl⟩
        have hcc : codeAt code c.1 = c.2 := tableGet_of_mem hwc hc
        obtain ⟨p, -, -, -, -, hk, -⟩ := hpath c.1 (by rw [hcc]; exact (hwc.2 c hc).2)
        exact hk
      · intro hk
        obtain ⟨hx, hsx⟩ := treeOk_leaf hw ht hk
        have hm : x ∈ nodes.map Prod.fst := (mem_keys_iff hw).2 (fun he => by rw [he] at hk; cases hk)
        obtain ⟨q, hq⟩ := treeOk_reaches hw ht 512 x (by omega) (by omega) hm
        have hx9 : (BitVec.ofNat 9 x).toNat = x := by rw [BitVec.toNat_ofNat]; exact Nat.mod_eq_of_lt (by omega)
        have hreach : Reaches nodes root.idx q x := ⟨_, hq, by rw [hx9]; exact hk, by rw [hx9]; exact hsx⟩
        rcases hspec x with ⟨-, h⟩ | ⟨p, -, -, hc⟩
        · exact absurd hreach (h q)
        · have hne : codeAt code x ≠ Code.noCode := by rw [hc]; exact ofPath_ne _
          exact ⟨_, mem_of_tableGet_ne hne, rfl⟩
    · intro c hc
      have hcc : codeAt code c.1 = c.2 := tableGet_of_mem hwc hc
      obtain ⟨p, hp1, hp2, hcp, -, -, hd⟩ := hpath c.1 (by rw [hcc]; exact (hwc.2 c hc).2)
      rw [hcc] at hcp
      rw [CodeRecordOk, hcp]
      exact ⟨rfl, by rw [ofPath_len (by omega)]; exact hp2, ofPath_bits_lt (by omega),
        by rw [sequence_ofPath (by omega)]; exact hd⟩

/-- What R46 says of the record of a symbol. -/
theorem codeOk_at {nodes : List (Nat × Node)} {root : Root} {code : List (Nat × Code)}
    (h : CodeOk nodes root code) {x : Nat}
    (hv : (codeAt code x).valid = true) : CodeRecordOk nodes root (x, codeAt code x) := by
  have hne : codeAt code x ≠ Code.noCode := fun he => by rw [he] at hv; cases hv
  exact h.2 _ (mem_of_tableGet_ne hne)

/-- A symbol has a code exactly when it has a leaf (R46). -/
theorem codeOk_valid_iff {nodes : List (Nat × Node)} {root : Root} {code : List (Nat × Code)}
    (hwn : tableWf Node.emptyRecord Config.nodeSlots nodes) (hw : tableWf Code.noCode Config.symbols code)
    (h : CodeOk nodes root code) (x : Nat) : (codeAt code x).valid = true ↔ (nodeAt nodes x).kind = .leaf := by
  rw [← mem_leafSlots_iff hwn, ← h.1]
  constructor
  · intro hv
    have hne : codeAt code x ≠ Code.noCode := fun he => by rw [he] at hv; cases hv
    exact List.mem_map.2 ⟨_, mem_of_tableGet_ne hne, rfl⟩
  · intro hx
    obtain ⟨c, hc, rfl⟩ := List.mem_map.1 hx
    rw [show codeAt code c.1 = c.2 from tableGet_of_mem hw hc]
    exact (h.2 c hc).1

/-! ### Decoding -/

/-- The bits of a path to a leaf make the walk emit its symbol and start anew (R158, R159). -/
theorem decodeBits_path {nodes : List (Nat × Node)} {root n : NodeIdx} {p : List Bool} {m : NodeIdx}
    (hk : (nodeAt nodes m.toNat).kind = .leaf) (hne : p ≠ []) (hd : descend nodes n p = some m) (rest : List Bool) :
    decodeBits nodes root n (p ++ rest) =
      (decodeBits nodes root root rest).map (fun r => ((nodeAt nodes m.toNat).sym :: r.1, r.2)) := by
  induction p generalizing n with
  | nil => exact absurd rfl hne
  | cons b p ih =>
    rw [descend] at hd
    split at hd
    · rw [List.cons_append, decodeBits.eq_def]
      cases p with
      | nil =>
        simp only [descend, Option.some.injEq] at hd
        simp only [hd, hk, List.nil_append]
      | cons b' p =>
        have hint : (nodeAt nodes (childOf (nodeAt nodes n.toNat) b).toNat).kind = .internal := by
          by_contra hc
          rw [descend, if_neg hc] at hd
          cases hd
        simp only [hint]
        exact ih (by simp) hd
    · cases hd

/-- The Bit Sequence of a buffer decodes to the buffer, and the walk goes on from the root (R162). -/
theorem decodeBits_bitSequence {nodes : List (Nat × Node)} {root : Root} {code : List (Nat × Code)}
    (hwn : tableWf Node.emptyRecord Config.nodeSlots nodes) (ht : TreeOk nodes root)
    (hw : tableWf Code.noCode Config.symbols code) (h : CodeOk nodes root code) (bytes : List Byte)
    (hb : ∀ b ∈ bytes, (codeAt code b.toNat).valid = true) (rest : List Bool) :
    decodeBits nodes root.idx root.idx (bitSequence code bytes ++ rest) =
      (decodeBits nodes root.idx root.idx rest).map (fun r => (bytes ++ r.1, r.2)) := by
  induction bytes with
  | nil => simp [bitSequence]
  | cons b bytes ih =>
    have hv := hb b (by simp)
    obtain ⟨-, hlen, -, hd⟩ := codeOk_at h hv
    have hk := (codeOk_valid_iff hwn hw h b.toNat).1 hv
    have hb9 : (BitVec.ofNat 9 b.toNat).toNat = b.toNat := by
      rw [BitVec.toNat_ofNat]
      have := b.isLt
      exact Nat.mod_eq_of_lt (by omega)
    have hsym : (nodeAt nodes b.toNat).sym = b := BitVec.eq_of_toNat_eq (treeOk_leaf hwn ht hk).2
    have hne : (codeAt code b.toNat).sequence ≠ [] := by
      intro he
      have := sequence_length (codeAt code b.toNat)
      rw [he] at this
      simp only [List.length_nil] at this
      have hlen' : 1 ≤ (codeAt code b.toNat).len.toNat := hlen
      omega
    rw [bitSequence, List.flatMap_cons, List.append_assoc,
      decodeBits_path (by rw [hb9]; exact hk) hne hd, ← bitSequence, ih (fun x hx => hb x (by simp [hx]))]
    rw [hb9, hsym, Option.map_map]
    rfl

end Sys2Proof.Machine
end

