-- ==== Sys2Proof/Laws/State.lean ====
section
/-!
SUPPORT. One lemma per field per named update of the state, each true by unfolding, so that no later proof unfolds an
update.
-/

namespace Sys2Proof.Machine

variable (s : State)

/-! ### raiseFault: fault entry (R196) -/

@[simp] theorem raiseFault_status (c : FaultCode) (i : Word) : (raiseFault c i s).status = { s.status with fault := true } := rfl
@[simp] theorem raiseFault_lenEn (c : FaultCode) (i : Word) : (raiseFault c i s).lenEn = s.lenEn := rfl
@[simp] theorem raiseFault_inLen (c : FaultCode) (i : Word) : (raiseFault c i s).inLen = s.inLen := rfl
@[simp] theorem raiseFault_outLen (c : FaultCode) (i : Word) : (raiseFault c i s).outLen = s.outLen := rfl
@[simp] theorem raiseFault_bitLen (c : FaultCode) (i : Word) : (raiseFault c i s).bitLen = s.bitLen := rfl
@[simp] theorem raiseFault_decBitLen (c : FaultCode) (i : Word) : (raiseFault c i s).decBitLen = s.decBitLen := rfl
@[simp] theorem raiseFault_nsym (c : FaultCode) (i : Word) : (raiseFault c i s).nsym = s.nsym := rfl
@[simp] theorem raiseFault_root (c : FaultCode) (i : Word) : (raiseFault c i s).root = s.root := rfl
@[simp] theorem raiseFault_errCode (c : FaultCode) (i : Word) : (raiseFault c i s).errCode = c.number := rfl
@[simp] theorem raiseFault_errInfo (c : FaultCode) (i : Word) : (raiseFault c i s).errInfo = i := rfl
@[simp] theorem raiseFault_decCur (c : FaultCode) (i : Word) : (raiseFault c i s).decCur = s.decCur := rfl
@[simp] theorem raiseFault_ibufCap (c : FaultCode) (i : Word) : (raiseFault c i s).ibufCap = s.ibufCap := rfl
@[simp] theorem raiseFault_obufCap (c : FaultCode) (i : Word) : (raiseFault c i s).obufCap = s.obufCap := rfl
@[simp] theorem raiseFault_ibuf (c : FaultCode) (i : Word) : (raiseFault c i s).ibuf = s.ibuf := rfl
@[simp] theorem raiseFault_obuf (c : FaultCode) (i : Word) : (raiseFault c i s).obuf = s.obuf := rfl
@[simp] theorem raiseFault_freq (c : FaultCode) (i : Word) : (raiseFault c i s).freq = s.freq := rfl
@[simp] theorem raiseFault_node (c : FaultCode) (i : Word) : (raiseFault c i s).node = s.node := rfl
@[simp] theorem raiseFault_code (c : FaultCode) (i : Word) : (raiseFault c i s).code = s.code := rfl
@[simp] theorem raiseFault_port (c : FaultCode) (i : Word) : (raiseFault c i s).port = s.port := rfl
@[simp] theorem raiseFault_readData (c : FaultCode) (i : Word) : (raiseFault c i s).readData = s.readData := rfl
@[simp] theorem raiseFault_fresh (c : FaultCode) (i : Word) : (raiseFault c i s).fresh = s.fresh := rfl
@[simp] theorem raiseFault_epoch (c : FaultCode) (i : Word) : (raiseFault c i s).epoch = s.epoch := rfl

/-! ### softReset: RST (R171) -/

@[simp] theorem softReset_status : (softReset s).status = Status.clear := rfl
@[simp] theorem softReset_lenEn : (softReset s).lenEn = false := rfl
@[simp] theorem softReset_inLen : (softReset s).inLen = 0 := rfl
@[simp] theorem softReset_outLen : (softReset s).outLen = 0 := rfl
@[simp] theorem softReset_bitLen : (softReset s).bitLen = 0 := rfl
@[simp] theorem softReset_decBitLen : (softReset s).decBitLen = 0 := rfl
@[simp] theorem softReset_nsym : (softReset s).nsym = 0 := rfl
@[simp] theorem softReset_root : (softReset s).root = Root.zero := rfl
@[simp] theorem softReset_errCode : (softReset s).errCode = 0 := rfl
@[simp] theorem softReset_errInfo : (softReset s).errInfo = 0 := rfl
@[simp] theorem softReset_decCur : (softReset s).decCur = 0 := rfl
@[simp] theorem softReset_ibufCap : (softReset s).ibufCap = s.ibufCap := rfl
@[simp] theorem softReset_obufCap : (softReset s).obufCap = s.obufCap := rfl
@[simp] theorem softReset_ibuf : (softReset s).ibuf = s.ibuf := rfl
@[simp] theorem softReset_obuf : (softReset s).obuf = s.obuf := rfl
@[simp] theorem softReset_freq : (softReset s).freq = s.freq := rfl
@[simp] theorem softReset_node : (softReset s).node = s.node := rfl
@[simp] theorem softReset_code : (softReset s).code = s.code := rfl
@[simp] theorem softReset_port : (softReset s).port = s.port := rfl
@[simp] theorem softReset_readData : (softReset s).readData = s.readData := rfl
@[simp] theorem softReset_fresh : (softReset s).fresh = s.fresh := rfl
@[simp] theorem softReset_epoch : (softReset s).epoch = s.epoch := rfl

/-! ### clearFreq: the clears of FREQ (R100) -/

@[simp] theorem clearFreq_status : (clearFreq s).status = { s.status with freqValid := false } := rfl
@[simp] theorem clearFreq_lenEn : (clearFreq s).lenEn = s.lenEn := rfl
@[simp] theorem clearFreq_inLen : (clearFreq s).inLen = s.inLen := rfl
@[simp] theorem clearFreq_outLen : (clearFreq s).outLen = s.outLen := rfl
@[simp] theorem clearFreq_bitLen : (clearFreq s).bitLen = s.bitLen := rfl
@[simp] theorem clearFreq_decBitLen : (clearFreq s).decBitLen = s.decBitLen := rfl
@[simp] theorem clearFreq_nsym : (clearFreq s).nsym = 0 := rfl
@[simp] theorem clearFreq_root : (clearFreq s).root = s.root := rfl
@[simp] theorem clearFreq_errCode : (clearFreq s).errCode = s.errCode := rfl
@[simp] theorem clearFreq_errInfo : (clearFreq s).errInfo = s.errInfo := rfl
@[simp] theorem clearFreq_decCur : (clearFreq s).decCur = s.decCur := rfl
@[simp] theorem clearFreq_ibufCap : (clearFreq s).ibufCap = s.ibufCap := rfl
@[simp] theorem clearFreq_obufCap : (clearFreq s).obufCap = s.obufCap := rfl
@[simp] theorem clearFreq_ibuf : (clearFreq s).ibuf = s.ibuf := rfl
@[simp] theorem clearFreq_obuf : (clearFreq s).obuf = s.obuf := rfl
@[simp] theorem clearFreq_freq : (clearFreq s).freq = s.freq := rfl
@[simp] theorem clearFreq_node : (clearFreq s).node = s.node := rfl
@[simp] theorem clearFreq_code : (clearFreq s).code = s.code := rfl
@[simp] theorem clearFreq_port : (clearFreq s).port = s.port := rfl
@[simp] theorem clearFreq_readData : (clearFreq s).readData = s.readData := rfl
@[simp] theorem clearFreq_fresh : (clearFreq s).fresh = s.fresh := rfl
@[simp] theorem clearFreq_epoch : (clearFreq s).epoch = s.epoch := rfl

/-! ### clearTree: the clears of BUILD (R110) -/

@[simp] theorem clearTree_status : (clearTree s).status = { s.status with treeValid := false, codeValid := false, degen := false } := rfl
@[simp] theorem clearTree_lenEn : (clearTree s).lenEn = s.lenEn := rfl
@[simp] theorem clearTree_inLen : (clearTree s).inLen = s.inLen := rfl
@[simp] theorem clearTree_outLen : (clearTree s).outLen = s.outLen := rfl
@[simp] theorem clearTree_bitLen : (clearTree s).bitLen = s.bitLen := rfl
@[simp] theorem clearTree_decBitLen : (clearTree s).decBitLen = s.decBitLen := rfl
@[simp] theorem clearTree_nsym : (clearTree s).nsym = s.nsym := rfl
@[simp] theorem clearTree_root : (clearTree s).root = Root.zero := rfl
@[simp] theorem clearTree_errCode : (clearTree s).errCode = s.errCode := rfl
@[simp] theorem clearTree_errInfo : (clearTree s).errInfo = s.errInfo := rfl
@[simp] theorem clearTree_decCur : (clearTree s).decCur = s.decCur := rfl
@[simp] theorem clearTree_ibufCap : (clearTree s).ibufCap = s.ibufCap := rfl
@[simp] theorem clearTree_obufCap : (clearTree s).obufCap = s.obufCap := rfl
@[simp] theorem clearTree_ibuf : (clearTree s).ibuf = s.ibuf := rfl
@[simp] theorem clearTree_obuf : (clearTree s).obuf = s.obuf := rfl
@[simp] theorem clearTree_freq : (clearTree s).freq = s.freq := rfl
@[simp] theorem clearTree_node : (clearTree s).node = s.node := rfl
@[simp] theorem clearTree_code : (clearTree s).code = s.code := rfl
@[simp] theorem clearTree_port : (clearTree s).port = s.port := rfl
@[simp] theorem clearTree_readData : (clearTree s).readData = s.readData := rfl
@[simp] theorem clearTree_fresh : (clearTree s).fresh = s.fresh := rfl
@[simp] theorem clearTree_epoch : (clearTree s).epoch = s.epoch := rfl

/-! ### clearCode: the clear of GENCODE (R130) -/

@[simp] theorem clearCode_status : (clearCode s).status = { s.status with codeValid := false } := rfl
@[simp] theorem clearCode_lenEn : (clearCode s).lenEn = s.lenEn := rfl
@[simp] theorem clearCode_inLen : (clearCode s).inLen = s.inLen := rfl
@[simp] theorem clearCode_outLen : (clearCode s).outLen = s.outLen := rfl
@[simp] theorem clearCode_bitLen : (clearCode s).bitLen = s.bitLen := rfl
@[simp] theorem clearCode_decBitLen : (clearCode s).decBitLen = s.decBitLen := rfl
@[simp] theorem clearCode_nsym : (clearCode s).nsym = s.nsym := rfl
@[simp] theorem clearCode_root : (clearCode s).root = s.root := rfl
@[simp] theorem clearCode_errCode : (clearCode s).errCode = s.errCode := rfl
@[simp] theorem clearCode_errInfo : (clearCode s).errInfo = s.errInfo := rfl
@[simp] theorem clearCode_decCur : (clearCode s).decCur = s.decCur := rfl
@[simp] theorem clearCode_ibufCap : (clearCode s).ibufCap = s.ibufCap := rfl
@[simp] theorem clearCode_obufCap : (clearCode s).obufCap = s.obufCap := rfl
@[simp] theorem clearCode_ibuf : (clearCode s).ibuf = s.ibuf := rfl
@[simp] theorem clearCode_obuf : (clearCode s).obuf = s.obuf := rfl
@[simp] theorem clearCode_freq : (clearCode s).freq = s.freq := rfl
@[simp] theorem clearCode_node : (clearCode s).node = s.node := rfl
@[simp] theorem clearCode_code : (clearCode s).code = s.code := rfl
@[simp] theorem clearCode_port : (clearCode s).port = s.port := rfl
@[simp] theorem clearCode_readData : (clearCode s).readData = s.readData := rfl
@[simp] theorem clearCode_fresh : (clearCode s).fresh = s.fresh := rfl
@[simp] theorem clearCode_epoch : (clearCode s).epoch = s.epoch := rfl

/-! ### clearPack: the clears of PACK (R140) -/

@[simp] theorem clearPack_status : (clearPack s).status = { s.status with outValid := false } := rfl
@[simp] theorem clearPack_lenEn : (clearPack s).lenEn = s.lenEn := rfl
@[simp] theorem clearPack_inLen : (clearPack s).inLen = s.inLen := rfl
@[simp] theorem clearPack_outLen : (clearPack s).outLen = 0 := rfl
@[simp] theorem clearPack_bitLen : (clearPack s).bitLen = 0 := rfl
@[simp] theorem clearPack_decBitLen : (clearPack s).decBitLen = s.decBitLen := rfl
@[simp] theorem clearPack_nsym : (clearPack s).nsym = s.nsym := rfl
@[simp] theorem clearPack_root : (clearPack s).root = s.root := rfl
@[simp] theorem clearPack_errCode : (clearPack s).errCode = s.errCode := rfl
@[simp] theorem clearPack_errInfo : (clearPack s).errInfo = s.errInfo := rfl
@[simp] theorem clearPack_decCur : (clearPack s).decCur = s.decCur := rfl
@[simp] theorem clearPack_ibufCap : (clearPack s).ibufCap = s.ibufCap := rfl
@[simp] theorem clearPack_obufCap : (clearPack s).obufCap = s.obufCap := rfl
@[simp] theorem clearPack_ibuf : (clearPack s).ibuf = s.ibuf := rfl
@[simp] theorem clearPack_obuf : (clearPack s).obuf = s.obuf := rfl
@[simp] theorem clearPack_freq : (clearPack s).freq = s.freq := rfl
@[simp] theorem clearPack_node : (clearPack s).node = s.node := rfl
@[simp] theorem clearPack_code : (clearPack s).code = s.code := rfl
@[simp] theorem clearPack_port : (clearPack s).port = s.port := rfl
@[simp] theorem clearPack_readData : (clearPack s).readData = s.readData := rfl
@[simp] theorem clearPack_fresh : (clearPack s).fresh = s.fresh := rfl
@[simp] theorem clearPack_epoch : (clearPack s).epoch = s.epoch := rfl

/-! ### clearUnpack: the clears of UNPACK (R155) -/

@[simp] theorem clearUnpack_status : (clearUnpack s).status = { s.status with outValid := false, decPartial := false } := rfl
@[simp] theorem clearUnpack_lenEn : (clearUnpack s).lenEn = s.lenEn := rfl
@[simp] theorem clearUnpack_inLen : (clearUnpack s).inLen = s.inLen := rfl
@[simp] theorem clearUnpack_outLen : (clearUnpack s).outLen = 0 := rfl
@[simp] theorem clearUnpack_bitLen : (clearUnpack s).bitLen = s.bitLen := rfl
@[simp] theorem clearUnpack_decBitLen : (clearUnpack s).decBitLen = s.decBitLen := rfl
@[simp] theorem clearUnpack_nsym : (clearUnpack s).nsym = s.nsym := rfl
@[simp] theorem clearUnpack_root : (clearUnpack s).root = s.root := rfl
@[simp] theorem clearUnpack_errCode : (clearUnpack s).errCode = s.errCode := rfl
@[simp] theorem clearUnpack_errInfo : (clearUnpack s).errInfo = s.errInfo := rfl
@[simp] theorem clearUnpack_decCur : (clearUnpack s).decCur = 0 := rfl
@[simp] theorem clearUnpack_ibufCap : (clearUnpack s).ibufCap = s.ibufCap := rfl
@[simp] theorem clearUnpack_obufCap : (clearUnpack s).obufCap = s.obufCap := rfl
@[simp] theorem clearUnpack_ibuf : (clearUnpack s).ibuf = s.ibuf := rfl
@[simp] theorem clearUnpack_obuf : (clearUnpack s).obuf = s.obuf := rfl
@[simp] theorem clearUnpack_freq : (clearUnpack s).freq = s.freq := rfl
@[simp] theorem clearUnpack_node : (clearUnpack s).node = s.node := rfl
@[simp] theorem clearUnpack_code : (clearUnpack s).code = s.code := rfl
@[simp] theorem clearUnpack_port : (clearUnpack s).port = s.port := rfl
@[simp] theorem clearUnpack_readData : (clearUnpack s).readData = s.readData := rfl
@[simp] theorem clearUnpack_fresh : (clearUnpack s).fresh = s.fresh := rfl
@[simp] theorem clearUnpack_epoch : (clearUnpack s).epoch = s.epoch := rfl

/-! ### clearCodec: DISCARD (R172) -/

@[simp] theorem clearCodec_status : (clearCodec s).status = { s.status with freqValid := false, treeValid := false, codeValid := false, degen := false } := rfl
@[simp] theorem clearCodec_lenEn : (clearCodec s).lenEn = s.lenEn := rfl
@[simp] theorem clearCodec_inLen : (clearCodec s).inLen = s.inLen := rfl
@[simp] theorem clearCodec_outLen : (clearCodec s).outLen = s.outLen := rfl
@[simp] theorem clearCodec_bitLen : (clearCodec s).bitLen = s.bitLen := rfl
@[simp] theorem clearCodec_decBitLen : (clearCodec s).decBitLen = s.decBitLen := rfl
@[simp] theorem clearCodec_nsym : (clearCodec s).nsym = 0 := rfl
@[simp] theorem clearCodec_root : (clearCodec s).root = Root.zero := rfl
@[simp] theorem clearCodec_errCode : (clearCodec s).errCode = s.errCode := rfl
@[simp] theorem clearCodec_errInfo : (clearCodec s).errInfo = s.errInfo := rfl
@[simp] theorem clearCodec_decCur : (clearCodec s).decCur = s.decCur := rfl
@[simp] theorem clearCodec_ibufCap : (clearCodec s).ibufCap = s.ibufCap := rfl
@[simp] theorem clearCodec_obufCap : (clearCodec s).obufCap = s.obufCap := rfl
@[simp] theorem clearCodec_ibuf : (clearCodec s).ibuf = s.ibuf := rfl
@[simp] theorem clearCodec_obuf : (clearCodec s).obuf = s.obuf := rfl
@[simp] theorem clearCodec_freq : (clearCodec s).freq = s.freq := rfl
@[simp] theorem clearCodec_node : (clearCodec s).node = s.node := rfl
@[simp] theorem clearCodec_code : (clearCodec s).code = s.code := rfl
@[simp] theorem clearCodec_port : (clearCodec s).port = s.port := rfl
@[simp] theorem clearCodec_readData : (clearCodec s).readData = s.readData := rfl
@[simp] theorem clearCodec_fresh : (clearCodec s).fresh = s.fresh := rfl
@[simp] theorem clearCodec_epoch : (clearCodec s).epoch = s.epoch := rfl

/-! ### storeFreq: the end of FREQ (R100) -/

@[simp] theorem storeFreq_status (f : List (Nat × Word)) : (storeFreq f s).status = { s.status with freqValid := true } := rfl
@[simp] theorem storeFreq_lenEn (f : List (Nat × Word)) : (storeFreq f s).lenEn = s.lenEn := rfl
@[simp] theorem storeFreq_inLen (f : List (Nat × Word)) : (storeFreq f s).inLen = s.inLen := rfl
@[simp] theorem storeFreq_outLen (f : List (Nat × Word)) : (storeFreq f s).outLen = s.outLen := rfl
@[simp] theorem storeFreq_bitLen (f : List (Nat × Word)) : (storeFreq f s).bitLen = s.bitLen := rfl
@[simp] theorem storeFreq_decBitLen (f : List (Nat × Word)) : (storeFreq f s).decBitLen = s.decBitLen := rfl
@[simp] theorem storeFreq_nsym (f : List (Nat × Word)) : (storeFreq f s).nsym = BitVec.ofNat 32 (alphabet f).length := rfl
@[simp] theorem storeFreq_root (f : List (Nat × Word)) : (storeFreq f s).root = s.root := rfl
@[simp] theorem storeFreq_errCode (f : List (Nat × Word)) : (storeFreq f s).errCode = s.errCode := rfl
@[simp] theorem storeFreq_errInfo (f : List (Nat × Word)) : (storeFreq f s).errInfo = s.errInfo := rfl
@[simp] theorem storeFreq_decCur (f : List (Nat × Word)) : (storeFreq f s).decCur = s.decCur := rfl
@[simp] theorem storeFreq_ibufCap (f : List (Nat × Word)) : (storeFreq f s).ibufCap = s.ibufCap := rfl
@[simp] theorem storeFreq_obufCap (f : List (Nat × Word)) : (storeFreq f s).obufCap = s.obufCap := rfl
@[simp] theorem storeFreq_ibuf (f : List (Nat × Word)) : (storeFreq f s).ibuf = s.ibuf := rfl
@[simp] theorem storeFreq_obuf (f : List (Nat × Word)) : (storeFreq f s).obuf = s.obuf := rfl
@[simp] theorem storeFreq_freq (f : List (Nat × Word)) : (storeFreq f s).freq = f := rfl
@[simp] theorem storeFreq_node (f : List (Nat × Word)) : (storeFreq f s).node = s.node := rfl
@[simp] theorem storeFreq_code (f : List (Nat × Word)) : (storeFreq f s).code = s.code := rfl
@[simp] theorem storeFreq_port (f : List (Nat × Word)) : (storeFreq f s).port = s.port := rfl
@[simp] theorem storeFreq_readData (f : List (Nat × Word)) : (storeFreq f s).readData = s.readData := rfl
@[simp] theorem storeFreq_fresh (f : List (Nat × Word)) : (storeFreq f s).fresh = s.fresh := rfl
@[simp] theorem storeFreq_epoch (f : List (Nat × Word)) : (storeFreq f s).epoch = s.epoch := rfl

/-! ### storeTree: the end of BUILD (R110) -/

@[simp] theorem storeTree_status : (storeTree s).status = { s.status with degen := degenOf (alphabet s.freq).length, treeValid := true } := rfl
@[simp] theorem storeTree_lenEn : (storeTree s).lenEn = s.lenEn := rfl
@[simp] theorem storeTree_inLen : (storeTree s).inLen = s.inLen := rfl
@[simp] theorem storeTree_outLen : (storeTree s).outLen = s.outLen := rfl
@[simp] theorem storeTree_bitLen : (storeTree s).bitLen = s.bitLen := rfl
@[simp] theorem storeTree_decBitLen : (storeTree s).decBitLen = s.decBitLen := rfl
@[simp] theorem storeTree_nsym : (storeTree s).nsym = s.nsym := rfl
@[simp] theorem storeTree_root : (storeTree s).root = (treeOf s.freq).2 := rfl
@[simp] theorem storeTree_errCode : (storeTree s).errCode = s.errCode := rfl
@[simp] theorem storeTree_errInfo : (storeTree s).errInfo = s.errInfo := rfl
@[simp] theorem storeTree_decCur : (storeTree s).decCur = s.decCur := rfl
@[simp] theorem storeTree_ibufCap : (storeTree s).ibufCap = s.ibufCap := rfl
@[simp] theorem storeTree_obufCap : (storeTree s).obufCap = s.obufCap := rfl
@[simp] theorem storeTree_ibuf : (storeTree s).ibuf = s.ibuf := rfl
@[simp] theorem storeTree_obuf : (storeTree s).obuf = s.obuf := rfl
@[simp] theorem storeTree_freq : (storeTree s).freq = s.freq := rfl
@[simp] theorem storeTree_node : (storeTree s).node = (treeOf s.freq).1 := rfl
@[simp] theorem storeTree_code : (storeTree s).code = s.code := rfl
@[simp] theorem storeTree_port : (storeTree s).port = s.port := rfl
@[simp] theorem storeTree_readData : (storeTree s).readData = s.readData := rfl
@[simp] theorem storeTree_fresh : (storeTree s).fresh = s.fresh := rfl
@[simp] theorem storeTree_epoch : (storeTree s).epoch = s.epoch := rfl

/-! ### storeCode: the end of GENCODE (R130) -/

@[simp] theorem storeCode_status (k : List (Nat × Code)) : (storeCode k s).status = { s.status with codeValid := true } := rfl
@[simp] theorem storeCode_lenEn (k : List (Nat × Code)) : (storeCode k s).lenEn = s.lenEn := rfl
@[simp] theorem storeCode_inLen (k : List (Nat × Code)) : (storeCode k s).inLen = s.inLen := rfl
@[simp] theorem storeCode_outLen (k : List (Nat × Code)) : (storeCode k s).outLen = s.outLen := rfl
@[simp] theorem storeCode_bitLen (k : List (Nat × Code)) : (storeCode k s).bitLen = s.bitLen := rfl
@[simp] theorem storeCode_decBitLen (k : List (Nat × Code)) : (storeCode k s).decBitLen = s.decBitLen := rfl
@[simp] theorem storeCode_nsym (k : List (Nat × Code)) : (storeCode k s).nsym = s.nsym := rfl
@[simp] theorem storeCode_root (k : List (Nat × Code)) : (storeCode k s).root = s.root := rfl
@[simp] theorem storeCode_errCode (k : List (Nat × Code)) : (storeCode k s).errCode = s.errCode := rfl
@[simp] theorem storeCode_errInfo (k : List (Nat × Code)) : (storeCode k s).errInfo = s.errInfo := rfl
@[simp] theorem storeCode_decCur (k : List (Nat × Code)) : (storeCode k s).decCur = s.decCur := rfl
@[simp] theorem storeCode_ibufCap (k : List (Nat × Code)) : (storeCode k s).ibufCap = s.ibufCap := rfl
@[simp] theorem storeCode_obufCap (k : List (Nat × Code)) : (storeCode k s).obufCap = s.obufCap := rfl
@[simp] theorem storeCode_ibuf (k : List (Nat × Code)) : (storeCode k s).ibuf = s.ibuf := rfl
@[simp] theorem storeCode_obuf (k : List (Nat × Code)) : (storeCode k s).obuf = s.obuf := rfl
@[simp] theorem storeCode_freq (k : List (Nat × Code)) : (storeCode k s).freq = s.freq := rfl
@[simp] theorem storeCode_node (k : List (Nat × Code)) : (storeCode k s).node = s.node := rfl
@[simp] theorem storeCode_code (k : List (Nat × Code)) : (storeCode k s).code = k := rfl
@[simp] theorem storeCode_port (k : List (Nat × Code)) : (storeCode k s).port = s.port := rfl
@[simp] theorem storeCode_readData (k : List (Nat × Code)) : (storeCode k s).readData = s.readData := rfl
@[simp] theorem storeCode_fresh (k : List (Nat × Code)) : (storeCode k s).fresh = s.fresh := rfl
@[simp] theorem storeCode_epoch (k : List (Nat × Code)) : (storeCode k s).epoch = s.epoch := rfl

/-! ### storePacked: the end of PACK (R140) -/

@[simp] theorem storePacked_status (p : Packer) : (storePacked p s).status = { s.status with outValid := true } := rfl
@[simp] theorem storePacked_lenEn (p : Packer) : (storePacked p s).lenEn = s.lenEn := rfl
@[simp] theorem storePacked_inLen (p : Packer) : (storePacked p s).inLen = s.inLen := rfl
@[simp] theorem storePacked_outLen (p : Packer) : (storePacked p s).outLen = BitVec.ofNat 32 p.sink.optr := rfl
@[simp] theorem storePacked_bitLen (p : Packer) : (storePacked p s).bitLen = BitVec.ofNat 32 p.bcnt := rfl
@[simp] theorem storePacked_decBitLen (p : Packer) : (storePacked p s).decBitLen = s.decBitLen := rfl
@[simp] theorem storePacked_nsym (p : Packer) : (storePacked p s).nsym = s.nsym := rfl
@[simp] theorem storePacked_root (p : Packer) : (storePacked p s).root = s.root := rfl
@[simp] theorem storePacked_errCode (p : Packer) : (storePacked p s).errCode = s.errCode := rfl
@[simp] theorem storePacked_errInfo (p : Packer) : (storePacked p s).errInfo = s.errInfo := rfl
@[simp] theorem storePacked_decCur (p : Packer) : (storePacked p s).decCur = s.decCur := rfl
@[simp] theorem storePacked_ibufCap (p : Packer) : (storePacked p s).ibufCap = s.ibufCap := rfl
@[simp] theorem storePacked_obufCap (p : Packer) : (storePacked p s).obufCap = s.obufCap := rfl
@[simp] theorem storePacked_ibuf (p : Packer) : (storePacked p s).ibuf = s.ibuf := rfl
@[simp] theorem storePacked_obuf (p : Packer) : (storePacked p s).obuf = p.sink.obuf := rfl
@[simp] theorem storePacked_freq (p : Packer) : (storePacked p s).freq = s.freq := rfl
@[simp] theorem storePacked_node (p : Packer) : (storePacked p s).node = s.node := rfl
@[simp] theorem storePacked_code (p : Packer) : (storePacked p s).code = s.code := rfl
@[simp] theorem storePacked_port (p : Packer) : (storePacked p s).port = s.port := rfl
@[simp] theorem storePacked_readData (p : Packer) : (storePacked p s).readData = s.readData := rfl
@[simp] theorem storePacked_fresh (p : Packer) : (storePacked p s).fresh = s.fresh := rfl
@[simp] theorem storePacked_epoch (p : Packer) : (storePacked p s).epoch = s.epoch := rfl

/-! ### storeWalked: the end of UNPACK (R155) -/

@[simp] theorem storeWalked_status (w : Walker) : (storeWalked w s).status = { s.status with decPartial := partialOf w.cur s.root, outValid := true } := rfl
@[simp] theorem storeWalked_lenEn (w : Walker) : (storeWalked w s).lenEn = s.lenEn := rfl
@[simp] theorem storeWalked_inLen (w : Walker) : (storeWalked w s).inLen = s.inLen := rfl
@[simp] theorem storeWalked_outLen (w : Walker) : (storeWalked w s).outLen = BitVec.ofNat 32 w.sink.optr := rfl
@[simp] theorem storeWalked_bitLen (w : Walker) : (storeWalked w s).bitLen = s.bitLen := rfl
@[simp] theorem storeWalked_decBitLen (w : Walker) : (storeWalked w s).decBitLen = s.decBitLen := rfl
@[simp] theorem storeWalked_nsym (w : Walker) : (storeWalked w s).nsym = s.nsym := rfl
@[simp] theorem storeWalked_root (w : Walker) : (storeWalked w s).root = s.root := rfl
@[simp] theorem storeWalked_errCode (w : Walker) : (storeWalked w s).errCode = s.errCode := rfl
@[simp] theorem storeWalked_errInfo (w : Walker) : (storeWalked w s).errInfo = s.errInfo := rfl
@[simp] theorem storeWalked_decCur (w : Walker) : (storeWalked w s).decCur = w.cur := rfl
@[simp] theorem storeWalked_ibufCap (w : Walker) : (storeWalked w s).ibufCap = s.ibufCap := rfl
@[simp] theorem storeWalked_obufCap (w : Walker) : (storeWalked w s).obufCap = s.obufCap := rfl
@[simp] theorem storeWalked_ibuf (w : Walker) : (storeWalked w s).ibuf = s.ibuf := rfl
@[simp] theorem storeWalked_obuf (w : Walker) : (storeWalked w s).obuf = w.sink.obuf := rfl
@[simp] theorem storeWalked_freq (w : Walker) : (storeWalked w s).freq = s.freq := rfl
@[simp] theorem storeWalked_node (w : Walker) : (storeWalked w s).node = s.node := rfl
@[simp] theorem storeWalked_code (w : Walker) : (storeWalked w s).code = s.code := rfl
@[simp] theorem storeWalked_port (w : Walker) : (storeWalked w s).port = s.port := rfl
@[simp] theorem storeWalked_readData (w : Walker) : (storeWalked w s).readData = s.readData := rfl
@[simp] theorem storeWalked_fresh (w : Walker) : (storeWalked w s).fresh = s.fresh := rfl
@[simp] theorem storeWalked_epoch (w : Walker) : (storeWalked w s).epoch = s.epoch := rfl

/-! ### hostRead: a host read (R61) -/

@[simp] theorem hostRead_status (sp : Space) (idx : Word) : (hostRead sp idx s).status = s.status := rfl
@[simp] theorem hostRead_lenEn (sp : Space) (idx : Word) : (hostRead sp idx s).lenEn = s.lenEn := rfl
@[simp] theorem hostRead_inLen (sp : Space) (idx : Word) : (hostRead sp idx s).inLen = s.inLen := rfl
@[simp] theorem hostRead_outLen (sp : Space) (idx : Word) : (hostRead sp idx s).outLen = s.outLen := rfl
@[simp] theorem hostRead_bitLen (sp : Space) (idx : Word) : (hostRead sp idx s).bitLen = s.bitLen := rfl
@[simp] theorem hostRead_decBitLen (sp : Space) (idx : Word) : (hostRead sp idx s).decBitLen = s.decBitLen := rfl
@[simp] theorem hostRead_nsym (sp : Space) (idx : Word) : (hostRead sp idx s).nsym = s.nsym := rfl
@[simp] theorem hostRead_root (sp : Space) (idx : Word) : (hostRead sp idx s).root = s.root := rfl
@[simp] theorem hostRead_errCode (sp : Space) (idx : Word) : (hostRead sp idx s).errCode = s.errCode := rfl
@[simp] theorem hostRead_errInfo (sp : Space) (idx : Word) : (hostRead sp idx s).errInfo = s.errInfo := rfl
@[simp] theorem hostRead_decCur (sp : Space) (idx : Word) : (hostRead sp idx s).decCur = s.decCur := rfl
@[simp] theorem hostRead_ibufCap (sp : Space) (idx : Word) : (hostRead sp idx s).ibufCap = s.ibufCap := rfl
@[simp] theorem hostRead_obufCap (sp : Space) (idx : Word) : (hostRead sp idx s).obufCap = s.obufCap := rfl
@[simp] theorem hostRead_ibuf (sp : Space) (idx : Word) : (hostRead sp idx s).ibuf = s.ibuf := rfl
@[simp] theorem hostRead_obuf (sp : Space) (idx : Word) : (hostRead sp idx s).obuf = s.obuf := rfl
@[simp] theorem hostRead_freq (sp : Space) (idx : Word) : (hostRead sp idx s).freq = s.freq := rfl
@[simp] theorem hostRead_node (sp : Space) (idx : Word) : (hostRead sp idx s).node = s.node := rfl
@[simp] theorem hostRead_code (sp : Space) (idx : Word) : (hostRead sp idx s).code = s.code := rfl
@[simp] theorem hostRead_port (sp : Space) (idx : Word) : (hostRead sp idx s).port = s.port := rfl
@[simp] theorem hostRead_readData (sp : Space) (idx : Word) : (hostRead sp idx s).readData = some (memRead sp idx.toNat s) := rfl
@[simp] theorem hostRead_fresh (sp : Space) (idx : Word) : (hostRead sp idx s).fresh = s.fresh + 1 := rfl
@[simp] theorem hostRead_epoch (sp : Space) (idx : Word) : (hostRead sp idx s).epoch = s.epoch := rfl

/-! ### hardwareReset: reset (R215) -/

@[simp] theorem hardwareReset_status : (hardwareReset s).status = Status.clear := rfl
@[simp] theorem hardwareReset_lenEn : (hardwareReset s).lenEn = false := rfl
@[simp] theorem hardwareReset_inLen : (hardwareReset s).inLen = 0 := rfl
@[simp] theorem hardwareReset_outLen : (hardwareReset s).outLen = 0 := rfl
@[simp] theorem hardwareReset_bitLen : (hardwareReset s).bitLen = 0 := rfl
@[simp] theorem hardwareReset_decBitLen : (hardwareReset s).decBitLen = 0 := rfl
@[simp] theorem hardwareReset_nsym : (hardwareReset s).nsym = 0 := rfl
@[simp] theorem hardwareReset_root : (hardwareReset s).root = Root.zero := rfl
@[simp] theorem hardwareReset_errCode : (hardwareReset s).errCode = 0 := rfl
@[simp] theorem hardwareReset_errInfo : (hardwareReset s).errInfo = 0 := rfl
@[simp] theorem hardwareReset_decCur : (hardwareReset s).decCur = 0 := rfl
@[simp] theorem hardwareReset_ibufCap : (hardwareReset s).ibufCap = s.ibufCap := rfl
@[simp] theorem hardwareReset_obufCap : (hardwareReset s).obufCap = s.obufCap := rfl
@[simp] theorem hardwareReset_ibuf : (hardwareReset s).ibuf = [] := rfl
@[simp] theorem hardwareReset_obuf : (hardwareReset s).obuf = [] := rfl
@[simp] theorem hardwareReset_freq : (hardwareReset s).freq = [] := rfl
@[simp] theorem hardwareReset_node : (hardwareReset s).node = [] := rfl
@[simp] theorem hardwareReset_code : (hardwareReset s).code = [] := rfl
@[simp] theorem hardwareReset_port : (hardwareReset s).port = s.port := rfl
@[simp] theorem hardwareReset_readData : (hardwareReset s).readData = none := rfl
@[simp] theorem hardwareReset_fresh : (hardwareReset s).fresh = s.fresh := rfl
@[simp] theorem hardwareReset_epoch : (hardwareReset s).epoch = s.epoch + 1 := rfl

end Sys2Proof.Machine
end

