-- ==== Sys2Proof/Laws/Runs.lean ====
section
/-!
SUPPORT. What a run, the fault gate and the checks can answer: one lemma each, so that no proof unfolds them again.
-/

namespace Sys2Proof.Machine

variable {α β : Type}

@[simp] theorem runThen_ok (a : α) (f : α → Run α) : runThen (.ok a) f = f a := rfl

@[simp] theorem runThen_raised (c : FaultCode) (i : Word) (a : α) (f : α → Run α) :
    runThen (.raised c i a) f = .raised c i a := rfl

@[simp] theorem runThen_stopped (e : Fault) (f : α → Run α) : runThen (.stopped e) f = .stopped e := rfl

theorem runThen_assoc (r : Run α) (f g : α → Run α) : runThen (runThen r f) g = runThen r (fun a => runThen (f a) g) := by
  cases r <;> rfl

@[simp] theorem runFold_nil (f : α → β → Run α) (a : α) : runFold f a [] = .ok a := rfl

@[simp] theorem runFold_cons (f : α → β → Run α) (a : α) (b : β) (rest : List β) :
    runFold f a (b :: rest) = runThen (f a b) (fun a' => runFold f a' rest) := rfl

theorem runFold_append (f : α → β → Run α) (a : α) (xs ys : List β) :
    runFold f a (xs ++ ys) = runThen (runFold f a xs) (fun a' => runFold f a' ys) := by
  induction xs generalizing a with
  | nil => rfl
  | cons b rest ih => simp only [List.cons_append, runFold_cons, runThen_assoc, ih]

/-- The fault gate is closed (R197). -/
theorem gated_of_fault (body : State → Run State) {s : State} (h : s.status.fault = true) : gated body s = .next s := by
  simp [gated, h]

/-- The fault gate is open. -/
theorem gated_of_no_fault (body : State → Run State) {s : State} (h : s.status.fault = false) :
    gated body s = runFinish (body s) := by
  simp [gated, h]

@[simp] theorem runFinish_ok (s : State) : runFinish (.ok s) = .next s := rfl

@[simp] theorem runFinish_raised (c : FaultCode) (i : Word) (s : State) :
    runFinish (.raised c i s) = .next (raiseFault c i s) := rfl

@[simp] theorem runFinish_stopped (e : Fault) : runFinish (.stopped e) = .fault e := rfl

/-- A command goes on exactly when its body has ended or has raised. -/
theorem runFinish_eq_next {r : Run State} {t : State} :
    runFinish r = .next t ↔ r = .ok t ∨ ∃ c i s, r = .raised c i s ∧ t = raiseFault c i s := by
  cases r <;> simp [eq_comm]

/-- What a gated command can answer with a next state: nothing happened, the body ended, or the body raised. -/
theorem gated_eq_next {body : State → Run State} {s t : State} :
    gated body s = .next t ↔
      (s.status.fault = true ∧ t = s) ∨
      (s.status.fault = false ∧ (body s = .ok t ∨ ∃ c i u, body s = .raised c i u ∧ t = raiseFault c i u)) := by
  cases h : s.status.fault
  · simp [gated_of_no_fault body h, runFinish_eq_next]
  · simp [gated_of_fault body h, eq_comm]

@[simp] theorem require_true (c : FaultCode) (i : Word) (s : State) : require true c i s = .ok s := rfl

@[simp] theorem require_false (c : FaultCode) (i : Word) (s : State) : require false c i s = .raised c i s := rfl

/-- The IN_RANGE check passes (R190). -/
theorem checkInRange_ok {s : State} (h : s.inLen.toNat ≤ s.ibufCap.toNat) : checkInRange s = .ok s := by
  simp [checkInRange, h]

/-- The IN_RANGE check raises (R190). -/
theorem checkInRange_raised {s : State} (h : s.ibufCap.toNat < s.inLen.toNat) :
    checkInRange s = .raised .inRange s.inLen s := by
  have h' : ¬ s.inLen.toNat ≤ s.ibufCap.toNat := by omega
  simp [checkInRange, h']

/-- What FREQ does past the gate (R100). -/
theorem freqBody_eq (s : State) :
    freqBody s =
      if s.inLen.toNat ≤ s.ibufCap.toNat then .ok (storeFreq (frequencyTable (inputBytes s)) (clearFreq s))
      else .raised .inRange s.inLen (clearFreq s) := by
  unfold freqBody
  split
  · rename_i h
    rw [checkInRange_ok (s := clearFreq s) h]
    rfl
  · rename_i h
    rw [checkInRange_raised (s := clearFreq s) (Nat.lt_of_not_le h)]
    rfl

/-- What BUILD does past the gate (R110). -/
theorem buildBody_eq (s : State) :
    buildBody s = if s.status.freqValid then .ok (storeTree (clearTree s)) else .raised .missingState 0 (clearTree s) := by
  unfold buildBody
  cases s.status.freqValid <;> rfl

/-- What GENCODE does past the gate (R130). -/
theorem gencodeBody_eq (s : State) :
    gencodeBody s = if s.status.treeValid then generate (clearCode s) else .raised .missingState 1 (clearCode s) := by
  unfold gencodeBody
  cases s.status.treeValid <;> rfl

/-- What PACK does past the gate, its checks in the order of R199 (R140). -/
theorem packBody_eq (s : State) :
    packBody s =
      if s.status.codeValid then
        if s.inLen.toNat ≤ s.ibufCap.toNat then packInto (clearPack s) else .raised .inRange s.inLen (clearPack s)
      else .raised .missingState 2 (clearPack s) := by
  unfold packBody
  cases s.status.codeValid
  · rfl
  · simp only [require_true, runThen_ok, if_true]
    split
    · rename_i h
      rw [checkInRange_ok (s := clearPack s) h]
      rfl
    · rename_i h
      rw [checkInRange_raised (s := clearPack s) (Nat.lt_of_not_le h)]
      rfl

/-- The LEN_RANGE check (R195). -/
theorem checkLenRange_eq (s : State) :
    checkLenRange s =
      if s.lenEn = true ∧ 8 * s.inLen.toNat < s.decBitLen.toNat then .raised .lenRange s.decBitLen s else .ok s := by
  unfold checkLenRange require
  cases s.lenEn
  · simp
  · by_cases h : s.decBitLen.toNat ≤ 8 * s.inLen.toNat
    · simp [h, Nat.not_lt.2 h]
    · simp [h, Nat.lt_of_not_le h]

/-- The EMPTY_TREE check (R194). -/
theorem checkTree_eq (s : State) :
    checkTree s =
      if bitCount s ≠ 0 ∧ s.root.valid = false then .raised .emptyTree (BitVec.ofNat 32 (bitCount s)) s else .ok s := by
  unfold checkTree require
  by_cases h : bitCount s = 0
  · simp [h]
  · cases hr : s.root.valid <;> simp [h]

/-- What UNPACK does past the gate, its checks in the order of R199 (R155). -/
theorem unpackBody_eq (s : State) :
    unpackBody s =
      if s.status.treeValid then
        if s.inLen.toNat ≤ s.ibufCap.toNat then
          if s.lenEn = true ∧ 8 * s.inLen.toNat < s.decBitLen.toNat then .raised .lenRange s.decBitLen (clearUnpack s)
          else if bitCount s ≠ 0 ∧ s.root.valid = false then
            .raised .emptyTree (BitVec.ofNat 32 (bitCount s)) (clearUnpack s)
          else walkInto (clearUnpack s)
        else .raised .inRange s.inLen (clearUnpack s)
      else .raised .missingState 1 (clearUnpack s) := by
  unfold unpackBody
  cases s.status.treeValid
  · rfl
  · simp only [require_true, runThen_ok, if_true]
    split
    · rename_i h
      rw [checkInRange_ok (s := clearUnpack s) h, runThen_ok, checkLenRange_eq]
      split
      · rename_i h1
        have h1 : s.lenEn = true ∧ 8 * s.inLen.toNat < s.decBitLen.toNat := h1
        rw [runThen_raised, if_pos h1]
        rfl
      · rename_i h1
        have h1 : ¬(s.lenEn = true ∧ 8 * s.inLen.toNat < s.decBitLen.toNat) := h1
        rw [runThen_ok, checkTree_eq, if_neg h1]
        split
        · rename_i h2
          have h2 : bitCount s ≠ 0 ∧ s.root.valid = false := h2
          rw [runThen_raised, if_pos h2]
          rfl
        · rename_i h2
          have h2 : ¬(bitCount s ≠ 0 ∧ s.root.valid = false) := h2
          rw [runThen_ok, if_neg h2]
    · rename_i h
      rw [checkInRange_raised (s := clearUnpack s) (Nat.lt_of_not_le h)]
      rfl

end Sys2Proof.Machine
end

