-- ==== Sys2Proof/Laws/Packing.lean ====
section
/-!
SUPPORT. The packer in closed form: after shifting a bit sequence its registers and OBUF hold the Packed Buffer of that
sequence (spec 30_encoding.md R89, 43_pack.md R141, R142), and when it raises.
-/

namespace Sys2Proof.Machine

open Sys2Proof.Claims

theorem bitPos_eq (k : Nat) : bitPos k = k := rfl

/-- One bit of a packed byte (R89). -/
theorem packedByte_getLsbD (bits : List Bool) (k i : Nat) (hi : i < 8) :
    (packedByte bits k).getLsbD i = bits.getD (8 * k + i) false := by
  have key : ∀ (c0 c1 c2 c3 c4 c5 c6 c7 : Bool) (i : Nat), i < 8 →
      (BitVec.ofNat 8 (([c0.toNat * 2 ^ 0, c1.toNat * 2 ^ 1, c2.toNat * 2 ^ 2, c3.toNat * 2 ^ 3, c4.toNat * 2 ^ 4,
        c5.toNat * 2 ^ 5, c6.toNat * 2 ^ 6, c7.toNat * 2 ^ 7]).sum)).getLsbD i =
      [c0, c1, c2, c3, c4, c5, c6, c7].getD i false := by decide +revert
  have hk := key (bits.getD (8 * k + 0) false) (bits.getD (8 * k + 1) false) (bits.getD (8 * k + 2) false)
    (bits.getD (8 * k + 3) false) (bits.getD (8 * k + 4) false) (bits.getD (8 * k + 5) false)
    (bits.getD (8 * k + 6) false) (bits.getD (8 * k + 7) false) i hi
  have hl : packedByte bits k = BitVec.ofNat 8 (([(bits.getD (8 * k + 0) false).toNat * 2 ^ 0,
      (bits.getD (8 * k + 1) false).toNat * 2 ^ 1, (bits.getD (8 * k + 2) false).toNat * 2 ^ 2,
      (bits.getD (8 * k + 3) false).toNat * 2 ^ 3, (bits.getD (8 * k + 4) false).toNat * 2 ^ 4,
      (bits.getD (8 * k + 5) false).toNat * 2 ^ 5, (bits.getD (8 * k + 6) false).toNat * 2 ^ 6,
      (bits.getD (8 * k + 7) false).toNat * 2 ^ 7]).sum) := rfl
  rw [hl, hk]
  obtain rfl | rfl | rfl | rfl | rfl | rfl | rfl | rfl : i = 0 ∨ i = 1 ∨ i = 2 ∨ i = 3 ∨ i = 4 ∨ i = 5 ∨ i = 6 ∨ i = 7 := by
    omega
  all_goals rfl

theorem setBit_getLsbD (v : Byte) (k i : Nat) (b : Bool) (hk : k < 8) (hi : i < 8) :
    (setBit v k b).getLsbD i = if i = k then b else v.getLsbD i := by
  unfold setBit
  cases b <;> simp only [Bool.false_eq_true, if_false, if_true]
  · by_cases h : i = k
    · subst h; simp [hi]
    · have : (1#8 <<< k).getLsbD i = false := by
        simp only [BitVec.getLsbD_shiftLeft, BitVec.getLsbD_one]
        simp; omega
      rw [BitVec.getLsbD_and, BitVec.getLsbD_not, this, if_neg h]
      simp [hi]
  · by_cases h : i = k
    · subst h; simp [hi]
    · have : (1#8 <<< k).getLsbD i = false := by
        simp only [BitVec.getLsbD_shiftLeft, BitVec.getLsbD_one]
        simp; omega
      simp [this, h]

/-- What a packer holds after shifting `bits` into a buffer that held `m` (R141): BCNT, NACC, ACC with the bits of the
unfinished group and zeros above them, and the finished bytes. -/
structure PackerHolds (m : List Host.Cell) (bits : List Bool) (p : Packer) : Prop where
  bcnt : p.bcnt = bits.length
  optr : p.sink.optr = bits.length / 8
  nacc : p.nacc = bits.length % 8
  acc : p.acc = packedByte bits (bits.length / 8)
  obuf : ∀ a, Memory.read? p.sink.obuf a =
    if a < bits.length / 8 then some (packedByte bits a) else Memory.read? m a

theorem packedByte_of_agree {xs ys : List Bool} {k : Nat}
    (h : ∀ i < 8, xs.getD (8 * k + i) false = ys.getD (8 * k + i) false) : packedByte xs k = packedByte ys k := by
  apply BitVec.eq_of_getLsbD_eq
  intro i hi
  rw [packedByte_getLsbD _ _ _ hi, packedByte_getLsbD _ _ _ hi, h i hi]

theorem packedByte_append_lt (xs ys : List Bool) {k : Nat} (h : k < xs.length / 8) :
    packedByte (xs ++ ys) k = packedByte xs k :=
  packedByte_of_agree (fun i hi => by
    rw [List.getD_eq_getElem?_getD, List.getD_eq_getElem?_getD, List.getElem?_append_left (by omega)])

/-- A byte wholly beyond the sequence is 0. -/
theorem packedByte_beyond (xs : List Bool) {k : Nat} (h : xs.length ≤ 8 * k) : packedByte xs k = 0 := by
  apply BitVec.eq_of_getLsbD_eq
  intro i hi
  rw [packedByte_getLsbD _ _ _ hi, List.getD_eq_default _ _ (by omega)]
  simp

theorem setBit_packedByte (bits : List Bool) (b : Bool) :
    setBit (packedByte bits (bits.length / 8)) (bits.length % 8) b = packedByte (bits ++ [b]) (bits.length / 8) := by
  apply BitVec.eq_of_getLsbD_eq
  intro i hi
  rw [setBit_getLsbD _ _ _ _ (Nat.mod_lt _ (by decide)) hi, packedByte_getLsbD _ _ _ hi, packedByte_getLsbD _ _ _ hi]
  simp only [List.getD_eq_getElem?_getD]
  split
  · rename_i h
    have : 8 * (bits.length / 8) + i = bits.length := by omega
    rw [this]
    simp
  · rename_i h
    by_cases hl : 8 * (bits.length / 8) + i < bits.length
    · rw [List.getElem?_append_left hl]
    · rw [List.getElem?_eq_none (by omega), List.getElem?_eq_none (by simp; omega)]

theorem packerHolds_start (m : List Host.Cell) :
    PackerHolds m [] { sink := { obuf := m, optr := 0 }, acc := 0, nacc := 0, bcnt := 0 } where
  bcnt := rfl
  optr := rfl
  nacc := rfl
  acc := (packedByte_beyond [] (by simp)).symm
  obuf := fun a => by simp

/-- ACC emitted (R140), or no room for it (R191). -/
theorem flushAcc_eq (cap : Nat) (p : Packer) :
    flushAcc cap p =
      if cap ≤ p.sink.optr then .raised .outOverflow (BitVec.ofNat 32 p.sink.optr) p
      else .ok { sink := { obuf := Memory.write p.sink.obuf p.sink.optr p.acc, optr := p.sink.optr + 1 }, acc := 0,
                 nacc := 0, bcnt := p.bcnt } := by
  unfold flushAcc emit
  by_cases h : cap ≤ p.sink.optr
  · simp only [if_pos h]
  · simp only [if_neg h]

/-- One shifted bit (R141): it is added, unless it completes a byte for which there is no room (R191). -/
theorem shiftBit_spec {m : List Host.Cell} {bits : List Bool} {p : Packer} (h : PackerHolds m bits p) (cap : Nat)
    (b : Bool) :
    if bits.length % 8 = 7 ∧ cap ≤ bits.length / 8 then
      ∃ q, shiftBit cap p b = .raised .outOverflow (BitVec.ofNat 32 (bits.length / 8)) q ∧ q.sink = p.sink
    else ∃ q, shiftBit cap p b = .ok q ∧ PackerHolds m (bits ++ [b]) q := by
  have hshift : shiftBit cap p b =
      if bits.length % 8 + 1 = 8 then
        flushAcc cap { sink := p.sink, acc := packedByte (bits ++ [b]) (bits.length / 8), nacc := bits.length % 8 + 1,
                       bcnt := bits.length + 1 }
      else .ok { sink := p.sink, acc := packedByte (bits ++ [b]) (bits.length / 8), nacc := bits.length % 8 + 1,
                 bcnt := bits.length + 1 } := by
    rw [← setBit_packedByte, ← h.acc, ← h.nacc, ← h.bcnt]
    rfl
  rw [hshift]
  by_cases h7 : bits.length % 8 = 7
  · rw [if_pos (show bits.length % 8 + 1 = 8 by omega), flushAcc_eq]
    simp only [h.optr]
    by_cases hc : cap ≤ bits.length / 8
    · rw [if_pos ⟨h7, hc⟩, if_pos hc]
      exact ⟨_, rfl, rfl⟩
    · rw [if_neg (fun hx => hc hx.2), if_neg hc]
      have hd : (bits.length + 1) / 8 = bits.length / 8 + 1 := by omega
      refine ⟨_, rfl, ?_, ?_, ?_, ?_, ?_⟩
      · simp
      · simp [hd]
      · simp; omega
      · simp only [List.length_append, List.length_singleton, hd]
        rw [packedByte_beyond _ (by simp; omega)]
      · intro a
        simp only [Memory.read?_write, h.obuf, List.length_append, List.length_singleton, hd]
        by_cases ha : a = bits.length / 8
        · subst ha; simp
        · by_cases hl : a < bits.length / 8
          · rw [if_neg ha, if_pos hl, if_pos (by omega), packedByte_append_lt _ _ hl]
          · rw [if_neg ha, if_neg hl, if_neg (by omega)]
  · rw [if_neg (show ¬ bits.length % 8 + 1 = 8 by omega), if_neg (fun hx => h7 hx.1)]
    have hd : (bits.length + 1) / 8 = bits.length / 8 := by omega
    refine ⟨_, rfl, ?_, ?_, ?_, ?_, ?_⟩
    · simp
    · simp [h.optr, hd]
    · simp; omega
    · simp [hd]
    · intro a
      simp only [h.obuf, List.length_append, List.length_singleton, hd]
      split
      · rename_i hl
        rw [packedByte_append_lt _ _ hl]
      · rfl

/-- A code shifted (R140): it is added when its finished bytes fit; else the first byte that does not fit raises
OUT_OVERFLOW(cap). -/
theorem shiftBits_spec {m : List Host.Cell} {bits : List Bool} {p : Packer} (h : PackerHolds m bits p) {cap : Nat}
    (hc : bits.length / 8 ≤ cap) (more : List Bool) :
    if (bits ++ more).length / 8 ≤ cap then
      ∃ q, runFold (shiftBit cap) p more = .ok q ∧ PackerHolds m (bits ++ more) q
    else ∃ q, runFold (shiftBit cap) p more = .raised .outOverflow (BitVec.ofNat 32 cap) q ∧
      q.sink.optr = cap ∧ ∀ a, cap ≤ a → Memory.read? q.sink.obuf a = Memory.read? m a := by
  induction more generalizing bits p with
  | nil => simp only [List.append_nil, if_pos hc]; exact ⟨p, rfl, h⟩
  | cons b rest ih =>
    have hs := shiftBit_spec h cap b
    rw [runFold_cons]
    by_cases hb : bits.length % 8 = 7 ∧ cap ≤ bits.length / 8
    · rw [if_pos hb] at hs
      obtain ⟨q, hq, hqs⟩ := hs
      have heq : bits.length / 8 = cap := by omega
      rw [if_neg (by simp; omega), hq, runThen_raised]
      refine ⟨q, by rw [heq], by rw [hqs, h.optr, heq], fun a ha => ?_⟩
      rw [hqs, h.obuf, if_neg (by omega)]
    · rw [if_neg hb] at hs
      obtain ⟨q, hq, hqh⟩ := hs
      have hle : (bits ++ [b]).length / 8 ≤ cap := by simp; omega
      have := ih hqh hle
      rw [hq, runThen_ok]
      simpa only [List.append_assoc, List.singleton_append] using this

/-- The bytes of the input packed, one after another, when each has a code (R140). -/
theorem packBytes_spec (code : List (Nat × Code)) {cap : Nat} {m : List Host.Cell} (bytes : List Byte)
    (hv : ∀ b ∈ bytes, (codeAt code b.toNat).valid = true) (n : Nat) {bits : List Bool} {p : Packer}
    (h : PackerHolds m bits p) (hc : bits.length / 8 ≤ cap) :
    if (bits ++ bitSequence code bytes).length / 8 ≤ cap then
      ∃ q, runFold (packByte code cap) p (bytes.zipIdx n) = .ok q ∧ PackerHolds m (bits ++ bitSequence code bytes) q
    else ∃ q, runFold (packByte code cap) p (bytes.zipIdx n) = .raised .outOverflow (BitVec.ofNat 32 cap) q ∧
      q.sink.optr = cap ∧ ∀ a, cap ≤ a → Memory.read? q.sink.obuf a = Memory.read? m a := by
  induction bytes generalizing n bits p with
  | nil =>
    simp only [bitSequence, List.flatMap_nil, List.append_nil, if_pos hc]
    exact ⟨p, rfl, h⟩
  | cons b rest ih =>
    have hb : (codeAt code b.toNat).valid = true := hv b (by simp)
    have hseq : bitSequence code (b :: rest) = (codeAt code b.toNat).sequence ++ bitSequence code rest := rfl
    have hstep : packByte code cap p (b, n) = runFold (shiftBit cap) p (codeAt code b.toNat).sequence := by
      simp [packByte, hb]
    rw [List.zipIdx_cons, runFold_cons, hstep, hseq, ← List.append_assoc]
    have hs := shiftBits_spec h hc (codeAt code b.toNat).sequence
    by_cases hl : (bits ++ (codeAt code b.toNat).sequence).length / 8 ≤ cap
    · rw [if_pos hl] at hs
      obtain ⟨q, hq, hqh⟩ := hs
      rw [hq, runThen_ok]
      exact ih (fun c hc' => hv c (by simp [hc'])) (n + 1) hqh hl
    · rw [if_neg hl] at hs
      obtain ⟨q, hq, hqs⟩ := hs
      rw [hq, runThen_raised, if_neg]
      · exact ⟨q, rfl, hqs⟩
      · intro hx
        apply hl
        rw [List.length_append] at hx
        omega

/-- The last group (R142): the packed buffer is complete, or there is no room for its last byte (R191). -/
theorem flushLast_spec {m : List Host.Cell} {bits : List Bool} {p : Packer} (h : PackerHolds m bits p) {cap : Nat}
    (hc : bits.length / 8 ≤ cap) :
    if bytesFor bits.length ≤ cap then
      ∃ q, flushLast cap p = .ok q ∧ q.bcnt = bits.length ∧ q.sink.optr = bytesFor bits.length ∧
        ∀ a, Memory.read? q.sink.obuf a =
          if a < bytesFor bits.length then some (packedByte bits a) else Memory.read? m a
    else ∃ q, flushLast cap p = .raised .outOverflow (BitVec.ofNat 32 cap) q ∧
      q.sink.optr = cap ∧ ∀ a, cap ≤ a → Memory.read? q.sink.obuf a = Memory.read? m a := by
  unfold flushLast bytesFor
  rw [h.nacc]
  by_cases h0 : 0 < bits.length % 8
  · have hd : (bits.length + 7) / 8 = bits.length / 8 + 1 := by omega
    rw [if_pos h0, hd]
    rw [flushAcc_eq]
    simp only [h.optr]
    by_cases hf : bits.length / 8 + 1 ≤ cap
    · rw [if_pos hf, if_neg (show ¬ cap ≤ bits.length / 8 by omega)]
      refine ⟨_, rfl, h.bcnt, rfl, fun a => ?_⟩
      simp only [Memory.read?_write, h.obuf, h.acc]
      by_cases ha : a = bits.length / 8
      · subst ha; simp
      · by_cases hl : a < bits.length / 8
        · rw [if_neg ha, if_pos hl, if_pos (by omega)]
        · rw [if_neg ha, if_neg hl, if_neg (by omega)]
    · have heq : bits.length / 8 = cap := by omega
      rw [if_neg hf, if_pos (by omega), heq]
      refine ⟨p, rfl, by rw [h.optr, heq], fun a ha => ?_⟩
      rw [h.obuf, if_neg (by omega)]
  · have hd : (bits.length + 7) / 8 = bits.length / 8 := by omega
    rw [if_neg h0, hd, if_pos hc]
    exact ⟨p, rfl, h.bcnt, h.optr, h.obuf⟩

/-- The whole packing run when every input byte has a code (R140, R143, R191). -/
theorem packRun_spec (s : State) (hv : AllCoded s) :
    let bits := bitSequence s.code (inputBytes s)
    if bytesFor bits.length ≤ s.obufCap.toNat then
      ∃ q, packRun s = .ok q ∧ q.bcnt = bits.length ∧ q.sink.optr = bytesFor bits.length ∧
        ∀ a, Memory.read? q.sink.obuf a =
          if a < bytesFor bits.length then some (packedByte bits a) else Memory.read? s.obuf a
    else ∃ q, packRun s = .raised .outOverflow (BitVec.ofNat 32 s.obufCap.toNat) q ∧
      q.sink.optr = s.obufCap.toNat ∧
      ∀ a, s.obufCap.toNat ≤ a → Memory.read? q.sink.obuf a = Memory.read? s.obuf a := by
  intro bits
  have hb := packBytes_spec s.code (cap := s.obufCap.toNat) (inputBytes s) hv 0 (packerHolds_start s.obuf) (Nat.zero_le _)
  rw [List.nil_append] at hb
  unfold packRun
  by_cases hl : bits.length / 8 ≤ s.obufCap.toNat
  · rw [if_pos hl] at hb
    obtain ⟨q, hq, hqh⟩ := hb
    rw [hq, runThen_ok]
    exact flushLast_spec hqh hl
  · rw [if_neg hl] at hb
    obtain ⟨q, hq, hqs⟩ := hb
    rw [hq, runThen_raised, if_neg (by unfold bytesFor; omega)]
    exact ⟨q, rfl, hqs⟩

/-- The packing run overflows in the codes of the first `i` bytes, whatever comes after them (R191, R199 item 7). -/
theorem packRun_overflow (s : State) (i : Nat)
    (hv : ∀ b ∈ (inputBytes s).take i, (codeAt s.code b.toNat).valid = true)
    (hl : s.obufCap.toNat < (bitSequence s.code ((inputBytes s).take i)).length / 8) :
    ∃ q, packRun s = .raised .outOverflow (BitVec.ofNat 32 s.obufCap.toNat) q ∧ q.sink.optr = s.obufCap.toNat := by
  have hb := packBytes_spec s.code (cap := s.obufCap.toNat) ((inputBytes s).take i) hv 0 (packerHolds_start s.obuf)
    (Nat.zero_le _)
  rw [List.nil_append, if_neg (by omega)] at hb
  obtain ⟨q, hq, ho, -⟩ := hb
  refine ⟨q, ?_, ho⟩
  unfold packRun
  rw [← List.take_append_drop i (inputBytes s), List.zipIdx_append, runFold_append, hq]
  rfl

/-- COMPRESS past the gate is its first three stages, then PACK (R173). -/
theorem compressBody_eq (s : State) : compressBody s = runThen (beforePackStage s) packBody := by
  simp only [compressBody, beforePackStage, runThen_assoc]

end Sys2Proof.Machine
end

