-- ==== Sys2Proof/Laws/PerInstr.lean ====
section
/-!
SUPPORT. The per-instruction family RoundTrip: every command is well-formed, and its word is legal and decodes to it
(spec 30_encoding.md R80, R81).
-/

namespace Sys2Proof.Laws.RoundTrip

/-- The command is well-formed, its word is legal, and the decoder reads the command back from it. -/
def Statement (i : Instr) : Prop :=
  i.wf = true ∧ commandWordWf (encode i) = true ∧ decode (encode i) = .ok i ∧
    decodeTableWord 32 (encode i).toNat = some i

theorem nop : Statement .nop := ⟨rfl, by decide, rfl, rfl⟩
theorem rst : Statement .rst := ⟨rfl, by decide, rfl, rfl⟩
theorem freq : Statement .freq := ⟨rfl, by decide, rfl, rfl⟩
theorem build : Statement .build := ⟨rfl, by decide, rfl, rfl⟩
theorem gencode : Statement .gencode := ⟨rfl, by decide, rfl, rfl⟩
theorem pack : Statement .pack := ⟨rfl, by decide, rfl, rfl⟩
theorem unpack : Statement .unpack := ⟨rfl, by decide, rfl, rfl⟩
theorem compress : Statement .compress := ⟨rfl, by decide, rfl, rfl⟩
theorem discard : Statement .discard := ⟨rfl, by decide, rfl, rfl⟩

end Sys2Proof.Laws.RoundTrip
end

