-- ==== Sys2Proof/Laws/Script.lean ====
section
/-!
SUPPORT. The pseudo-commands RDOUT and MOVOI are the accesses of their expansion (spec 30_encoding.md R91), and the reserved
bits of a table word are 0 whether or not the table is valid (R85, R86).
-/

namespace Sys2Proof.Machine

/-- Accesses in two parts: what both parts read. -/
theorem serveAll_append {xs ys : List Access} {s t u : State} {v w : List Word} (hx : serveAll xs s = .next (v, t))
    (hy : serveAll ys t = .next (w, u)) : serveAll (xs ++ ys) s = .next (v ++ w, u) := by
  induction xs generalizing s v with
  | nil =>
    simp only [serveAll, Host.Outcome.next.injEq, Prod.mk.injEq] at hx
    obtain ⟨rfl, rfl⟩ := hx
    exact hy
  | cons a rest ih =>
    rw [List.cons_append, serveAll]
    rw [serveAll] at hx
    cases ha : serve a s with
    | fault r => simp [ha] at hx
    | refused r => simp [ha] at hx
    | next s' =>
      simp only [ha] at hx ⊢
      cases hr : serveAll rest s' with
      | fault r => simp [hr] at hx
      | refused r => simp [hr] at hx
      | next r =>
        simp only [hr, Host.Outcome.next.injEq, Prod.mk.injEq] at hx
        obtain ⟨rfl, rfl⟩ := hx
        rw [ih hr]
        simp

/-- A read in a script is the read access, and its word is the one returned. -/
theorem serveAll_read (space : Space) (index : Nat) (s : State) :
    serveAll [.read space (BitVec.ofNat 32 index)] s = .next ([(readWord space index s).1], (readWord space index s).2) := rfl

/-- A buffer byte reads as a byte: the upper 24 bits of the word are 0 (R61). -/
theorem memRead_obuf_setWidth (i : Nat) (s : State) : ((memRead .obuf i s).setWidth 8).setWidth 32 = memRead .obuf i s := by
  have hb : ∀ b : Byte, ((b.setWidth 32).setWidth 8).setWidth 32 = b.setWidth 32 := by decide
  unfold memRead
  split
  · rfl
  · split
    · simp only [contentWord]
      split
      · exact hb _
      · exact hb _
    · exact hb _

/-- The byte reads of RDOUT return the bytes of its result, as words. -/
theorem serveAll_readOutput (n first : Nat) (s : State) :
    serveAll ((List.range' first n).map (fun i => .read .obuf (BitVec.ofNat 32 i))) s =
      .next ((readOutput n first s).1.map (BitVec.setWidth 32), (readOutput n first s).2) := by
  induction n generalizing first s with
  | zero => rfl
  | succ n ih =>
    have h := serveAll_append (serveAll_read .obuf first s) (ih (first + 1) (readWord .obuf first s).2)
    rw [List.range'_succ, List.map_cons]
    refine h.trans ?_
    simp only [readOutput, List.map_cons, List.cons_append, List.nil_append]
    rw [show (readWord .obuf first s).1 = memRead .obuf (BitVec.ofNat 32 first).toNat s from rfl, memRead_obuf_setWidth]

/-- RDOUT is the accesses of its expansion, as many as its own first read says (R91). -/
theorem playScript_rdout (s : State) :
    playScript (rdoutLines s.outLen.toNat) s =
      .next (s.outLen :: (rdout s).1.map (BitVec.setWidth 32), (rdout s).2) := by
  have h := serveAll_append (serveAll_read .reg RegName.outLen.index s)
    (serveAll_readOutput s.outLen.toNat 0 (readWord .reg RegName.outLen.index s).2)
  rw [playScript, rdoutLines, List.map_cons, List.map_map, List.range_eq_range']
  exact h

/-- RDOUT reads OUT_LEN bytes. -/
theorem rdout_length (s : State) : (rdout s).1.length = s.outLen.toNat := by
  have hread : ∀ (n first : Nat) (s : State), (readOutput n first s).1.length = n := by
    intro n
    induction n with
    | zero => exact fun _ _ => rfl
    | succ n ih => exact fun first s => by simp [readOutput, ih]
  exact hread _ _ _

/-- The bits above the fields of a NODEA word, whatever the fields (R85). -/
theorem append_high_zero (x : BitVec 28) : ((0#4 ++ x : BitVec (4 + 28)) : Word).extractLsb' 28 4 = 0 := by
  ext k hk
  rw [BitVec.getElem_extractLsb']
  rw [BitVec.getLsbD_append, if_neg (by omega)]
  simp

/-- The bits between the fields of a CODEL word, whatever the fields (R86). -/
theorem append_middle_zero (v : BitVec 1) (l : Byte) :
    ((v ++ 0#23 ++ l : BitVec (1 + 23 + 8)) : Word).extractLsb' 8 23 = 0 := by
  ext k hk
  rw [BitVec.getElem_extractLsb']
  rw [BitVec.getLsbD_append, if_neg (by omega), BitVec.getLsbD_append, if_pos (by omega)]
  simp

/-- Bits 31:28 of a word of NODEA are 0 in every state (R85). -/
theorem memRead_nodea_reserved (i : Nat) (s : State) : (memRead .nodea i s).extractLsb' 28 4 = 0 := by
  unfold memRead
  split
  · decide
  · split
    · have hn : ∀ n : Node, nodeaWord n = 0#4 ++ (n.right ++ n.left ++ n.sym ++ n.kind.number) := fun n => by
        simp only [nodeaWord, BitVec.append_assoc, BitVec.cast_eq]
      rw [show contentWord s .nodea i = nodeaWord (nodeAt s.node i) from rfl, hn]
      exact append_high_zero _
    · exact append_high_zero _

/-- Bits 30:8 of a word of CODEL are 0 in every state (R86). -/
theorem memRead_codel_reserved (i : Nat) (s : State) : (memRead .codel i s).extractLsb' 8 23 = 0 := by
  unfold memRead
  split
  · decide
  · split
    · exact append_middle_zero _ _
    · exact append_middle_zero _ _

end Sys2Proof.Machine
end

