-- ==== Sys2Proof/Laws/Walking.lean ====
section
/-!
SUPPORT. The walk in closed form: what the decoder holds after a bit sequence is what `decodeBits` says (spec 44_unpack.md
R158, R159), and when it raises.
-/

namespace Sys2Proof.Machine

open Sys2Proof.Claims

/-- What a walker holds when it stands at `cur` after emitting `out` into a buffer that held `m`. -/
structure WalkerHolds (m : List Host.Cell) (out : List Byte) (cur : NodeIdx) (w : Walker) : Prop where
  cur : w.cur = cur
  optr : w.sink.optr = out.length
  obuf : ∀ a, Memory.read? w.sink.obuf a = if a < out.length then out[a]? else Memory.read? m a

theorem walkerHolds_start (m : List Host.Cell) (cur : NodeIdx) :
    WalkerHolds m [] cur { sink := { obuf := m, optr := 0 }, cur := cur } where
  cur := rfl
  optr := rfl
  obuf := fun a => by simp

theorem walkerHolds_emit {m : List Host.Cell} {out : List Byte} {cur root : NodeIdx} {w : Walker}
    (h : WalkerHolds m out cur w) (v : Byte) :
    WalkerHolds m (out ++ [v]) root
      { sink := { obuf := Memory.write w.sink.obuf w.sink.optr v, optr := w.sink.optr + 1 }, cur := root } where
  cur := rfl
  optr := by simp [h.optr]
  obuf := fun a => by
    simp only [Memory.read?_write, h.obuf, h.optr, List.length_append, List.length_singleton]
    by_cases ha : a = out.length
    · subst ha; simp
    · by_cases hl : a < out.length
      · rw [if_neg ha, if_pos hl, if_pos (by omega), List.getElem?_append_left hl]
      · rw [if_neg ha, if_neg hl, if_neg (by omega)]

theorem walkerHolds_move {m : List Host.Cell} {out : List Byte} {cur : NodeIdx} {w : Walker}
    (h : WalkerHolds m out cur w) (c : NodeIdx) : WalkerHolds m out c { w with cur := c } where
  cur := rfl
  optr := h.optr
  obuf := h.obuf

/-- A bit that leads to a leaf (R159, R191). -/
theorem walkBit_leaf {nodes : List (Nat × Node)} {cap : Nat} {w : Walker} {b : Bool}
    (h : (nodeAt nodes (childOf (nodeAt nodes w.cur.toNat) b).toNat).kind = .leaf) (root : NodeIdx) (n : Nat) :
    walkBit nodes root cap w (b, n) =
      if cap ≤ w.sink.optr then .raised .outOverflow (BitVec.ofNat 32 w.sink.optr) { sink := w.sink, cur := root }
      else .ok { sink := { obuf := Memory.write w.sink.obuf w.sink.optr
                                     (nodeAt nodes (childOf (nodeAt nodes w.cur.toNat) b).toNat).sym,
                           optr := w.sink.optr + 1 }, cur := root } := by
  simp only [walkBit, h, emit]
  split <;> rfl

/-- A bit that leads to the unused leaf (R163, R193). -/
theorem walkBit_unused {nodes : List (Nat × Node)} {w : Walker} {b : Bool}
    (h : (nodeAt nodes (childOf (nodeAt nodes w.cur.toNat) b).toNat).kind = .unused) (root : NodeIdx) (cap n : Nat) :
    walkBit nodes root cap w (b, n) =
      .raised .unusedLeaf (BitVec.ofNat 32 n) { w with cur := childOf (nodeAt nodes w.cur.toNat) b } := by
  simp only [walkBit, h]

/-- A bit that leads to an internal node, or to an EMPTY slot (R158). -/
theorem walkBit_move {nodes : List (Nat × Node)} {w : Walker} {b : Bool}
    (h : (nodeAt nodes (childOf (nodeAt nodes w.cur.toNat) b).toNat).kind = .internal ∨
      (nodeAt nodes (childOf (nodeAt nodes w.cur.toNat) b).toNat).kind = .empty) (root : NodeIdx) (cap n : Nat) :
    walkBit nodes root cap w (b, n) = .ok { w with cur := childOf (nodeAt nodes w.cur.toNat) b } := by
  rcases h with h | h <;> simp only [walkBit, h]

/-- The walk over a bit sequence that meets no unused leaf and whose symbols fit. -/
theorem walkBits_ok (nodes : List (Nat × Node)) (root : NodeIdx) {cap : Nat} {m : List Host.Cell} (bits : List Bool) (n : Nat)
    {out more : List Byte} {cur last : NodeIdx} {w : Walker} (h : WalkerHolds m out cur w)
    (hd : decodeBits nodes root cur bits = some (more, last)) (hc : (out ++ more).length ≤ cap) :
    ∃ q, runFold (walkBit nodes root cap) w (bits.zipIdx n) = .ok q ∧ WalkerHolds m (out ++ more) last q := by
  induction bits generalizing n out more cur w with
  | nil =>
    simp only [decodeBits, Option.some.injEq, Prod.mk.injEq] at hd
    obtain ⟨rfl, rfl⟩ := hd
    exact ⟨w, rfl, by simpa using h⟩
  | cons b rest ih =>
    rw [List.zipIdx_cons, runFold_cons]
    have hcur := h.cur
    subst hcur
    simp only [decodeBits] at hd
    cases hk : (nodeAt nodes (childOf (nodeAt nodes w.cur.toNat) b).toNat).kind with
    | empty =>
      rw [walkBit_move (Or.inr hk), runThen_ok]
      exact ih (n + 1) (walkerHolds_move h _) (by simpa [hk] using hd) hc
    | internal =>
      rw [walkBit_move (Or.inl hk), runThen_ok]
      exact ih (n + 1) (walkerHolds_move h _) (by simpa [hk] using hd) hc
    | unused => simp [hk] at hd
    | leaf =>
      simp only [hk, Option.map_eq_some_iff, Prod.mk.injEq] at hd
      obtain ⟨⟨more', last'⟩, hd, rfl, rfl⟩ := hd
      have hlt : ¬ cap ≤ w.sink.optr := by
        rw [h.optr]
        simp only [List.length_append, List.length_cons] at hc
        omega
      rw [walkBit_leaf hk, if_neg hlt, runThen_ok]
      have := ih (n + 1) (walkerHolds_emit (root := root) h
        (nodeAt nodes (childOf (nodeAt nodes w.cur.toNat) b).toNat).sym) hd
        (by simpa [Nat.add_comm, Nat.add_left_comm, Nat.add_assoc] using hc)
      simpa only [List.append_assoc, List.singleton_append] using this

theorem decodeBits_append (nodes : List (Nat × Node)) (root : NodeIdx) (xs ys : List Bool) {cur mid : NodeIdx}
    {out : List Byte} (h : decodeBits nodes root cur xs = some (out, mid)) :
    decodeBits nodes root cur (xs ++ ys) = (decodeBits nodes root mid ys).map (fun r => (out ++ r.1, r.2)) := by
  induction xs generalizing cur out with
  | nil =>
    simp only [decodeBits, Option.some.injEq, Prod.mk.injEq] at h
    obtain ⟨rfl, rfl⟩ := h
    simp
  | cons b rest ih =>
    simp only [List.cons_append, decodeBits] at h ⊢
    generalize (nodeAt nodes (childOf (nodeAt nodes cur.toNat) b).toNat).kind = kind at h ⊢
    cases kind with
    | empty => exact ih h
    | internal => exact ih h
    | unused => simp at h
    | leaf =>
      simp only [Option.map_eq_some_iff, Prod.mk.injEq] at h
      obtain ⟨⟨out', mid'⟩, h, rfl, rfl⟩ := h
      simp [ih h, Option.map_map, Function.comp_def]

/-- Adding bits to a walk continues it where it stands. -/
theorem walkBits_append (nodes : List (Nat × Node)) (root : NodeIdx) (cap : Nat) (w : Walker) (xs ys : List Bool) (n : Nat) :
    runFold (walkBit nodes root cap) w ((xs ++ ys).zipIdx n) =
      runThen (runFold (walkBit nodes root cap) w (xs.zipIdx n))
        (fun q => runFold (walkBit nodes root cap) q (ys.zipIdx (n + xs.length))) := by
  rw [List.zipIdx_append, runFold_append]

theorem inputBits_eq (s : State) (n : Nat) : inputBits s n = packedInput s n := rfl

theorem bitCount_eq (s : State) : bitCount s = walkLength s := rfl

theorem packedInput_split (s : State) {k n : Nat} (h : k < n) :
    ∃ rest, packedInput s n = packedInput s k ++ (ibufByte s (k / 8)).getLsbD (k % 8) :: rest := by
  have h1 : List.range n = List.range k ++ List.range' k (n - k) := by
    have := List.range'_append (s := 0) (m := k) (n := n - k) (step := 1)
    rw [List.range_eq_range', List.range_eq_range', show n = k + (n - k) by omega, ← this]
    simp
  have h2 : List.range' k (n - k) = k :: List.range' (k + 1) (n - k - 1) := by
    obtain ⟨d, hd⟩ : ∃ d, n - k = d + 1 := ⟨n - k - 1, by omega⟩
    rw [hd, List.range'_succ]
    rfl
  refine ⟨(List.range' (k + 1) (n - k - 1)).map (fun t => (ibufByte s (t / 8)).getLsbD (t % 8)), ?_⟩
  unfold packedInput
  rw [h1, h2, List.map_append, List.map_cons]

/-- The whole walk when it meets no unused leaf and its symbols fit (R155). -/
theorem walkRun_ok (s : State) {out : List Byte} {cur : NodeIdx}
    (hd : decodeBits s.node s.root.idx s.root.idx (packedInput s (walkLength s)) = some (out, cur))
    (hc : out.length ≤ s.obufCap.toNat) : ∃ q, walkRun s = .ok q ∧ WalkerHolds s.obuf out cur q := by
  have := walkBits_ok s.node s.root.idx (cap := s.obufCap.toNat) (packedInput s (walkLength s)) 0
    (walkerHolds_start s.obuf s.root.idx) hd (by simpa using hc)
  exact this

/-- The walk stops at bit `k` when that bit raises (R191, R193). -/
theorem walkRun_raised (s : State) {k : Nat} {out : List Byte} {cur : NodeIdx} (hk : k < walkLength s)
    (hd : decodeBits s.node s.root.idx s.root.idx (packedInput s k) = some (out, cur))
    (hc : out.length ≤ s.obufCap.toNat) {c : FaultCode} {i : Word}
    (hr : ∀ w, WalkerHolds s.obuf out cur w →
      ∃ q, walkBit s.node s.root.idx s.obufCap.toNat w ((ibufByte s (k / 8)).getLsbD (k % 8), k) = .raised c i q ∧
        q.sink = w.sink) :
    ∃ q, walkRun s = .raised c i q ∧ q.sink.optr = out.length ∧
      ∀ a, Memory.read? q.sink.obuf a = if a < out.length then out[a]? else Memory.read? s.obuf a := by
  obtain ⟨rest, hsplit⟩ := packedInput_split s hk
  obtain ⟨w, hw, hwh⟩ := walkBits_ok s.node s.root.idx (cap := s.obufCap.toNat) (packedInput s k) 0
    (walkerHolds_start s.obuf s.root.idx) hd (by simpa using hc)
  rw [List.nil_append] at hwh
  obtain ⟨q, hq, hqs⟩ := hr w hwh
  refine ⟨q, ?_, by rw [hqs, hwh.optr], fun a => by rw [hqs, hwh.obuf]⟩
  unfold walkRun
  rw [bitCount_eq, inputBits_eq, hsplit, walkBits_append, hw, runThen_ok, List.zipIdx_cons, runFold_cons]
  have hlen : 0 + (packedInput s k).length = k := by simp [packedInput]
  rw [hlen, hq, runThen_raised]

end Sys2Proof.Machine
end

