-- ==== Sys2Proof/Tests/Slice0.lean ====
section
/-!
SUPPORT. The model's own tests, on the worked vectors of spec 95_test_vectors.md, and for each statement with hypotheses a
witness that they can all hold together.
-/

namespace Sys2Proof.Tests

open Sys2Proof Sys2Proof.Machine Sys2Proof.Claims

/-! ### Well-formedness -/

theorem test_legal_words : commandWordWf 0x00000000 = true ∧ commandWordWf 0x00000008 = true := by decide

theorem test_zero_field_refused : commandWordWf 0x00000105 = false ∧ commandWordWf 0x80000000 = false := by decide

theorem test_reserved_opcode_refused : commandWordWf 0x00000009 = false ∧ commandWordWf 0x000000FF = false := by decide

theorem test_ibuf_size : ibufSizeWf 0 = false ∧ ibufSizeWf 1 = true ∧ ibufSizeWf 16777216 = true ∧
    ibufSizeWf 16777217 = false := by decide

theorem test_obuf_size : obufSizeWf 0 = false ∧ obufSizeWf 1 = true ∧ obufSizeWf 134217728 = true ∧
    obufSizeWf 134217729 = false := by decide

/-! ### Decoding: the words written out bit by bit from R81 (24 zero bits, then the 8 bits of the opcode) -/

theorem test_decode_nop : decode 0b00000000000000000000000000000000#32 = .ok .nop := rfl
theorem test_decode_rst : decode 0b00000000000000000000000000000001#32 = .ok .rst := rfl
theorem test_decode_freq : decode 0b00000000000000000000000000000010#32 = .ok .freq := rfl
theorem test_decode_build : decode 0b00000000000000000000000000000011#32 = .ok .build := rfl
theorem test_decode_gencode : decode 0b00000000000000000000000000000100#32 = .ok .gencode := rfl
theorem test_decode_pack : decode 0b00000000000000000000000000000101#32 = .ok .pack := rfl
theorem test_decode_unpack : decode 0b00000000000000000000000000000110#32 = .ok .unpack := rfl
theorem test_decode_compress : decode 0b00000000000000000000000000000111#32 = .ok .compress := rfl
theorem test_decode_discard : decode 0b00000000000000000000000000001000#32 = .ok .discard := rfl
theorem test_decode_zero_field : decode 0b00000000000000000000000100000101#32 = .error .zeroFieldSet := rfl
theorem test_decode_reserved : decode 0b00000000000000000000000000001001#32 = .error .reservedOpcode := rfl
theorem test_table_word : decodeTableWord 32 5 = some .pack ∧ decodeTableWord 32 9 = none := by decide

/-- No two rows of the opcode map agree on a word: their masks are whole words and their patterns differ. -/
theorem test_rows_do_not_overlap :
    opcodeMap.Pairwise (fun a b => a.pattern &&& (a.mask &&& b.mask) ≠ b.pattern &&& (a.mask &&& b.mask)) := by decide

/-! ### Small states, from vector V-A: "aabbbcc" -/

/-- Whether an outcome is a next state with a property. -/
def answers (o : Host.Outcome State Fault Refusal) (p : State → Bool) : Bool :=
  match o with
  | .next t => p t
  | .fault _ => false
  | .refused _ => false

theorem eq_next_of_answers {o : Host.Outcome State Fault Refusal} {u : State}
    (h : answers o (fun t => decide (t = u)) = true) : o = .next u := by
  cases o with
  | next t => exact congrArg _ (of_decide_eq_true h)
  | fault _ => cases h
  | refused _ => cases h

/-- Some bytes in the input buffer of a core, as LDIN leaves them (R91). -/
def loaded (bytes : List Byte) (s : State) : State :=
  { s with ibuf := bytes.zipIdx.map (fun p => (p.2, p.1)), inLen := BitVec.ofNat 32 bytes.length }

/-- "aabbbcc". -/
def sample : List Byte := [97, 97, 98, 98, 98, 99, 99]

/-- A core after reset, with that input. -/
def start : State := loaded sample State.reset

/-- The same, after FREQ (V-F1). -/
def counted : State :=
  { start with freq := [(97, 2), (98, 3), (99, 2)], nsym := 3, status := { Status.clear with freqValid := true } }

/-- The same, after BUILD (V-A). -/
def built : State :=
  { counted with
    node := [
      (97, { kind := .leaf, sym := 97, weight := 2, left := 0, right := 0 }),
      (98, { kind := .leaf, sym := 98, weight := 3, left := 0, right := 0 }),
      (99, { kind := .leaf, sym := 99, weight := 2, left := 0, right := 0 }),
      (256, { kind := .internal, sym := 0, weight := 4, left := 97, right := 99 }),
      (257, { kind := .internal, sym := 0, weight := 7, left := 98, right := 256 })]
    root := { valid := true, idx := 257 }
    status := { counted.status with treeValid := true } }

/-- The same, after GENCODE (V-A): a = 10, b = 0, c = 11, first bit first. -/
def coded : State :=
  { built with
    code := [
      (97, { valid := true, len := 2, bits := 1 }),
      (98, { valid := true, len := 1, bits := 0 }),
      (99, { valid := true, len := 2, bits := 3 })]
    status := { built.status with codeValid := true } }

/-- The same, after PACK (V-A): 85 07, 11 bits. -/
def packed : State :=
  { coded with
    obuf := [(0, 0x85), (1, 0x07)], outLen := 2, bitLen := 11, status := { coded.status with outValid := true } }

/-- The same, with the packed bytes moved to the input (R91). -/
def moved : State := loaded [0x85, 0x07] packed

/-- The same, in length mode. -/
def movedLen (n : Word) : State := { moved with lenEn := true, decBitLen := n }

/-- A core whose latest command raised MISSING_STATE(0) (V-X4). -/
def faulted : State := raiseFault .missingState 0 State.reset

/-- Core `s` with one access to come. -/
def pending (a : Access) (s : State) : State := { s with port := [a] }

/-- The tree of one symbol (V-D1), and of none (V-D2). -/
def single : State :=
  { loaded [0] State.reset with
    node := [
      (97, { kind := .leaf, sym := 97, weight := 4, left := 0, right := 0 }),
      (256, { kind := .internal, sym := 0, weight := 4, left := 97, right := 511 }),
      (511, { kind := .unused, sym := 0, weight := 0, left := 0, right := 0 })]
    root := { valid := true, idx := 256 }
    status := { Status.clear with treeValid := true, degen := true } }

def emptyTree : State :=
  { loaded [0] State.reset with status := { Status.clear with freqValid := true, treeValid := true, degen := true } }

/-! ### One step each -/

theorem test_nop_even_faulted : exec .nop faulted = .next faulted := rfl

/-- V-C4. -/
theorem test_rst : answers (exec .rst (movedLen 11)) (fun t =>
    decide (t.status.word = 0 ∧ t.root.word = 0 ∧ t.bitLen = 0 ∧ t.decBitLen = 0 ∧ t.nsym = 0 ∧
      Memory.read? t.ibuf 1 = some 7)) = true := by decide

/-- V-X23. -/
theorem test_rst_leaves_fault : answers (exec .rst faulted) (fun t =>
    decide (t.status.fault = false ∧ t.errCode = 0)) = true := by decide

/-- V-C2. -/
theorem test_discard : answers (exec .discard packed) (fun t =>
    decide (t.status.word = 0x08 ∧ t.nsym = 0 ∧ t.root.word = 0 ∧ t.outLen = 2 ∧ t.bitLen = 11)) = true := by decide

/-- V-F1. -/
theorem test_freq : answers (exec .freq start) (fun t => decide (t = counted)) = true := by decide

/-- V-F5: one byte too many. -/
theorem test_freq_in_range : answers (exec .freq { State.reset with inLen := 4097 }) (fun t =>
    decide (t.errCode = 3 ∧ t.errInfo = 4097 ∧ t.status.word = 0x40)) = true := by decide

/-- V-A. -/
theorem test_build : answers (exec .build counted) (fun t => decide (t = built)) = true := by decide

/-- V-T6: an internal node on the left of the root, by the tie-break. -/
theorem test_build_left_internal : answers (exec .build
    { State.reset with freq := [(97, 3), (98, 1), (99, 1)], status := { Status.clear with freqValid := true } })
    (fun t => decide (nodeaWord (nodeAt t.node 257) = 0x030C0002 ∧ t.root.word = 0x80000101)) = true := by decide

/-- V-A. -/
theorem test_gencode : answers (exec .gencode built) (fun t => decide (t = coded)) = true := by decide

/-- V-G12: only the left child of the single-symbol root has a code. -/
theorem test_gencode_single : answers (exec .gencode single) (fun t =>
    decide (t.code = [(97, { valid := true, len := 1, bits := 0 })])) = true := by decide

/-- V-A. -/
theorem test_pack : answers (exec .pack coded) (fun t => decide (t = packed)) = true := by decide

/-- V-X16: `d` has no code. -/
theorem test_pack_no_code : answers (exec .pack (loaded [97, 98, 100] packed)) (fun t =>
    decide (t.errCode = 5 ∧ t.errInfo = 2 ∧ t.status.word = 0x47 ∧ t.outLen = 0 ∧ t.bitLen = 0)) = true := by
  decide

/-- V-W3: the walk ends inside a code. -/
theorem test_unpack_partial : answers (exec .unpack (movedLen 10)) (fun t =>
    decide (outputBytes t = ([97, 97, 98, 98, 98, 99] : List Byte).map some ∧ t.decCur = 256 ∧
      t.status.decPartial = true)) = true := by decide

/-- V-X15: the bit 1 under the single-symbol root. -/
theorem test_unpack_unused_leaf : answers (exec .unpack (loaded [4] single)) (fun t =>
    decide (t.errCode = 6 ∧ t.errInfo = 2 ∧ t.outLen = 0 ∧ t.decCur = 0 ∧ t.status.outValid = false)) = true := by
  decide

/-- V-A. -/
theorem test_compress : answers (exec .compress start) (fun t => decide (t = packed)) = true := by decide

/-- V-X17: an output buffer of one byte. -/
theorem test_compress_overflow : answers (exec .compress { start with obufCap := 1 }) (fun t =>
    decide (t.errCode = 4 ∧ t.errInfo = 1 ∧ t.status.word = 0x47 ∧ t.outLen = 0 ∧ t.bitLen = 0)) = true := by
  decide

/-- V-X3. -/
theorem test_illegal_word : answers (step (pending (.command 0x80000000) State.reset)) (fun t =>
    decide (t.errCode = 1 ∧ t.errInfo = 0x80000000 ∧ t.status.word = 0x40)) = true := by decide

/-- V-H4: only LEN_EN of CTRL is stored. -/
theorem test_write_ctrl : answers (step (pending (.write .reg 2 0xFFFFFFFF) State.reset)) (fun t =>
    decide (regWord t 2 = 1)) = true := by decide

/-- The host view of V-A. -/
theorem test_host_view :
    memRead .nodea 97 packed = 0x00000185 ∧ memRead .nodea 257 packed = 0x08018802 ∧ memRead .nodew 256 packed = 4 ∧
    memRead .nodea 258 packed = 0 ∧ memRead .codel 0x63 packed = 0x80000002 ∧ memRead .codeb (8 * 0x63) packed = 3 ∧
    memRead .codel 0x64 packed = 0 ∧ memRead .obuf 0 packed = 0x85 ∧ memRead .freq 0x62 packed = 3 := by decide

/-- V-H9: reads outside the spaces. -/
theorem test_reads_outside :
    memRead .ibuf 4096 packed = 0 ∧ memRead .nodea 512 packed = 0 ∧ memRead .codeb 2048 packed = 0 ∧
    memRead .reg 14 packed = 0 := by decide

/-- RDOUT (R91): the bytes of V-A. -/
theorem test_rdout : (rdout packed).1 = [0x85, 0x07] := by decide

/-- MOVOI (R91): the packed bytes of V-A become the input. -/
theorem test_movoi : (movoi packed).inLen = 2 ∧ inputBytes (movoi packed) = [0x85, 0x07] := by decide

/-- LDIN and a read of IN_LEN: the script returns the word it read (R90, R91). -/
theorem test_script_reads :
    (match playScript (ldin [97, 98] ++ [.rd .inLen]) State.reset with
      | .next r => decide (r.1 = [2])
      | .fault _ => false
      | .refused _ => false) = true := by decide

/-- The host's question: the first instruction after reset is the one placed. -/
theorem test_fetch_word : answers (step (State.reset.withFetchWord 32 8)) (fun t => decide (t = State.reset)) = true ∧
    decodeTableWord 32 8 = some .discard := by decide

/-! ### Witnesses: the hypotheses of each statement hold together -/

theorem inv_of {s : State} (h1 : SizesOk s) (h2 : MemoryOk s) (h3 : RegistersOk s) (h4 : s.status.treeValid = true)
    (h5 : TreeOk s.node s.root) (h6 : s.status.degen = degenOf (leafSlots s.node).length)
    (h7 : s.status.codeValid = true → CodeOk s.node s.root s.code) : Inv s :=
  ⟨h1, h2, h3, fun _ => ⟨h5, h6⟩, fun h => ⟨h4, h7 h⟩⟩

theorem packed_tree : TreeOk packed.node packed.root := by
  refine ⟨?_, ?_, ?_, ?_, ?_, ?_, ?_⟩ <;> decide

theorem packed_code : CodeOk packed.node packed.root packed.code := by
  refine ⟨?_, ?_⟩ <;> decide

theorem packed_inv : Inv packed :=
  inv_of (by decide) (by refine ⟨?_, ?_, ?_, ?_, ?_⟩ <;> decide) (by decide) rfl packed_tree (by decide)
    (fun _ => packed_code)

theorem coded_inv : Inv coded :=
  inv_of (by decide) (by refine ⟨?_, ?_, ?_, ?_, ?_⟩ <;> decide) (by decide) rfl packed_tree (by decide)
    (fun _ => packed_code)

theorem movedLen_inv (n : Word) : Inv (movedLen n) :=
  inv_of (by change SizesOk moved; decide) (by change MemoryOk moved; refine ⟨?_, ?_, ?_, ?_, ?_⟩ <;> decide)
    (by change RegistersOk moved; decide) rfl packed_tree (by change moved.status.degen = degenOf (leafSlots moved.node).length; decide)
    (fun _ => packed_code)

theorem moved_inv : Inv moved :=
  inv_of (by decide) (by refine ⟨?_, ?_, ?_, ?_, ?_⟩ <;> decide) (by decide) rfl packed_tree (by decide)
    (fun _ => packed_code)

theorem witness_IllegalWordsAreRejectedByName :
    (0x00000100 : Word).extractLsb' 8 24 ≠ 0 ∧
    ((0x00000009 : Word).extractLsb' 8 24 = 0 ∧ 9 ≤ ((0x00000009 : Word).extractLsb' 0 8).toNat) ∧
    ((0x000000FF : Word).extractLsb' 8 24 = 0 ∧ 9 ≤ ((0x000000FF : Word).extractLsb' 0 8).toNat) ∧
    ((0x00000008 : Word).extractLsb' 8 24 = 0 ∧ ((0x00000008 : Word).extractLsb' 0 8).toNat ≤ 8) := by decide

theorem witness_StepRunsTheDecodedCommand :
    CommandPending (pending (.command 5) coded) 5 [] ∧ decode 5 = .ok .pack ∧ Instr.wf .pack = true := ⟨rfl, rfl, rfl⟩

theorem witness_IdleCoreKeepsAllState : packed.port = [] := rfl

theorem witness_IllegalCommandIsLatched :
    (CommandPending (pending (.command 9) State.reset) 9 [] ∧ IllegalWord 9 ∧ State.reset.status.fault = false) ∧
    (CommandPending (pending (.command 0x100) packed) 0x100 [] ∧ IllegalWord 0x100 ∧ packed.status.fault = false) :=
  ⟨⟨rfl, by unfold IllegalWord; decide, rfl⟩, ⟨rfl, by unfold IllegalWord; decide, rfl⟩⟩

theorem witness_FaultGateIgnoresEveryCommandButRst :
    faulted.status.fault = true ∧
    CommandPending (pending (.command 0) faulted) 0 [] ∧ (0 : Word) ≠ 0x00000001 ∧
    CommandPending (pending (.command 2) faulted) 2 [] ∧ (2 : Word) ≠ 0x00000001 ∧
    CommandPending (pending (.command 0x101) faulted) 0x101 [] ∧ (0x101 : Word) ≠ 0x00000001 ∧
    (pending (.read .reg 9) faulted).port = .read .reg 9 :: [] ∧
    (pending (.write .reg 2 1) faulted).port = .write .reg 2 1 :: [] ∧
    (pending (.write .reg 3 7) faulted).port = .write .reg 3 7 :: [] ∧
    (pending (.write .reg 6 7) faulted).port = .write .reg 6 7 :: [] ∧
    (pending (.write .ibuf 4095 7) faulted).port = .write .ibuf 4095 7 :: [] ∧
    (4095 : Word).toNat < faulted.ibufCap.toNat :=
  ⟨rfl, rfl, by decide, rfl, by decide, rfl, by decide, rfl, rfl, rfl, rfl, rfl, by decide⟩

/-- Each clause at a boundary: the first and the last index of the buffer, and the one after. -/
theorem witness_HostWritesDoWhatTheyMay :
    (pending (.write .ibuf 0 7) packed).port = .write .ibuf 0 7 :: [] ∧ (0 : Word).toNat < packed.ibufCap.toNat ∧
    (4095 : Word).toNat < packed.ibufCap.toNat ∧ packed.ibufCap.toNat ≤ (4096 : Word).toNat ∧
    decode 8 = .ok .discard ∧ IllegalWord 9 ∧ packed.status.fault = false ∧
    ((1 : Word) ≠ 0 ∧ (1 : Word) ≠ 2 ∧ (1 : Word) ≠ 3 ∧ (1 : Word) ≠ 6) ∧ (Space.obuf ≠ .reg ∧ Space.obuf ≠ .ibuf) :=
  ⟨rfl, by decide, by decide, by decide, rfl, by unfold IllegalWord; decide, rfl, by decide, by decide⟩

/-- Each clause at a boundary. -/
theorem witness_HostReadsReturnTheElement :
    (pending (.read .obuf 1) packed).port = .read .obuf 1 :: [] ∧
    (1 : Word).toNat < packed.obufCap.toNat ∧ packed.status.outValid = true ∧ (1 : Word).toNat < packed.outLen.toNat ∧
    Memory.read? packed.obuf (1 : Word).toNat = some 7 ∧ packed.obufCap.toNat ≤ (32768 : Word).toNat ∧
    (256 : Nat) ≤ (256 : Word).toNat ∧ (255 : Word).toNat < 256 ∧ packed.status.freqValid = true ∧
    (512 : Nat) ≤ (512 : Word).toNat ∧ (511 : Word).toNat < 512 ∧ packed.status.treeValid = true ∧
    (2048 : Nat) ≤ (2048 : Word).toNat ∧ (2047 : Word).toNat < 2048 ∧ packed.status.codeValid = true := by
  refine ⟨rfl, ?_⟩
  decide

theorem witness_HostCannotWriteTheTables :
    (pending (.write .freq 0x61 9) packed).port = .write .freq 0x61 9 :: [] ∧ ¬(Space.freq = .reg ∧ (0x61 : Word) = 0) ∧
    step (pending (.write .freq 0x61 9) packed) = .next packed := ⟨rfl, by decide, rfl⟩

theorem witness_HardwareResetAgreesWithRst : (pending .reset packed).port = .reset :: [] := rfl

theorem witness_DiscardClearsTheCodecState : faulted.status.fault = true ∧ packed.status.fault = false := ⟨rfl, rfl⟩

theorem witness_FreqCountsEveryByte :
    (start.status.fault = false ∧ start.inLen.toNat ≤ start.ibufCap.toNat) ∧
    State.reset.status.fault = false ∧ State.reset.inLen.toNat ≤ State.reset.ibufCap.toNat := by decide

theorem witness_FreqDependsOnTheInputAlone :
    start.status.fault = false ∧ packed.status.fault = false ∧ start.inLen = packed.inLen ∧
    start.ibufCap = packed.ibufCap ∧ start.inLen.toNat ≤ start.ibufCap.toNat ∧
    ∀ i < start.inLen.toNat, ibufByte start i = ibufByte packed i :=
  ⟨rfl, rfl, rfl, rfl, by decide, fun _ _ => rfl⟩

theorem witness_BuildOfAnEmptyTable :
    emptyTree.status.fault = false ∧ emptyTree.status.freqValid = true ∧ ∀ x < 256, freqAt emptyTree.freq x = 0 :=
  ⟨rfl, rfl, fun _ _ => rfl⟩

/-- A core whose input was one symbol, the last one. -/
def oneSymbol : State :=
  { State.reset with freq := [(255, 4)], nsym := 1, status := { Status.clear with freqValid := true } }

theorem witness_BuildOfASingleSymbol :
    oneSymbol.status.fault = false ∧ oneSymbol.status.freqValid = true ∧ 255 < 256 ∧ freqAt oneSymbol.freq 255 ≠ 0 ∧
    ∀ y < 256, y ≠ 255 → freqAt oneSymbol.freq y = 0 := by
  refine ⟨by decide, by decide, by decide, by decide, fun y _ hy => ?_⟩
  simp [oneSymbol, freqAt, tableGet, cellFind, Ne.symm hy]

theorem witness_BuildMergesTheTwoLightest :
    counted.status.fault = false ∧ counted.status.freqValid = true ∧ 2 ≤ symbolCount counted.freq := by decide

theorem witness_BuildDependsOnTheTableAlone :
    counted.status.fault = false ∧ packed.status.fault = false ∧ counted.status.freqValid = true ∧
    packed.status.freqValid = true ∧ ∀ x < 256, freqAt counted.freq x = freqAt packed.freq x :=
  ⟨rfl, rfl, rfl, rfl, fun _ _ => rfl⟩

theorem witness_GencodeRecordsTheRootPaths :
    built.status.fault = false ∧ built.status.treeValid = true ∧
    tableWf Node.emptyRecord Config.nodeSlots built.node ∧ TreeOk built.node built.root :=
  ⟨rfl, rfl, by decide, packed_tree⟩

/-- The two degenerate trees are trees in the sense of R44 too. -/
theorem test_degenerate_trees : TreeOk single.node single.root ∧ TreeOk emptyTree.node emptyTree.root := by
  constructor <;> refine ⟨?_, ?_, ?_, ?_, ?_, ?_, ?_⟩ <;> decide

theorem witness_NoCodeBeginsAnother : Inv packed ∧ packed.status.codeValid = true := ⟨packed_inv, rfl⟩

theorem witness_PackWritesThePackedBuffer :
    SizesOk coded ∧ coded.status.fault = false ∧ coded.status.codeValid = true ∧
    coded.inLen.toNat ≤ coded.ibufCap.toNat ∧ AllCoded coded ∧
    bytesFor (bitSequence coded.code (inputBytes coded)).length ≤ coded.obufCap.toNat := by
  unfold AllCoded
  decide

theorem witness_PackStopsAtAByteWithNoCode :
    let s := loaded [97, 98, 100] packed
    s.status.fault = false ∧ s.status.codeValid = true ∧ s.inLen.toNat ≤ s.ibufCap.toNat ∧ 2 < s.inLen.toNat ∧
    (codeAt s.code (ibufByte s 2).toNat).valid = false ∧
    (∀ j < 2, (codeAt s.code (ibufByte s j).toNat).valid = true) ∧
    (bitSequence s.code ((inputBytes s).take 2)).length / 8 ≤ s.obufCap.toNat := by decide

/-- The last, padded byte does not fit: eleven bits and a buffer of one byte. -/
theorem witness_PackOverflowsAFullBuffer :
    let s := { coded with obufCap := 1 }
    s.status.fault = false ∧ s.status.codeValid = true ∧ s.inLen.toNat ≤ s.ibufCap.toNat ∧ 7 ≤ s.inLen.toNat ∧
    (∀ j < 7, (codeAt s.code (ibufByte s j).toNat).valid = true) ∧
    (7 = s.inLen.toNat ∧ s.obufCap.toNat < bytesFor (bitSequence s.code (inputBytes s)).length) := by
  decide

/-- The overflow comes before an input byte with no code: "aaaaaaaad" completes two bytes, and one fits. -/
theorem witness_PackOverflowsAFullBuffer_before_a_byte_with_no_code :
    let s := loaded [97, 97, 97, 97, 97, 97, 97, 97, 100] { coded with obufCap := 1 }
    s.status.fault = false ∧ s.status.codeValid = true ∧ s.inLen.toNat ≤ s.ibufCap.toNat ∧ 8 ≤ s.inLen.toNat ∧
    (∀ j < 8, (codeAt s.code (ibufByte s j).toNat).valid = true) ∧
    s.obufCap.toNat < (bitSequence s.code ((inputBytes s).take 8)).length / 8 ∧
    (codeAt s.code (ibufByte s 8).toNat).valid = false := by
  decide

theorem witness_UnpackEmitsTheWalkedSymbols :
    WalkStarts (movedLen 11) ∧
    decodeBits packed.node 257 257 (packedInput (movedLen 11) (walkLength (movedLen 11))) = some (sample, 257) ∧
    sample.length ≤ (movedLen 11).obufCap.toNat := by
  unfold WalkStarts
  decide

theorem witness_UnpackFaultsOnTheUnusedLeaf :
    let s := loaded [4] single
    WalkStarts s ∧ 2 < walkLength s ∧ decodeBits s.node s.root.idx s.root.idx (packedInput s 2) = some ([97, 97], 256) ∧
    ([97, 97] : List Byte).length ≤ s.obufCap.toNat ∧
    (nodeAt s.node (childOf (nodeAt s.node (256 : NodeIdx).toNat) ((ibufByte s (2 / 8)).getLsbD (2 % 8))).toNat).kind =
      .unused := by
  unfold WalkStarts
  decide

theorem witness_UnpackOverflowsAFullBuffer :
    let s := { moved with obufCap := 4 }
    WalkStarts s ∧ 6 < walkLength s ∧
    decodeBits s.node s.root.idx s.root.idx (packedInput s 6) = some ([97, 97, 98, 98], 257) ∧
    ([97, 97, 98, 98] : List Byte).length = s.obufCap.toNat ∧
    (nodeAt s.node (childOf (nodeAt s.node (257 : NodeIdx).toNat) ((ibufByte s (6 / 8)).getLsbD (6 % 8))).toNat).kind =
      .leaf := by
  unfold WalkStarts
  decide

theorem witness_UnpackFaultsOnTheEmptyTree :
    emptyTree.status.fault = false ∧ emptyTree.status.treeValid = true ∧
    emptyTree.inLen.toNat ≤ emptyTree.ibufCap.toNat ∧
    (emptyTree.lenEn = true → emptyTree.decBitLen.toNat ≤ 8 * emptyTree.inLen.toNat) ∧ 0 < walkLength emptyTree ∧
    emptyTree.root.valid = false := by decide

/-- One bit too many. -/
theorem witness_UnpackFaultsOnTooManyBits :
    (movedLen 17).status.fault = false ∧ (movedLen 17).status.treeValid = true ∧
    (movedLen 17).inLen.toNat ≤ (movedLen 17).ibufCap.toNat ∧ (movedLen 17).lenEn = true ∧
    8 * (movedLen 17).inLen.toNat < (movedLen 17).decBitLen.toNat := by decide

/-- What UNPACK makes of `movedLen 11` and of `movedLen 10` (V-W2, V-W3). -/
def unpacked : State :=
  { movedLen 11 with
    obuf := [(0, 97), (1, 97), (2, 98), (3, 98), (4, 98), (5, 99), (6, 99)], outLen := 7, decCur := 257 }

def unpackedPart : State :=
  { movedLen 10 with
    obuf := [(0, 97), (1, 97), (2, 98), (3, 98), (4, 98), (5, 99)], outLen := 6, decCur := 256
    status := { packed.status with decPartial := true } }

theorem unpack_runs : exec .unpack (movedLen 11) = .next unpacked := eq_next_of_answers (by decide)

theorem unpack_part_runs : exec .unpack (movedLen 10) = .next unpackedPart := eq_next_of_answers (by decide)

theorem witness_UnpackReadsOnlyTheTreeAndTheInput :
    let s' := { movedLen 11 with freq := [], code := [], obuf := [], status := { packed.status with codeValid := false } }
    WalkStarts (movedLen 11) ∧ s'.status.fault = false ∧ s'.status.treeValid = true ∧
    (∀ i < (movedLen 11).inLen.toNat, ibufByte s' i = ibufByte (movedLen 11) i) ∧
    exec .unpack (movedLen 11) = .next unpacked :=
  ⟨by unfold WalkStarts; decide, rfl, rfl, fun _ _ => rfl, unpack_runs⟩

theorem compress_runs : exec .compress start = .next packed := eq_next_of_answers test_compress

theorem witness_CompressIsTheFiveCommands :
    start.status.fault = false ∧ packed.status.fault = false ∧ exec .compress start = .next packed :=
  ⟨rfl, rfl, compress_runs⟩

/-- The packed bytes fit exactly (V-X18). -/
theorem witness_CompressCompletes :
    let s := { start with obufCap := 2 }
    SizesOk s ∧ s.status.fault = false ∧ s.inLen.toNat ≤ s.ibufCap.toNat ∧
    bytesFor (compressedBits s).length ≤ s.obufCap.toNat := by
  decide

/-- Both faults of COMPRESS occur. -/
theorem witness_CompressRaisesOnlyInRangeOrOutOverflow :
    answers (exec .compress { start with inLen := 4097 }) (fun t => t.status.fault) = true ∧
    answers (exec .compress { start with obufCap := 1 }) (fun t => t.status.fault) = true := by decide

theorem witness_MissingTablesAreRefused :
    State.reset.status.fault = false ∧ State.reset.status.freqValid = false ∧ State.reset.status.treeValid = false ∧
    State.reset.status.codeValid = false := by decide

theorem witness_TooMuchInputIsRefused :
    let s := { packed with inLen := 4097 }
    s.status.fault = false ∧ s.ibufCap.toNat < s.inLen.toNat ∧ s.status.codeValid = true ∧ s.status.treeValid = true := by
  decide

theorem witness_FreqFrame : exec .freq start = .next counted := eq_next_of_answers test_freq

theorem witness_BuildAndGencodeFrame : exec .build counted = .next built ∧ exec .gencode built = .next coded :=
  ⟨eq_next_of_answers test_build, eq_next_of_answers test_gencode⟩

theorem witness_PackFrame : exec .pack coded = .next packed := eq_next_of_answers test_pack

theorem witness_UnpackFrame : exec .unpack (movedLen 11) = .next unpacked := unpack_runs

theorem witness_CompressFrame : exec .compress start = .next packed := compress_runs

/-- The bound of the frame is the number of bytes packed, and 0 on the paths that store nothing. -/
theorem witness_CompressFrame_bounds :
    compressedCount start = 2 ∧ compressedCount faulted = 0 ∧ compressedCount { start with inLen := 4097 } = 0 ∧
    (4096 : Word).toNat < (4097 : Word).toNat := by
  decide

/-- A command that is ignored, and the two ways out of the fault. -/
theorem witness_OnlyRstOrResetLeavesAFault :
    faulted.status.fault = true ∧ step (pending (.command 2) faulted) = .next faulted ∧
    CommandPending (pending (.command 1) faulted) 0x00000001 [] ∧ (pending .reset faulted).port = .reset :: [] :=
  ⟨rfl, rfl, rfl, rfl⟩

theorem witness_OnlyFourCommandsTouchTheTree :
    step packed = .next packed ∧ (∀ rest, packed.port ≠ .reset :: rest) ∧
    (∀ i rest, CommandPending packed (encode i) rest → i ≠ .build ∧ i ≠ .compress ∧ i ≠ .discard ∧ i ≠ .rst) :=
  ⟨rfl, fun rest h => List.cons_ne_nil .reset rest h.symm, fun i rest h =>
    absurd (show [] = Access.command (encode i) :: rest from h) (List.cons_ne_nil _ _).symm⟩

theorem witness_EachMemoryHasItsWriters : exec .pack coded = .next packed ∧ Instr.pack ≠ .freq :=
  ⟨witness_PackFrame, by decide⟩

theorem witness_CapacitiesAreConstants : step packed = .next packed := rfl

theorem witness_StepKeepsTheRegisterInvariants : RegistersOk packed ∧ step packed = .next packed :=
  ⟨packed_inv.2.2.1, rfl⟩

theorem witness_StepKeepsTheMemoryForm : SizesOk packed ∧ MemoryOk packed ∧ step packed = .next packed :=
  ⟨packed_inv.1, packed_inv.2.1, rfl⟩

theorem witness_StepKeepsTheInvariant : Inv packed ∧ step packed = .next packed := ⟨packed_inv, rfl⟩

theorem witness_EveryStepOfTheInvariantGoesOn : Inv packed := packed_inv

theorem witness_PartialWalkEndsInside :
    Inv (movedLen 10) ∧ (movedLen 10).status.fault = false ∧ exec .unpack (movedLen 10) = .next unpackedPart ∧
    unpackedPart.status.decPartial = true := ⟨movedLen_inv 10, rfl, unpack_part_runs, rfl⟩

/-- DISCARD (V-C2). -/
theorem witness_OnlyFourCommandsInvalidateTheCode :
    Inv (pending (.command 8) packed) ∧ step (pending (.command 8) packed) = .next (clearCodec packed) ∧
    (pending (.command 8) packed).status.codeValid = true ∧ (clearCodec packed).status.codeValid = false :=
  ⟨packed_inv, rfl, rfl, rfl⟩

theorem witness_PackedBuffersRoundTrip :
    Inv coded ∧ coded.status.fault = false ∧ coded.status.codeValid = true ∧ exec .pack coded = .next packed ∧
    packed.status.fault = false ∧ ReadyToDecode coded packed (movedLen 11) coded.inLen.toNat ∧
    (movedLen 11).lenEn = true ∧ (movedLen 11).decBitLen = packed.bitLen :=
  ⟨coded_inv, rfl, rfl, witness_PackFrame, rfl, by unfold ReadyToDecode; decide, rfl, rfl⟩

/-- "aaabc" (V-W14): b = 00, c = 01, a = 1, so its 7 bits leave one padding bit, fewer than the two bits of b. -/
def coded2 : State :=
  { loaded [97, 97, 97, 98, 99] State.reset with
    freq := [(97, 3), (98, 1), (99, 1)], nsym := 3
    node := [
      (97, { kind := .leaf, sym := 97, weight := 3, left := 0, right := 0 }),
      (98, { kind := .leaf, sym := 98, weight := 1, left := 0, right := 0 }),
      (99, { kind := .leaf, sym := 99, weight := 1, left := 0, right := 0 }),
      (256, { kind := .internal, sym := 0, weight := 2, left := 98, right := 99 }),
      (257, { kind := .internal, sym := 0, weight := 5, left := 256, right := 97 })]
    root := { valid := true, idx := 257 }
    code := [
      (97, { valid := true, len := 1, bits := 1 }),
      (98, { valid := true, len := 2, bits := 0 }),
      (99, { valid := true, len := 2, bits := 2 })]
    status := { Status.clear with freqValid := true, treeValid := true, codeValid := true } }

def packed2 : State :=
  { coded2 with obuf := [(0, 0x47)], outLen := 1, bitLen := 7, status := { coded2.status with outValid := true } }

theorem coded2_inv : Inv coded2 :=
  inv_of (by decide) (by refine ⟨?_, ?_, ?_, ?_, ?_⟩ <;> decide) (by decide) rfl
    (by refine ⟨?_, ?_, ?_, ?_, ?_, ?_, ?_⟩ <;> decide) (by decide)
    (fun _ => by refine ⟨?_, ?_⟩ <;> decide)

/-- The clause of baseline mode with padding. -/
theorem witness_PackedBuffersRoundTrip_padding :
    Inv coded2 ∧ coded2.status.fault = false ∧ coded2.status.codeValid = true ∧ exec .pack coded2 = .next packed2 ∧
    packed2.status.fault = false ∧ ReadyToDecode coded2 packed2 (loaded [0x47] packed2) coded2.inLen.toNat ∧
    (loaded [0x47] packed2).lenEn = false ∧ (codeAt coded2.code (98 : Byte).toNat).valid = true ∧
    (codeAt coded2.code (98 : Byte).toNat).sequence = List.replicate 2 false ∧
    (8 - packed2.bitLen.toNat % 8) % 8 < 2 :=
  ⟨coded2_inv, rfl, rfl, eq_next_of_answers (by decide), rfl, by unfold ReadyToDecode; decide, rfl,
    by decide, by decide, by decide⟩

/-- The clause of baseline mode without padding: an empty input. -/
theorem witness_PackedBuffersRoundTrip_whole_bytes :
    Inv { coded with inLen := 0 } ∧
    exec .pack { coded with inLen := 0 } =
      .next { coded with inLen := 0, status := { coded.status with outValid := true } } ∧
    ReadyToDecode { coded with inLen := 0 } { coded with inLen := 0, status := { coded.status with outValid := true } }
      { coded with inLen := 0 } 0 ∧
    (0 : Word).toNat % 8 = 0 :=
  ⟨inv_of (by decide) (by refine ⟨?_, ?_, ?_, ?_, ?_⟩ <;> decide) (by decide) rfl packed_tree (by decide)
    (fun _ => packed_code), eq_next_of_answers (by decide), by unfold ReadyToDecode; decide, by decide⟩

theorem witness_CompressThenUnpackIsTheIdentity :
    SizesOk start ∧ start.status.fault = false ∧ exec .compress start = .next packed ∧ packed.status.fault = false ∧
    ReadyToDecode packed packed (movedLen 11) start.inLen.toNat ∧ (movedLen 11).lenEn = true ∧
    (movedLen 11).decBitLen = packed.bitLen :=
  ⟨by decide, rfl, compress_runs, rfl, by unfold ReadyToDecode; decide, rfl, rfl⟩

/-- Five padding bits, z = b, d0 = 1 (V-W1). -/
theorem witness_BaselineDecodingAddsThePadding :
    Inv coded ∧ coded.status.fault = false ∧ coded.status.codeValid = true ∧ exec .pack coded = .next packed ∧
    packed.status.fault = false ∧ 5 = (8 - packed.bitLen.toNat % 8) % 8 ∧
    (codeAt coded.code (98 : Byte).toNat).valid = true ∧
    (codeAt coded.code (98 : Byte).toNat).sequence = List.replicate 1 false ∧
    ReadyToDecode coded packed moved (coded.inLen.toNat + 5 / 1) ∧ moved.lenEn = false :=
  ⟨coded_inv, rfl, rfl, witness_PackFrame, rfl, by decide, by decide, by decide,
    by unfold ReadyToDecode; decide, rfl⟩

theorem counted_inv : Inv counted :=
  ⟨by decide, by refine ⟨?_, ?_, ?_, ?_, ?_⟩ <;> decide, by decide, nofun, nofun⟩

theorem witness_MoreFrequentSymbolsHaveNoLongerCodes :
    Inv counted ∧ counted.status.fault = false ∧ counted.status.freqValid = true ∧ exec .build counted = .next built ∧
    exec .gencode built = .next coded ∧ freqAt counted.freq (97 : Byte).toNat ≠ 0 ∧
    freqAt counted.freq (97 : Byte).toNat < freqAt counted.freq (98 : Byte).toNat :=
  ⟨counted_inv, rfl, rfl, eq_next_of_answers test_build, eq_next_of_answers test_gencode, by decide, by decide⟩

theorem witness_EncodedLengthIsTheSumOfInternalWeights :
    SizesOk start ∧ start.status.fault = false ∧ exec .compress start = .next packed ∧ packed.status.fault = false :=
  ⟨by decide, rfl, compress_runs, rfl⟩

end Sys2Proof.Tests
end

/-!
PROOF of O51. Every step keeps the sizes and the canonical form of every memory (spec 00_scope.md R4, 20_memory.md R60). A
predicate on what a run leaves goes through the loops and the command bodies; each body is then a chain of the operations
that write a memory.
-/

namespace Sys2Proof.Machine

/-! ### What a run leaves

`r.Leaves P` speaks of what the run has written when it ends, be it by going on or by a raise, which keeps every write made
before it (R196). -/

section Runs

variable {α β : Type} {P : α → Prop}

/-- What the run has written meets `P`. -/
def Run.Leaves (P : α → Prop) : Run α → Prop
  | .ok a => P a
  | .raised _ _ a => P a
  | .stopped _ => True

@[simp] theorem Run.leaves_ok (a : α) : (Run.ok a).Leaves P ↔ P a := Iff.rfl

@[simp] theorem Run.leaves_raised (c : FaultCode) (i : Word) (a : α) : (Run.raised c i a).Leaves P ↔ P a := Iff.rfl

@[simp] theorem Run.leaves_stopped (e : Fault) : (Run.stopped e).Leaves P := trivial

theorem runThen_leaves {r : Run α} {f : α → Run α} (hr : r.Leaves P) (hf : ∀ a, P a → (f a).Leaves P) :
    (runThen r f).Leaves P := by
  cases r with
  | ok a => exact hf a hr
  | raised c i a => exact hr
  | stopped e => exact Run.leaves_stopped e

theorem runMap_leaves {Q : β → Prop} {f : α → β} {r : Run α} (hr : r.Leaves P) (hf : ∀ a, P a → Q (f a)) :
    (runMap f r).Leaves Q := by
  cases r with
  | ok a => exact hf a hr
  | raised c i a => exact hf a hr
  | stopped e => exact Run.leaves_stopped e

/-- A loop leaves what each of its rounds keeps. -/
theorem runFold_leaves {f : α → β → Run α} (hf : ∀ a b, P a → (f a b).Leaves P) {a : α} (ha : P a) (items : List β) :
    (runFold f a items).Leaves P := by
  induction items generalizing a with
  | nil => exact ha
  | cons b rest ih => exact runThen_leaves (hf a b ha) (fun _ => ih)

theorem require_leaves {P : State → Prop} {s : State} (h : P s) (holds : Bool) (c : FaultCode) (i : Word) :
    (require holds c i s).Leaves P := by
  cases holds <;> exact h

/-- A gated command keeps what its body leaves, when latching a fault keeps it. -/
theorem gated_keeps {P : State → Prop} (hraise : ∀ c i u, P u → P (raiseFault c i u)) {body : State → Run State}
    {s t : State} (hs : P s) (hbody : (body s).Leaves P) (h : gated body s = .next t) : P t := by
  rcases gated_eq_next.1 h with ⟨-, rfl⟩ | ⟨-, hok | ⟨c, i, u, hraised, rfl⟩⟩
  · exact hs
  · rwa [hok, Run.leaves_ok] at hbody
  · rw [hraised, Run.leaves_raised] at hbody
    exact hraise c i u hbody

end Runs

/-! ### The form of the memories, and the operations that write one -/

/-- The sizes are in range (R4) and every memory is in its canonical form (R60). -/
def MemoryForm (s : State) : Prop := SizesOk s ∧ MemoryOk s

variable {s t : State}

theorem MemoryForm.sizes (h : MemoryForm s) : SizesOk s := by
  obtain ⟨hsizes, -⟩ := h
  exact hsizes

theorem MemoryForm.ibuf_wf (h : MemoryForm s) : Memory.wf s.ibufCap.toNat s.ibuf := by
  obtain ⟨-, hibuf, -⟩ := h
  exact hibuf

theorem MemoryForm.obuf_wf (h : MemoryForm s) : Memory.wf s.obufCap.toNat s.obuf := by
  obtain ⟨-, -, hobuf, -⟩ := h
  exact hobuf

/-- The form speaks of the capacities and the memories alone. -/
theorem MemoryForm.congr (h : MemoryForm s) (hicap : t.ibufCap = s.ibufCap) (hocap : t.obufCap = s.obufCap)
    (hibuf : t.ibuf = s.ibuf) (hobuf : t.obuf = s.obuf) (hfreq : t.freq = s.freq) (hnode : t.node = s.node)
    (hcode : t.code = s.code) : MemoryForm t := by
  unfold MemoryForm SizesOk MemoryOk
  rw [hicap, hocap, hibuf, hobuf, hfreq, hnode, hcode]
  exact h

theorem MemoryForm.withIbuf (h : MemoryForm s) {m : List Host.Cell} (hm : Memory.wf s.ibufCap.toNat m) :
    MemoryForm { s with ibuf := m } := by
  obtain ⟨hsizes, -, hobuf, hfreq, hnode, hcode⟩ := h
  exact ⟨hsizes, hm, hobuf, hfreq, hnode, hcode⟩

theorem MemoryForm.withObuf (h : MemoryForm s) {m : List Host.Cell} (hm : Memory.wf s.obufCap.toNat m) :
    MemoryForm { s with obuf := m } := by
  obtain ⟨hsizes, hibuf, -, hfreq, hnode, hcode⟩ := h
  exact ⟨hsizes, hibuf, hm, hfreq, hnode, hcode⟩

theorem MemoryForm.storeFreq (h : MemoryForm s) {f : List (Nat × Word)} (hf : tableWf (0 : Word) Config.symbols f) :
    MemoryForm (storeFreq f s) := by
  obtain ⟨hsizes, hibuf, hobuf, -, hnode, hcode⟩ := h
  exact ⟨hsizes, hibuf, hobuf, hf, hnode, hcode⟩

/-- BUILD leaves NODE in canonical form whatever the counts are (R111, R112, R115, R116). -/
theorem tableWf_treeOf (f : List (Nat × Word)) : tableWf Node.emptyRecord Config.nodeSlots (treeOf f).1 := by
  match hlen : (alphabet f).length with
  | 0 =>
    rw [treeOf_empty (List.length_eq_zero_iff.1 hlen)]
    exact tableWf_nil _ _
  | 1 =>
    obtain ⟨x, hx⟩ := List.length_eq_one_iff.1 hlen
    rw [treeOf, hx]
    exact tableWf_single f x
  | n + 2 => exact (treeOf_merged hlen).1.wf

theorem MemoryForm.storeTree (h : MemoryForm s) : MemoryForm (storeTree s) := by
  obtain ⟨hsizes, hibuf, hobuf, hfreq, -, hcode⟩ := h
  exact ⟨hsizes, hibuf, hobuf, hfreq, tableWf_treeOf s.freq, hcode⟩

/-- A traversal that ends leaves CODE in canonical form, whatever the nodes are (R130). -/
theorem tableWf_codeTable {nodes : List (Nat × Node)} {root : Root} {code : List (Nat × Code)}
    (h : codeTable nodes root = some code) : tableWf Code.noCode Config.symbols code := by
  unfold codeTable at h
  split at h
  · exact tableWf_visit _ (tableWf_nil _ _) h
  · cases h
    exact tableWf_nil _ _

theorem MemoryForm.storeCode (h : MemoryForm s) {k : List (Nat × Code)} (hk : tableWf Code.noCode Config.symbols k) :
    MemoryForm (storeCode k s) := by
  obtain ⟨hsizes, hibuf, hobuf, hfreq, hnode, -⟩ := h
  exact ⟨hsizes, hibuf, hobuf, hfreq, hnode, hk⟩

theorem MemoryForm.storePacked (h : MemoryForm s) {p : Packer} (hp : Memory.wf s.obufCap.toNat p.sink.obuf) :
    MemoryForm (storePacked p s) :=
  (h.withObuf hp).congr rfl rfl rfl rfl rfl rfl rfl

theorem MemoryForm.storeWalked (h : MemoryForm s) {w : Walker} (hw : Memory.wf s.obufCap.toNat w.sink.obuf) :
    MemoryForm (storeWalked w s) :=
  (h.withObuf hw).congr rfl rfl rfl rfl rfl rfl rfl

theorem MemoryForm.writeIbuf (h : MemoryForm s) (index : Nat) (v : Word) : MemoryForm (writeIbuf index v s) := by
  unfold Machine.writeIbuf
  split
  next hin => exact h.withIbuf (Memory.wf_write h.ibuf_wf hin _)
  next => exact h

theorem MemoryForm.writeReg (h : MemoryForm s) (index : Nat) (v : Word) : MemoryForm (writeReg index v s) := by
  unfold Machine.writeReg
  split <;> exact h

theorem MemoryForm.raiseFault (h : MemoryForm s) (c : FaultCode) (i : Word) : MemoryForm (raiseFault c i s) := h

theorem MemoryForm.illegalCommand (h : MemoryForm s) (word : Word) : MemoryForm (illegalCommand word s) := by
  unfold Machine.illegalCommand
  split
  · exact h
  · exact h.raiseFault _ _

/-- A reset empties the memories and keeps the sizes (R215 to R217). -/
theorem MemoryForm.hardwareReset (h : MemoryForm s) : MemoryForm (hardwareReset s) :=
  ⟨h.sizes, Memory.wf_nil _, Memory.wf_nil _, tableWf_nil _ _, tableWf_nil _ _, tableWf_nil _ _⟩

/-! ### Sequential output: OBUF stays inside its size -/

section Output

variable {cap : Nat}

/-- A byte is emitted inside the buffer or not at all (R191). -/
theorem emit_leaves_wf {k : Sink} (h : Memory.wf cap k.obuf) (v : Byte) :
    (emit cap v k).Leaves (fun k => Memory.wf cap k.obuf) := by
  unfold emit
  split
  next => exact h
  next hfull => exact Memory.wf_write h (Nat.lt_of_not_le hfull) v

theorem flushAcc_leaves_wf {p : Packer} (h : Memory.wf cap p.sink.obuf) :
    (flushAcc cap p).Leaves (fun p => Memory.wf cap p.sink.obuf) := by
  rw [flushAcc_eq]
  split
  next => exact h
  next hfull => exact Memory.wf_write h (Nat.lt_of_not_le hfull) _

theorem shiftBit_leaves_wf {p : Packer} (h : Memory.wf cap p.sink.obuf) (b : Bool) :
    (shiftBit cap p b).Leaves (fun p => Memory.wf cap p.sink.obuf) := by
  unfold shiftBit
  dsimp only
  split
  · exact flushAcc_leaves_wf h
  · exact h

theorem packByte_leaves_wf (code : List (Nat × Code)) {p : Packer} (h : Memory.wf cap p.sink.obuf) (item : Byte × Nat) :
    (packByte code cap p item).Leaves (fun p => Memory.wf cap p.sink.obuf) := by
  unfold packByte
  dsimp only
  split
  · exact runFold_leaves (fun _ b hq => shiftBit_leaves_wf hq b) h _
  · exact h

theorem flushLast_leaves_wf {p : Packer} (h : Memory.wf cap p.sink.obuf) :
    (flushLast cap p).Leaves (fun p => Memory.wf cap p.sink.obuf) := by
  unfold flushLast
  split
  · exact flushAcc_leaves_wf h
  · exact h

theorem walkBit_leaves_wf (nodes : List (Nat × Node)) (root : NodeIdx) {w : Walker} (h : Memory.wf cap w.sink.obuf)
    (item : Bool × Nat) : (walkBit nodes root cap w item).Leaves (fun w => Memory.wf cap w.sink.obuf) := by
  unfold walkBit
  dsimp only
  split
  next => exact runMap_leaves (emit_leaves_wf h _) (fun _ hk => hk)
  all_goals exact h

end Output

theorem packRun_leaves_wf (h : MemoryForm s) :
    (packRun s).Leaves (fun p => Memory.wf s.obufCap.toNat p.sink.obuf) :=
  runThen_leaves (runFold_leaves (fun _ item hp => packByte_leaves_wf s.code hp item) h.obuf_wf _)
    (fun _ hp => flushLast_leaves_wf hp)

theorem walkRun_leaves_wf (h : MemoryForm s) :
    (walkRun s).Leaves (fun w => Memory.wf s.obufCap.toNat w.sink.obuf) :=
  runFold_leaves (fun _ item hw => walkBit_leaves_wf s.node s.root.idx hw item) h.obuf_wf _

/-! ### The command bodies

Each clears registers and flags, which the form does not speak of, then checks, then stores. -/

theorem freqBody_leaves_form (h : MemoryForm s) : (freqBody s).Leaves MemoryForm :=
  runThen_leaves (require_leaves (s := clearFreq s) h _ _ _) (fun _ hu => hu.storeFreq (tableWf_frequencyTable _))

theorem buildBody_leaves_form (h : MemoryForm s) : (buildBody s).Leaves MemoryForm :=
  runThen_leaves (require_leaves (s := clearTree s) h _ _ _) (fun _ hu => hu.storeTree)

theorem generate_leaves_form (h : MemoryForm s) : (generate s).Leaves MemoryForm := by
  unfold generate
  split
  next => exact Run.leaves_stopped _
  next code hcode => exact h.storeCode (tableWf_codeTable hcode)

theorem gencodeBody_leaves_form (h : MemoryForm s) : (gencodeBody s).Leaves MemoryForm :=
  runThen_leaves (require_leaves (s := clearCode s) h _ _ _) (fun _ => generate_leaves_form)

theorem packInto_leaves_form (h : MemoryForm s) : (packInto s).Leaves MemoryForm := by
  have hrun := packRun_leaves_wf h
  unfold packInto
  cases hr : packRun s with
  | ok p => exact h.storePacked (by rwa [hr] at hrun)
  | raised c i p => exact h.withObuf (by rwa [hr] at hrun)
  | stopped e => exact Run.leaves_stopped e

theorem packBody_leaves_form (h : MemoryForm s) : (packBody s).Leaves MemoryForm :=
  runThen_leaves (require_leaves (s := clearPack s) h _ _ _) (fun _ hu =>
    runThen_leaves (require_leaves hu _ _ _) (fun _ => packInto_leaves_form))

theorem walkInto_leaves_form (h : MemoryForm s) : (walkInto s).Leaves MemoryForm := by
  have hrun := walkRun_leaves_wf h
  unfold walkInto
  cases hr : walkRun s with
  | ok w => exact h.storeWalked (by rwa [hr] at hrun)
  | raised c i w => exact h.withObuf (by rwa [hr] at hrun)
  | stopped e => exact Run.leaves_stopped e

theorem unpackBody_leaves_form (h : MemoryForm s) : (unpackBody s).Leaves MemoryForm :=
  runThen_leaves (require_leaves (s := clearUnpack s) h _ _ _) (fun _ hu =>
    runThen_leaves (require_leaves hu _ _ _) (fun _ hu =>
      runThen_leaves (require_leaves hu _ _ _) (fun _ hu =>
        runThen_leaves (require_leaves hu _ _ _) (fun _ => walkInto_leaves_form))))

theorem compressBody_leaves_form (h : MemoryForm s) : (compressBody s).Leaves MemoryForm :=
  runThen_leaves (freqBody_leaves_form (s := clearCodec (clearPack s)) h) (fun _ hu =>
    runThen_leaves (buildBody_leaves_form hu) (fun _ hu =>
      runThen_leaves (gencodeBody_leaves_form hu) (fun _ => packBody_leaves_form)))

/-! ### Commands, accesses and steps

What is not cited by name below (NOP, RST, DISCARD, a host read, an ignored write) changes no memory and no capacity. -/

theorem gated_keeps_form {body : State → Run State} (h : MemoryForm s) (hbody : (body s).Leaves MemoryForm)
    (hnext : gated body s = .next t) : MemoryForm t :=
  gated_keeps (fun c i _ hu => hu.raiseFault c i) h hbody hnext

theorem exec_keeps_form (i : Instr) (h : MemoryForm s) (hnext : exec i s = .next t) : MemoryForm t := by
  cases i with
  | nop => cases hnext; exact h
  | rst => cases hnext; exact h
  | freq => exact gated_keeps_form h (freqBody_leaves_form h) hnext
  | build => exact gated_keeps_form h (buildBody_leaves_form h) hnext
  | gencode => exact gated_keeps_form h (gencodeBody_leaves_form h) hnext
  | pack => exact gated_keeps_form h (packBody_leaves_form h) hnext
  | unpack => exact gated_keeps_form h (unpackBody_leaves_form h) hnext
  | compress => exact gated_keeps_form h (compressBody_leaves_form h) hnext
  | discard => exact gated_keeps_form (body := discardBody) h h hnext

theorem issueCommand_keeps_form (word : Word) (h : MemoryForm s) (hnext : issueCommand word s = .next t) :
    MemoryForm t := by
  unfold issueCommand at hnext
  split at hnext
  next i _ => exact exec_keeps_form i h hnext
  next =>
    cases hnext
    exact h.illegalCommand word

theorem hostWrite_keeps_form (space : Space) (index v : Word) (h : MemoryForm s)
    (hnext : hostWrite space index v s = .next t) : MemoryForm t := by
  cases space with
  | reg =>
    simp only [hostWrite] at hnext
    split at hnext
    · exact issueCommand_keeps_form v h hnext
    · cases hnext
      exact h.writeReg index.toNat v
  | ibuf => cases hnext; exact h.writeIbuf index.toNat v
  | obuf | freq | nodea | nodew | codel | codeb => cases hnext; exact h

theorem serve_keeps_form (a : Access) (h : MemoryForm s) (hnext : serve a s = .next t) : MemoryForm t := by
  cases a with
  | read space index => cases hnext; exact h
  | write space index v => exact hostWrite_keeps_form space index v h hnext
  | reset => cases hnext; exact h.hardwareReset

theorem step_keeps_form (h : MemoryForm s) (hnext : step s = .next t) : MemoryForm t := by
  unfold step at hnext
  split at hnext
  next => cases hnext; exact h
  next a rest _ => exact serve_keeps_form (s := { s with port := rest }) a h hnext

/-- Settles O51: every access a step serves keeps the form, a command by what its body leaves. -/
theorem stepKeepsTheMemoryForm : Obligations.StepKeepsTheMemoryForm := by
  unfold Obligations.StepKeepsTheMemoryForm
  intro s t hsizes hmem hnext
  exact step_keeps_form ⟨hsizes, hmem⟩ hnext

end Sys2Proof.Machine

/-!
PROOF of O50, O52, O48 and O49. Every step is a chain of a few operations on the state: the clears, the stores, the raise, the
resets and the host's own accesses. A predicate that each of them keeps is kept by every step; the register invariants (spec
10_state.md R56), the capacities (R37) and the whole invariant (R44, R46) are three such predicates.
-/

namespace Sys2Proof.Machine

variable {s t : State}

/-! ### What two runs leave -/

section Runs

variable {α : Type} {P Q : α → Prop}

theorem Run.Leaves.mono {r : Run α} (h : r.Leaves P) (hPQ : ∀ a, P a → Q a) : r.Leaves Q := by
  cases r with
  | ok a => exact hPQ a h
  | raised c i a => exact hPQ a h
  | stopped e => exact Run.leaves_stopped e

theorem Run.Leaves.and {r : Run α} (hP : r.Leaves P) (hQ : r.Leaves Q) : r.Leaves (fun a => P a ∧ Q a) := by
  cases r with
  | ok a => exact ⟨hP, hQ⟩
  | raised c i a => exact ⟨hP, hQ⟩
  | stopped e => exact Run.leaves_stopped e

end Runs

/-- What the packing part of PACK leaves: the stored output, or the bytes written before a raise (R140, R146). -/
theorem packInto_leaves {P : State → Prop} (hok : ∀ p, packRun s = .ok p → P (storePacked p s))
    (hraised : ∀ c i p, packRun s = .raised c i p → P { s with obuf := p.sink.obuf }) : (packInto s).Leaves P := by
  unfold packInto
  cases hr : packRun s with
  | ok p => exact hok p hr
  | raised c i p => exact hraised c i p hr
  | stopped e => exact Run.leaves_stopped e

/-- What the walking part of UNPACK leaves: the stored output, or the bytes written before a raise (R155, R196). -/
theorem walkInto_leaves {P : State → Prop} (hok : ∀ w, walkRun s = .ok w → P (storeWalked w s))
    (hraised : ∀ c i w, walkRun s = .raised c i w → P { s with obuf := w.sink.obuf }) : (walkInto s).Leaves P := by
  unfold walkInto
  cases hr : walkRun s with
  | ok w => exact hok w hr
  | raised c i w => exact hraised c i w hr
  | stopped e => exact Run.leaves_stopped e

/-! ### Predicates that every operation keeps -/

/-- `P` is kept by every operation that a step is made of, under the checks that the commands make before a store. -/
structure KeptByOperations (P : State → Prop) : Prop where
  withPort : ∀ {s}, P s → ∀ rest, P { s with port := rest }
  hostRead : ∀ {s}, P s → ∀ space index, P (hostRead space index s)
  writeReg : ∀ {s}, P s → ∀ index v, P (writeReg index v s)
  writeIbuf : ∀ {s}, P s → ∀ index v, P (writeIbuf index v s)
  raiseFault : ∀ {s}, P s → ∀ c i, P (raiseFault c i s)
  softReset : ∀ {s}, P s → P (softReset s)
  hardwareReset : ∀ {s}, P s → P (hardwareReset s)
  clearFreq : ∀ {s}, P s → P (clearFreq s)
  clearTree : ∀ {s}, P s → P (clearTree s)
  clearCode : ∀ {s}, P s → P (clearCode s)
  clearPack : ∀ {s}, P s → P (clearPack s)
  clearUnpack : ∀ {s}, P s → P (clearUnpack s)
  clearCodec : ∀ {s}, P s → P (clearCodec s)
  storeFreq : ∀ {s}, P s → s.inLen.toNat ≤ s.ibufCap.toNat → P (storeFreq (frequencyTable (inputBytes s)) s)
  storeTree : ∀ {s}, P s → s.status.freqValid = true → P (storeTree (Machine.clearTree s))
  storeCode : ∀ {s}, P s → s.status.treeValid = true → ∀ {code}, codeTable s.node s.root = some code →
    P (storeCode code s)
  packInto : ∀ {s}, P s → (packInto s).Leaves P
  walkInto : ∀ {s}, P s → (walkInto s).Leaves P

namespace KeptByOperations

variable {P : State → Prop}

theorem freqBody_leaves (hP : KeptByOperations P) (h : P s) : (freqBody s).Leaves P := by
  rw [freqBody_eq]
  split
  next hin => exact hP.storeFreq (hP.clearFreq h) hin
  next => exact hP.clearFreq h

theorem buildBody_leaves (hP : KeptByOperations P) (h : P s) : (buildBody s).Leaves P := by
  rw [buildBody_eq]
  split
  next hfreq => exact hP.storeTree h hfreq
  next => exact hP.clearTree h

theorem gencodeBody_leaves (hP : KeptByOperations P) (h : P s) : (gencodeBody s).Leaves P := by
  rw [gencodeBody_eq]
  split
  next htree =>
    unfold generate
    split
    next => exact Run.leaves_stopped _
    next code hcode => exact hP.storeCode (hP.clearCode h) htree hcode
  next => exact hP.clearCode h

theorem packBody_leaves (hP : KeptByOperations P) (h : P s) : (packBody s).Leaves P :=
  runThen_leaves (require_leaves (hP.clearPack h) _ _ _) (fun _ hu =>
    runThen_leaves (require_leaves hu _ _ _) (fun _ => hP.packInto))

theorem unpackBody_leaves (hP : KeptByOperations P) (h : P s) : (unpackBody s).Leaves P :=
  runThen_leaves (require_leaves (hP.clearUnpack h) _ _ _) (fun _ hu =>
    runThen_leaves (require_leaves hu _ _ _) (fun _ hu =>
      runThen_leaves (require_leaves hu _ _ _) (fun _ hu =>
        runThen_leaves (require_leaves hu _ _ _) (fun _ => hP.walkInto))))

theorem compressBody_leaves (hP : KeptByOperations P) (h : P s) : (compressBody s).Leaves P :=
  runThen_leaves (hP.freqBody_leaves (hP.clearCodec (hP.clearPack h))) (fun _ hu =>
    runThen_leaves (hP.buildBody_leaves hu) (fun _ hu =>
      runThen_leaves (hP.gencodeBody_leaves hu) (fun _ => hP.packBody_leaves)))

theorem gated_kept (hP : KeptByOperations P) {body : State → Run State} (h : P s) (hbody : (body s).Leaves P)
    (hnext : gated body s = .next t) : P t :=
  gated_keeps (P := P) (fun c i _ hu => hP.raiseFault hu c i) h hbody hnext

theorem exec_kept (hP : KeptByOperations P) (h : P s) (i : Instr) (hnext : exec i s = .next t) : P t := by
  cases i with
  | nop => cases hnext; exact h
  | rst => cases hnext; exact hP.softReset h
  | freq => exact hP.gated_kept h (hP.freqBody_leaves h) hnext
  | build => exact hP.gated_kept h (hP.buildBody_leaves h) hnext
  | gencode => exact hP.gated_kept h (hP.gencodeBody_leaves h) hnext
  | pack => exact hP.gated_kept h (hP.packBody_leaves h) hnext
  | unpack => exact hP.gated_kept h (hP.unpackBody_leaves h) hnext
  | compress => exact hP.gated_kept h (hP.compressBody_leaves h) hnext
  | discard => exact hP.gated_kept (body := discardBody) h (hP.clearCodec h) hnext

theorem illegalCommand_kept (hP : KeptByOperations P) (h : P s) (word : Word) : P (illegalCommand word s) := by
  unfold illegalCommand
  split
  · exact h
  · exact hP.raiseFault h _ _

theorem issueCommand_kept (hP : KeptByOperations P) (h : P s) (word : Word) (hnext : issueCommand word s = .next t) : P t := by
  unfold issueCommand at hnext
  split at hnext
  next i _ => exact hP.exec_kept h i hnext
  next =>
    cases hnext
    exact hP.illegalCommand_kept h word

theorem hostWrite_kept (hP : KeptByOperations P) (h : P s) (space : Space) (index v : Word)
    (hnext : hostWrite space index v s = .next t) : P t := by
  cases space with
  | reg =>
    simp only [hostWrite] at hnext
    split at hnext
    · exact hP.issueCommand_kept h v hnext
    · cases hnext
      exact hP.writeReg h index.toNat v
  | ibuf => cases hnext; exact hP.writeIbuf h index.toNat v
  | obuf | freq | nodea | nodew | codel | codeb => cases hnext; exact h

theorem serve_kept (hP : KeptByOperations P) (h : P s) (a : Access) (hnext : serve a s = .next t) : P t := by
  cases a with
  | read space index => cases hnext; exact hP.hostRead h space index
  | write space index v => exact hP.hostWrite_kept h space index v hnext
  | reset => cases hnext; exact hP.hardwareReset h

theorem step_kept (hP : KeptByOperations P) (h : P s) (hnext : step s = .next t) : P t := by
  unfold step at hnext
  split at hnext
  next => cases hnext; exact h
  next a rest _ => exact hP.serve_kept (hP.withPort h rest) a hnext

end KeptByOperations

/-! ### The capacities (R37) -/

theorem capacities_kept (i o : Word) : KeptByOperations (fun u => u.ibufCap = i ∧ u.obufCap = o) where
  withPort h _ := h
  hostRead h _ _ := h
  writeReg h _ _ := by
    unfold writeReg
    split <;> exact h
  writeIbuf h _ _ := by
    unfold writeIbuf
    split <;> exact h
  raiseFault h _ _ := h
  softReset h := h
  hardwareReset h := h
  clearFreq h := h
  clearTree h := h
  clearCode h := h
  clearPack h := h
  clearUnpack h := h
  clearCodec h := h
  storeFreq h _ := h
  storeTree h _ := h
  storeCode h _ _ _ := h
  packInto h := packInto_leaves (fun _ _ => h) (fun _ _ _ _ => h)
  walkInto h := walkInto_leaves (fun _ _ => h) (fun _ _ _ _ => h)

/-- Settles O48: no operation writes a capacity. -/
theorem capacitiesAreConstants : Obligations.CapacitiesAreConstants := by
  unfold Obligations.CapacitiesAreConstants
  intro s t hnext
  exact (capacities_kept s.ibufCap s.obufCap).step_kept ⟨rfl, rfl⟩ hnext

/-! ### OPTR stays inside the output buffer (R191) -/

section Output

variable {cap : Nat}

theorem emit_leaves_room {k : Sink} (h : k.optr ≤ cap) (v : Byte) : (emit cap v k).Leaves (fun k => k.optr ≤ cap) := by
  unfold emit
  split
  next => exact h
  next hroom => exact Nat.lt_of_not_le hroom

theorem flushAcc_leaves_room {p : Packer} (h : p.sink.optr ≤ cap) :
    (flushAcc cap p).Leaves (fun p => p.sink.optr ≤ cap) := by
  rw [flushAcc_eq]
  split
  next => exact h
  next hroom => exact Nat.lt_of_not_le hroom

theorem shiftBit_leaves_room {p : Packer} (h : p.sink.optr ≤ cap) (b : Bool) :
    (shiftBit cap p b).Leaves (fun p => p.sink.optr ≤ cap) := by
  unfold shiftBit
  dsimp only
  split
  · exact flushAcc_leaves_room h
  · exact h

theorem packByte_leaves_room (code : List (Nat × Code)) {p : Packer} (h : p.sink.optr ≤ cap) (item : Byte × Nat) :
    (packByte code cap p item).Leaves (fun p => p.sink.optr ≤ cap) := by
  unfold packByte
  dsimp only
  split
  · exact runFold_leaves (fun _ b hq => shiftBit_leaves_room hq b) h _
  · exact h

theorem flushLast_leaves_room {p : Packer} (h : p.sink.optr ≤ cap) :
    (flushLast cap p).Leaves (fun p => p.sink.optr ≤ cap) := by
  unfold flushLast
  split
  · exact flushAcc_leaves_room h
  · exact h

theorem walkBit_leaves_room (nodes : List (Nat × Node)) (root : NodeIdx) {w : Walker} (h : w.sink.optr ≤ cap)
    (item : Bool × Nat) : (walkBit nodes root cap w item).Leaves (fun w => w.sink.optr ≤ cap) := by
  unfold walkBit
  dsimp only
  split
  next => exact runMap_leaves (emit_leaves_room h _) (fun _ hk => hk)
  all_goals exact h

end Output

theorem optr_le_of_packRun {p : Packer} (h : packRun s = .ok p) : p.sink.optr ≤ s.obufCap.toNat := by
  have hrun : (packRun s).Leaves (fun p => p.sink.optr ≤ s.obufCap.toNat) :=
    runThen_leaves (runFold_leaves (fun _ item hp => packByte_leaves_room s.code hp item) (Nat.zero_le _) _)
      (fun _ hp => flushLast_leaves_room hp)
  rwa [h] at hrun

theorem optr_le_of_walkRun {w : Walker} (h : walkRun s = .ok w) : w.sink.optr ≤ s.obufCap.toNat := by
  have hrun : (walkRun s).Leaves (fun w => w.sink.optr ≤ s.obufCap.toNat) :=
    runFold_leaves (fun _ item hw => walkBit_leaves_room s.node s.root.idx hw item) (Nat.zero_le _) _
  rwa [h] at hrun

/-! ### The register invariants (R56) -/

theorem FaultCode.number_range (c : FaultCode) : 1 ≤ c.number.toNat ∧ c.number.toNat ≤ 8 := by
  cases c <;> decide

/-- The register invariants where the registers hold what a reset leaves (R55, R171). -/
theorem registersOk_of_clear (hstatus : s.status = Status.clear) (hout : s.outLen = 0) (hnsym : s.nsym = 0)
    (hroot : s.root = Root.zero) (hcode : s.errCode = 0) (hinfo : s.errInfo = 0) : RegistersOk s := by
  unfold RegistersOk
  rw [hstatus, hout, hnsym, hroot, hcode, hinfo]
  simp [Status.clear]

theorem registersOk_raiseFault (h : RegistersOk s) (c : FaultCode) (i : Word) : RegistersOk (raiseFault c i s) := by
  obtain ⟨hout, hnsym, hcounts, hroot, -, -, hlen⟩ := h
  exact ⟨hout, hnsym, hcounts, hroot, fun hf => (nomatch hf), fun _ => c.number_range, hlen⟩

theorem registersOk_clearFreq (h : RegistersOk s) : RegistersOk (clearFreq s) := by
  obtain ⟨hout, -, -, hroot, hgood, hbad, hlen⟩ := h
  exact ⟨hout, fun _ => rfl, fun hf => (nomatch hf), hroot, hgood, hbad, hlen⟩

theorem registersOk_clearTree (h : RegistersOk s) : RegistersOk (clearTree s) := by
  obtain ⟨hout, hnsym, hcounts, -, hgood, hbad, hlen⟩ := h
  exact ⟨hout, hnsym, hcounts, fun _ => ⟨rfl, rfl⟩, hgood, hbad, hlen⟩

theorem registersOk_clearPack (h : RegistersOk s) : RegistersOk (clearPack s) := by
  obtain ⟨-, hnsym, hcounts, hroot, hgood, hbad, -⟩ := h
  exact ⟨fun _ => rfl, hnsym, hcounts, hroot, hgood, hbad, Nat.zero_le _⟩

theorem registersOk_clearUnpack (h : RegistersOk s) : RegistersOk (clearUnpack s) := by
  obtain ⟨-, hnsym, hcounts, hroot, hgood, hbad, -⟩ := h
  exact ⟨fun _ => rfl, hnsym, hcounts, hroot, hgood, hbad, Nat.zero_le _⟩

theorem registersOk_clearCodec (h : RegistersOk s) : RegistersOk (clearCodec s) := by
  obtain ⟨hout, -, -, -, hgood, hbad, hlen⟩ := h
  exact ⟨hout, fun _ => rfl, fun hf => (nomatch hf), fun _ => ⟨rfl, rfl⟩, hgood, hbad, hlen⟩

/-- After FREQ the counts sum to IN_LEN (R101), which the IN_RANGE check bounds (R190). -/
theorem registersOk_storeFreq (h : RegistersOk s) (hin : s.inLen.toNat ≤ s.ibufCap.toNat) :
    RegistersOk (storeFreq (frequencyTable (inputBytes s)) s) := by
  obtain ⟨hout, -, -, hroot, hgood, hbad, hlen⟩ := h
  have hnsym : (BitVec.ofNat 32 (alphabet (frequencyTable (inputBytes s))).length).toNat =
      (alphabet (frequencyTable (inputBytes s))).length := by
    have := alphabet_length_le (frequencyTable (inputBytes s))
    rw [BitVec.toNat_ofNat]
    exact Nat.mod_eq_of_lt (by omega)
  have hsum : countSum (frequencyTable (inputBytes s)) ≤ s.ibufCap.toNat := by
    rwa [countSum_frequencyTable (inputBytes_length_lt s), inputBytes_length]
  exact ⟨hout, fun hf => (nomatch hf), fun _ => ⟨hnsym, hsum⟩, hroot, hgood, hbad, hlen⟩

theorem registersOk_storeTree (h : RegistersOk s) : RegistersOk (storeTree s) := by
  obtain ⟨hout, hnsym, hcounts, -, hgood, hbad, hlen⟩ := h
  exact ⟨hout, hnsym, hcounts, fun hf => (nomatch hf), hgood, hbad, hlen⟩

theorem toNat_ofNat_le {n cap : Nat} (hn : n ≤ cap) : (BitVec.ofNat 32 n).toNat ≤ cap := by
  rw [BitVec.toNat_ofNat]
  exact (Nat.mod_le _ _).trans hn

theorem registersOk_storePacked (h : RegistersOk s) {p : Packer} (hp : p.sink.optr ≤ s.obufCap.toNat) :
    RegistersOk (storePacked p s) := by
  obtain ⟨-, hnsym, hcounts, hroot, hgood, hbad, -⟩ := h
  exact ⟨fun hf => (nomatch hf), hnsym, hcounts, hroot, hgood, hbad, toNat_ofNat_le hp⟩

theorem registersOk_storeWalked (h : RegistersOk s) {w : Walker} (hw : w.sink.optr ≤ s.obufCap.toNat) :
    RegistersOk (storeWalked w s) := by
  obtain ⟨-, hnsym, hcounts, hroot, hgood, hbad, -⟩ := h
  exact ⟨fun hf => (nomatch hf), hnsym, hcounts, hroot, hgood, hbad, toNat_ofNat_le hw⟩

theorem registersOk_kept : KeptByOperations RegistersOk where
  withPort h _ := h
  hostRead h _ _ := h
  writeReg h _ _ := by
    unfold writeReg
    split <;> exact h
  writeIbuf h _ _ := by
    unfold writeIbuf
    split <;> exact h
  raiseFault := registersOk_raiseFault
  softReset _ := registersOk_of_clear rfl rfl rfl rfl rfl rfl
  hardwareReset _ := registersOk_of_clear rfl rfl rfl rfl rfl rfl
  clearFreq := registersOk_clearFreq
  clearTree := registersOk_clearTree
  clearCode h := h
  clearPack := registersOk_clearPack
  clearUnpack := registersOk_clearUnpack
  clearCodec := registersOk_clearCodec
  storeFreq := registersOk_storeFreq
  storeTree h _ := registersOk_storeTree (registersOk_clearTree h)
  storeCode h _ _ _ := h
  packInto h := packInto_leaves (fun _ hp => registersOk_storePacked h (optr_le_of_packRun hp)) (fun _ _ _ _ => h)
  walkInto h := walkInto_leaves (fun _ hw => registersOk_storeWalked h (optr_le_of_walkRun hw)) (fun _ _ _ _ => h)

/-- Settles O50: each operation keeps the register invariants. -/
theorem stepKeepsTheRegisterInvariants : Obligations.StepKeepsTheRegisterInvariants := by
  unfold Obligations.StepKeepsTheRegisterInvariants
  intro s t h hnext
  exact registersOk_kept.step_kept h hnext

/-! ### The whole invariant (R44, R46, R56) -/

theorem inv_iff : Inv s ↔ MemoryForm s ∧ RegistersOk s ∧ CodecOk s := and_assoc.symm

/-- Without a tree there is nothing to say of the codec state. -/
theorem codecOk_of_no_tree (htree : s.status.treeValid = false) (hcode : s.status.codeValid = false) : CodecOk s := by
  simp [CodecOk, htree, hcode]

theorem codecOk_clearCode (h : CodecOk s) : CodecOk (clearCode s) := by
  obtain ⟨htree, -⟩ := h
  exact ⟨htree, fun hc => (nomatch hc)⟩

/-- BUILD makes a tree of R44 when the counts cannot wrap, and has no code table yet (R110, R117). -/
theorem codecOk_storeTree (hfreq : tableWf (0 : Word) Config.symbols s.freq) (hsum : countSum s.freq < 2 ^ 32)
    (hcode : s.status.codeValid = false) : CodecOk (storeTree s) := by
  obtain ⟨-, htree, hleaves⟩ := treeOf_ok (t := s.freq) (by rwa [← countSum_eq hfreq])
  refine ⟨fun _ => ⟨htree, ?_⟩, fun hc => ?_⟩
  · simp [hleaves]
  · simp [hcode] at hc

/-- GENCODE makes the code table of a valid tree (R130, R132). -/
theorem codecOk_storeCode (hnode : tableWf Node.emptyRecord Config.nodeSlots s.node) (h : CodecOk s)
    (hvalid : s.status.treeValid = true) {code : List (Nat × Code)} (hcode : codeTable s.node s.root = some code) :
    CodecOk (storeCode code s) := by
  obtain ⟨htree, -⟩ := h
  obtain ⟨code', hcode', -, hok⟩ := codeTable_ok hnode (htree hvalid).1
  cases hcode.symm.trans hcode'
  exact ⟨htree, fun _ => ⟨hvalid, hok⟩⟩

/-- The three parts of the invariant, each by its own argument. -/
theorem inv_of_parts (h : Inv s) (hmem : MemoryForm s → MemoryForm t) (hreg : RegistersOk s → RegistersOk t)
    (hcodec : CodecOk s → CodecOk t) : Inv t := by
  obtain ⟨hm, hr, hc⟩ := inv_iff.1 h
  exact inv_iff.2 ⟨hmem hm, hreg hr, hcodec hc⟩

theorem inv_storeTree (h : Inv s) (hvalid : s.status.freqValid = true) : Inv (storeTree (clearTree s)) := by
  obtain ⟨-, ⟨-, -, hfreq, -⟩, ⟨-, -, hcounts, -⟩, -⟩ := id h
  exact inv_of_parts h MemoryForm.storeTree (registersOk_kept.storeTree · hvalid)
    (fun _ => codecOk_storeTree hfreq ((hcounts hvalid).2.trans_lt s.ibufCap.isLt) rfl)

theorem inv_storeCode (h : Inv s) (hvalid : s.status.treeValid = true) {code : List (Nat × Code)}
    (hcode : codeTable s.node s.root = some code) : Inv (storeCode code s) := by
  obtain ⟨-, ⟨-, -, -, hnode, -⟩, -, -⟩ := id h
  exact inv_of_parts h (·.storeCode (tableWf_codeTable hcode)) id (codecOk_storeCode hnode · hvalid hcode)

theorem inv_packInto (h : Inv s) : (packInto s).Leaves Inv := by
  obtain ⟨hm, hr, hc⟩ := inv_iff.1 h
  have hcodec : (packInto s).Leaves CodecOk := packInto_leaves (fun _ _ => hc) (fun _ _ _ _ => hc)
  exact ((packInto_leaves_form hm).and ((registersOk_kept.packInto hr).and hcodec)).mono (fun _ => inv_iff.2)

theorem inv_walkInto (h : Inv s) : (walkInto s).Leaves Inv := by
  obtain ⟨hm, hr, hc⟩ := inv_iff.1 h
  have hcodec : (walkInto s).Leaves CodecOk := walkInto_leaves (fun _ _ => hc) (fun _ _ _ _ => hc)
  exact ((walkInto_leaves_form hm).and ((registersOk_kept.walkInto hr).and hcodec)).mono (fun _ => inv_iff.2)

theorem inv_kept : KeptByOperations Inv where
  withPort h _ := h
  hostRead h _ _ := h
  writeReg h index v := inv_of_parts h (·.writeReg index v) (registersOk_kept.writeReg · index v) (fun hc => by
    unfold writeReg
    split <;> exact hc)
  writeIbuf h index v := inv_of_parts h (·.writeIbuf index v) (registersOk_kept.writeIbuf · index v) (fun hc => by
    unfold writeIbuf
    split <;> exact hc)
  raiseFault h c i := inv_of_parts h (·.raiseFault c i) (registersOk_raiseFault · c i) id
  softReset h := inv_of_parts h id registersOk_kept.softReset (fun _ => codecOk_of_no_tree rfl rfl)
  hardwareReset h := inv_of_parts h MemoryForm.hardwareReset registersOk_kept.hardwareReset
    (fun _ => codecOk_of_no_tree rfl rfl)
  clearFreq h := inv_of_parts h id registersOk_clearFreq id
  clearTree h := inv_of_parts h id registersOk_clearTree (fun _ => codecOk_of_no_tree rfl rfl)
  clearCode h := inv_of_parts h id id codecOk_clearCode
  clearPack h := inv_of_parts h id registersOk_clearPack id
  clearUnpack h := inv_of_parts h id registersOk_clearUnpack id
  clearCodec h := inv_of_parts h id registersOk_clearCodec (fun _ => codecOk_of_no_tree rfl rfl)
  storeFreq h hin := inv_of_parts h (·.storeFreq (tableWf_frequencyTable _)) (registersOk_storeFreq · hin) id
  storeTree := inv_storeTree
  storeCode h hvalid _ hcode := inv_storeCode h hvalid hcode
  packInto := inv_packInto
  walkInto := inv_walkInto

/-- Settles O52: each operation keeps the sizes and memories, the registers and the codec state. -/
theorem stepKeepsTheInvariant : Obligations.StepKeepsTheInvariant := by
  unfold Obligations.StepKeepsTheInvariant
  intro s t h hnext
  exact inv_kept.step_kept h hnext

/-- Settles O49: at reset nothing is stored and every valid flag is 0. -/
theorem invHoldsAtReset : Obligations.InvHoldsAtReset := by
  unfold Obligations.InvHoldsAtReset
  have hform : MemoryForm State.reset :=
    ⟨by decide, Memory.wf_nil _, Memory.wf_nil _, tableWf_nil _ _, tableWf_nil _ _, tableWf_nil _ _⟩
  exact inv_iff.2 ⟨hform, registersOk_of_clear rfl rfl rfl rfl rfl rfl, codecOk_of_no_tree rfl rfl⟩

end Sys2Proof.Machine

/-!
PROOF of O54, O25, O10, O4 and O13. Where a walk and the codes of a tree end (spec 10_state.md R46, R56 item 6), the words of
the registers (R21 to R38), the dispatch of a pending command word (R22) and the registers at reset (R55).
-/

namespace Sys2Proof.Machine

open Sys2Proof.Claims

variable {s t : State}

/-! ### A walk that stops between two symbols stands at an internal node (R160) -/

theorem runFold_ok_keeps {α β : Type} {P : α → Prop} {f : α → β → Run α}
    (hf : ∀ {a b a'}, P a → f a b = .ok a' → P a') {a a' : α} (ha : P a) {items : List β}
    (h : runFold f a items = .ok a') : P a' := by
  induction items generalizing a with
  | nil => cases h; exact ha
  | cons b rest ih =>
    rw [runFold_cons] at h
    cases hb : f a b with
    | ok a1 => exact ih (hf ha hb) (by rwa [hb] at h)
    | raised c i a1 => simp [hb] at h
    | stopped e => simp [hb] at h

/-- No child of an internal node is EMPTY (R44 item 3). -/
theorem treeOk_child_ne_empty {nodes : List (Nat × Node)} {root : Root}
    (hw : tableWf Node.emptyRecord Config.nodeSlots nodes) (ht : TreeOk nodes root) {i : Nat}
    (hk : (nodeAt nodes i).kind = .internal) (b : Bool) :
    nodeAt nodes (childOf (nodeAt nodes i) b).toNat ≠ Node.emptyRecord := by
  obtain ⟨-, -, -, -, -, -, hchildren⟩ := ht
  refine (mem_keys_iff hw).1 (hchildren _ ((mem_childSlots_iff hw).2 ⟨i, hk, ?_⟩))
  cases b
  · exact Or.inl rfl
  · exact Or.inr rfl

/-- A record of kind EMPTY in a tree is the EMPTY record. -/
theorem treeOk_empty {nodes : List (Nat × Node)} {root : Root} (hw : tableWf Node.emptyRecord Config.nodeSlots nodes)
    (ht : TreeOk nodes root) {i : Nat} (hk : (nodeAt nodes i).kind = .empty) : nodeAt nodes i = Node.emptyRecord := by
  by_contra hne
  obtain ⟨hleaf, hinternal, hunused⟩ := treeOk_node hw ht hne
  simp only [hk, reduceCtorEq, false_and, imp_false, Config.symbols, Config.unusedSlot] at hleaf hinternal hunused
  rw [hunused (by omega)] at hk
  cases hk

/-- One bit takes a walk from an internal node to an internal node, or back to the root (R158, R159). -/
theorem walkBit_internal {nodes : List (Nat × Node)} {root : Root} (hw : tableWf Node.emptyRecord Config.nodeSlots nodes)
    (ht : TreeOk nodes root) (hroot : (nodeAt nodes root.idx.toNat).kind = .internal) {cap : Nat} {w w' : Walker}
    {item : Bool × Nat} (hcur : (nodeAt nodes w.cur.toNat).kind = .internal)
    (h : walkBit nodes root.idx cap w item = .ok w') : (nodeAt nodes w'.cur.toNat).kind = .internal := by
  obtain ⟨b, n⟩ := item
  cases hk : (nodeAt nodes (childOf (nodeAt nodes w.cur.toNat) b).toNat).kind with
  | leaf =>
    rw [walkBit_leaf hk] at h
    split at h
    · cases h
    · cases h; exact hroot
  | unused => rw [walkBit_unused hk] at h; cases h
  | internal => rw [walkBit_move (Or.inl hk)] at h; cases h; exact hk
  | empty => exact absurd (treeOk_empty hw ht hk) (treeOk_child_ne_empty hw ht hcur b)

/-- Where a walk ends: at the root or at an internal node (R160). -/
theorem walkRun_cur (hw : tableWf Node.emptyRecord Config.nodeSlots s.node) (ht : TreeOk s.node s.root)
    (hstart : bitCount s = 0 ∨ s.root.valid = true) {w : Walker} (h : walkRun s = .ok w) :
    w.cur = s.root.idx ∨ (nodeAt s.node w.cur.toNat).kind = .internal := by
  rcases hstart with hnone | hvalid
  · left
    rw [walkRun, hnone] at h
    cases h
    rfl
  · right
    rcases treeOk_root hw ht with ⟨hinvalid, -⟩ | ⟨-, hroot, -⟩
    · rw [hvalid] at hinvalid
      cases hinvalid
    · exact runFold_ok_keeps (P := fun w => (nodeAt s.node w.cur.toNat).kind = .internal)
        (fun hcur => walkBit_internal hw ht hroot hcur) hroot h

/-- A walk that leaves DEC_PARTIAL set ran to its end: a raise does not set the flag (R155, R196). -/
theorem walkRun_of_walkInto (hclear : s.status.decPartial = false) (h : runFinish (walkInto s) = .next t)
    (hp : t.status.decPartial = true) : ∃ w, walkRun s = .ok w ∧ t = storeWalked w s := by
  unfold walkInto at h
  cases hw : walkRun s with
  | ok w =>
    rw [hw] at h
    cases h
    exact ⟨w, rfl, rfl⟩
  | raised c i w =>
    rw [hw] at h
    cases h
    exact absurd hp (by simp [hclear])
  | stopped e =>
    rw [hw] at h
    cases h

/-- An UNPACK that leaves DEC_PARTIAL set has passed its checks and walked to its end: it clears the flag before the first
check (R155, R198). -/
theorem walkRun_of_partial (hfault : s.status.fault = false) (h : exec .unpack s = .next t)
    (hp : t.status.decPartial = true) :
    s.status.treeValid = true ∧ (bitCount s = 0 ∨ s.root.valid = true) ∧
      ∃ w, walkRun (clearUnpack s) = .ok w ∧ t = storeWalked w (clearUnpack s) := by
  have hbody : runFinish (unpackBody s) = .next t := by rwa [← gated_of_no_fault unpackBody hfault]
  have hchecked : ∀ c i, runFinish (.raised c i (clearUnpack s)) ≠ .next t := by
    rintro c i ⟨⟩
    cases hp
  rw [unpackBody_eq] at hbody
  split_ifs at hbody with hvalid hin hlen hempty
  · exact absurd hbody (hchecked _ _)
  · exact absurd hbody (hchecked _ _)
  · exact ⟨hvalid, by simpa [or_iff_not_imp_left] using hempty, walkRun_of_walkInto rfl hbody hp⟩
  · exact absurd hbody (hchecked _ _)
  · exact absurd hbody (hchecked _ _)

/-- Settles O54: the walk ends at the root or at an internal node, and DEC_PARTIAL excludes the root. -/
theorem partialWalkEndsInside : Obligations.PartialWalkEndsInside := by
  unfold Obligations.PartialWalkEndsInside
  rintro s t ⟨-, ⟨-, -, -, hnode, -⟩, -, htree, -⟩ hfault hnext hp
  obtain ⟨hvalid, hstart, w, hw, rfl⟩ := walkRun_of_partial hfault hnext hp
  have hne : w.cur ≠ s.root.idx := of_decide_eq_true hp
  exact ⟨rfl, hne, (walkRun_cur (s := clearUnpack s) hnode (htree hvalid).1 hstart hw).resolve_left hne⟩

/-! ### No code begins another (R46) -/

/-- A path ends at a leaf. -/
theorem descend_leaf {nodes : List (Nat × Node)} {n m : NodeIdx} {p : List Bool} (hk : (nodeAt nodes n.toNat).kind = .leaf)
    (h : descend nodes n p = some m) : m = n := by
  cases p with
  | nil => cases h; rfl
  | cons b p => simp [descend, hk] at h

/-- Settles O25: a code that begins another leads to the same leaf, so it is the same symbol's. -/
theorem noCodeBeginsAnother : Obligations.NoCodeBeginsAnother := by
  unfold Obligations.NoCodeBeginsAnother
  rintro s ⟨-, ⟨-, -, -, hnode, hcode⟩, -, -, hcodec⟩ hvalid
  obtain ⟨-, hok⟩ := hcodec hvalid
  have hleaf := codeOk_valid_iff hnode hcode hok
  refine ⟨fun x _ => hleaf x, fun x _ hx => (codeOk_at hok hx).2.1, fun x hx y hy hxy hvx hvy hpre => hxy ?_⟩
  obtain ⟨-, -, -, hdx⟩ := codeOk_at hok hvx
  obtain ⟨-, -, -, hdy⟩ := codeOk_at hok hvy
  obtain ⟨rest, hrest⟩ := hpre
  have hx9 : (BitVec.ofNat 9 x).toNat = x := by rw [BitVec.toNat_ofNat]; exact Nat.mod_eq_of_lt (by omega)
  have hy9 : (BitVec.ofNat 9 y).toNat = y := by rw [BitVec.toNat_ofNat]; exact Nat.mod_eq_of_lt (by omega)
  simp only at hdx hdy
  rw [← hrest, descend_append, hdx, Option.bind_some] at hdy
  have hyx := descend_leaf (by rw [hx9]; exact (hleaf x).1 hvx) hdy
  rw [← hx9, ← hyx, hy9]

/-! ### The register words (R21 to R38) -/

/-- Flag k of STATUS is bit k (R23). -/
theorem Status.word_getLsbD (f : Status) (k : Nat) : f.word.getLsbD k =
    [f.freqValid, f.treeValid, f.codeValid, f.outValid, f.degen, f.decPartial, f.fault].getD k false := by
  simp only [Status.word, BitVec.getLsbD_append]
  match k with
  | 0 | 1 | 2 | 3 | 4 | 5 | 6 | k + 7 => simp

/-- VALID is bit 31 of ROOT, IDX bits 8:0 (R33). -/
theorem Root.word_getLsbD (r : Root) {k : Nat} (hk : k < 32) :
    r.word.getLsbD k = if k = 31 then r.valid else r.idx.getLsbD k := by
  simp only [Root.word, BitVec.getLsbD_append]
  by_cases h9 : k < 9
  · simp [h9]; omega
  · rw [BitVec.getLsbD_of_ge r.idx k (by omega)]
    by_cases h31 : k = 31
    · simp [h31]
    · simp [h9, h31]; omega

/-- LEN_EN is bit 0 of CTRL (R25). -/
theorem regWord_ctrl_getLsbD (s : State) (k : Nat) : (regWord s 2).getLsbD k = (decide (k = 0) && s.lenEn) := by
  simp only [regWord]
  cases s.lenEn
  · simp
  · simp [BitVec.getLsbD_one]

/-- A reserved index reads 0 (R38). -/
theorem regWord_reserved (s : State) {n : Nat} (hn : 14 ≤ n) : regWord s n = 0 := by
  obtain ⟨m, rfl⟩ := Nat.exists_eq_add_of_le' hn
  rfl

/-- Settles O10: the words with several fields bit by bit, the others as they are stored. -/
theorem registerWordsReadAsLaidOut : Obligations.RegisterWordsReadAsLaidOut := by
  unfold Obligations.RegisterWordsReadAsLaidOut
  intro s
  refine ⟨rfl, fun n hn => regWord_reserved s hn, fun k _ => (s.status.word_getLsbD k).trans ?_,
    fun k _ => regWord_ctrl_getLsbD s k, rfl, rfl, rfl, rfl, rfl, fun k hk => s.root.word_getLsbD hk,
    BitVec.toNat_setWidth_of_le (by decide), rfl, BitVec.toNat_setWidth_of_le (by decide), rfl, rfl⟩
  match k with
  | 0 | 1 | 2 | 3 | 4 | 5 | 6 | _ + 7 => rfl

/-! ### Dispatch (R22) and reset (R55) -/

/-- Settles O4: the pending word is served as a write to CMD, which runs what it decodes to. -/
theorem stepRunsTheDecodedCommand : Obligations.StepRunsTheDecodedCommand := by
  unfold Obligations.StepRunsTheDecodedCommand
  intro s w i rest hport hdec _
  have hstep : step s = issueCommand w { s with port := rest } := by
    rw [step, show s.port = Access.command w :: rest from hport]
    rfl
  rw [hstep, issueCommand, hdec]

/-- Settles O13. -/
theorem resetRegisters : Obligations.ResetRegisters := by
  unfold Obligations.ResetRegisters
  decide

end Sys2Proof.Machine

/-!
PROOF of O8, O9, O12 and O47. The host port and the memories (spec 20_memory.md R60 to R63): what a host write does, what a
host read returns, and which command writes which memory.
-/

namespace Sys2Proof.Machine

open Sys2Proof.Claims

variable {s t : State}

/-! ### A word outside the opcode map is rejected (R83) -/

/-- A row that a map answers with is one the word agrees with. -/
theorem mem_of_findRow {rows : List OpcodeRow} {w : Word} {i : Instr} (h : findRow rows w = some i) :
    ∃ row ∈ rows, w &&& row.mask = row.pattern := by
  induction rows with
  | nil => cases h
  | cons row rest ih =>
    simp only [findRow] at h
    split at h
    next hrow => exact ⟨row, List.mem_cons_self, hrow⟩
    next =>
      obtain ⟨r, hr, hw⟩ := ih h
      exact ⟨r, List.mem_cons_of_mem _ hr, hw⟩

/-- Every row of the opcode map compares the whole word, with one that R83 leaves legal. -/
theorem opcodeMap_compares_legal_words :
    ∀ row ∈ opcodeMap, row.mask = BitVec.allOnes 32 ∧ ¬IllegalWord row.pattern := by
  unfold IllegalWord
  decide

theorem not_illegalWord_of_decode {w : Word} {i : Instr} (h : decode w = .ok i) : ¬IllegalWord w := by
  unfold decode at h
  split at h
  next hfind =>
    obtain ⟨row, hmem, hw⟩ := mem_of_findRow hfind
    obtain ⟨hmask, hlegal⟩ := opcodeMap_compares_legal_words row hmem
    rw [hmask, BitVec.and_allOnes] at hw
    rwa [hw]
  next => cases h

/-- With no fault latched, an illegal word in CMD raises ILLEGAL_CMD (R187). -/
theorem issueCommand_illegal {w : Word} (hw : IllegalWord w) (hfault : s.status.fault = false) :
    issueCommand w s = .next (raiseFault .illegalCmd w s) := by
  unfold issueCommand
  split
  next hdec => exact absurd hw (not_illegalWord_of_decode hdec)
  next => simp [illegalCommand, hfault]

/-! ### What a host write does (R62) -/

/-- A step serves the pending access (R74). -/
theorem step_of_port {a : Access} {rest : List Access} (h : s.port = a :: rest) :
    step s = serve a { s with port := rest } := by
  rw [step, h]

theorem hostWrite_reg {idx : Word} (h : idx ≠ 0) (v : Word) (s : State) :
    hostWrite .reg idx v s = .next (writeReg idx.toNat v s) := by
  rw [hostWrite, if_neg h]

theorem hostWrite_table {sp : Space} (hreg : sp ≠ .reg) (hibuf : sp ≠ .ibuf) (idx v : Word) (s : State) :
    hostWrite sp idx v s = .next s := by
  cases sp with
  | reg => exact absurd rfl hreg
  | ibuf => exact absurd rfl hibuf
  | obuf | freq | nodea | nodew | codel | codeb => rfl

/-- A register that is neither CTRL, IN_LEN nor DEC_BITLEN ignores a write. -/
theorem writeReg_ignored {n : Nat} (h2 : n ≠ 2) (h3 : n ≠ 3) (h6 : n ≠ 6) (v : Word) (s : State) : writeReg n v s = s := by
  unfold writeReg
  split
  · exact absurd rfl h2
  · exact absurd rfl h3
  · exact absurd rfl h6
  · rfl

theorem hostWrite_ibuf_inside {idx : Word} (h : idx.toNat < s.ibufCap.toNat) (v : Word) :
    hostWrite .ibuf idx v s = .next { s with ibuf := Memory.write s.ibuf idx.toNat (v.setWidth 8) } := by
  rw [hostWrite, writeIbuf, if_pos h]

theorem hostWrite_ibuf_outside {idx : Word} (h : s.ibufCap.toNat ≤ idx.toNat) (v : Word) :
    hostWrite .ibuf idx v s = .next s := by
  rw [hostWrite, writeIbuf, if_neg h.not_gt]

/-- Settles O8: the access is served by `hostWrite`, clause by clause. -/
theorem hostWritesDoWhatTheyMay : Obligations.HostWritesDoWhatTheyMay := by
  unfold Obligations.HostWritesDoWhatTheyMay
  intro s sp idx v rest hport
  have hstep : step s = hostWrite sp idx v { s with port := rest } := step_of_port hport
  rw [hstep]
  refine ⟨?command, ?ctrl, ?inLen, ?decBitLen, ?ibuf, ?ignored⟩
  case command =>
    rintro rfl rfl
    refine ⟨fun i hdec => ?_, fun hw hfault => ⟨_, issueCommand_illegal hw hfault, rfl, rfl⟩⟩
    show issueCommand v _ = _
    rw [issueCommand, hdec]
  case ctrl | inLen | decBitLen =>
    rintro rfl rfl
    exact hostWrite_reg (by decide) v _
  case ibuf =>
    rintro rfl hin
    exact ⟨_, hostWrite_ibuf_inside (s := { s with port := rest }) hin v, fun a => Memory.read?_write _ _ _ _⟩
  case ignored =>
    rintro (⟨rfl, h0, h2, h3, h6⟩ | ⟨rfl, hout⟩ | ⟨hreg, hibuf⟩)
    · rw [hostWrite_reg h0, writeReg_ignored (by bv_omega) (by bv_omega) (by bv_omega)]
    · exact hostWrite_ibuf_outside (s := { s with port := rest }) hout v
    · exact hostWrite_table hreg hibuf idx v _

/-! ### What no host write but a command changes (R63) -/

/-- All that a host write but a command can change: CTRL, IN_LEN, DEC_BITLEN and IBUF. -/
def HostWriteFrame (s t : State) : Prop :=
  t = { s with lenEn := t.lenEn, inLen := t.inLen, decBitLen := t.decBitLen, ibuf := t.ibuf }

theorem writeReg_frame (n : Nat) (v : Word) (s : State) : HostWriteFrame s (writeReg n v s) := by
  unfold writeReg
  split <;> rfl

theorem writeIbuf_frame (n : Nat) (v : Word) (s : State) : HostWriteFrame s (writeIbuf n v s) := by
  unfold writeIbuf
  split <;> rfl

theorem hostWrite_frame {sp : Space} {idx v : Word} (hcmd : ¬(sp = .reg ∧ idx = 0)) (h : hostWrite sp idx v s = .next t) :
    HostWriteFrame s t := by
  cases sp with
  | reg =>
    rw [hostWrite_reg fun h0 => hcmd ⟨rfl, h0⟩] at h
    cases h
    exact writeReg_frame idx.toNat v s
  | ibuf => cases h; exact writeIbuf_frame idx.toNat v s
  | obuf | freq | nodea | nodew | codel | codeb => cases h; rfl

/-- Settles O12: OBUF, the tables and the result registers are outside the frame of a host write. -/
theorem hostCannotWriteTheTables : Obligations.HostCannotWriteTheTables := by
  unfold Obligations.HostCannotWriteTheTables
  intro s t sp idx v rest hport hcmd hnext
  rw [step_of_port hport] at hnext
  have hframe : HostWriteFrame { s with port := rest } t := hostWrite_frame hcmd hnext
  rw [hframe]
  exact ⟨rfl, ⟨rfl, rfl, rfl⟩, rfl, rfl, rfl, rfl, rfl, rfl, rfl, rfl⟩

/-! ### What a host read returns (R61) -/

theorem memRead_outside {sp : Space} {n : Nat} (h : spaceSize s sp ≤ n) : memRead sp n s = 0 := if_pos h

theorem memRead_inside {sp : Space} {n : Nat} (h : n < spaceSize s sp) (hspec : contentSpecified s sp n = true) :
    memRead sp n s = contentWord s sp n := by
  rw [memRead, if_neg h.not_ge, if_pos hspec]

theorem memRead_reg (idx : Word) (s : State) : memRead .reg idx.toNat s = regWord s idx.toNat :=
  memRead_inside idx.isLt rfl

theorem memRead_ibuf (n : Nat) (s : State) :
    memRead .ibuf n s = if n < s.ibufCap.toNat then (ibufByte s n).setWidth 32 else 0 := by
  split
  next hin => exact memRead_inside hin rfl
  next hout => exact memRead_outside (Nat.le_of_not_lt hout)

/-- Inside OUT_LEN a valid output reads as the byte that a command has written there. -/
theorem memRead_obuf {n : Nat} (hin : n < s.obufCap.toNat) (hvalid : s.status.outValid = true) (hlen : n < s.outLen.toNat)
    {b : Byte} (hb : Memory.read? s.obuf n = some b) : memRead .obuf n s = b.setWidth 32 := by
  rw [memRead_inside hin (by simp [contentSpecified, hvalid, hlen]), contentWord, hb]

/-- Settles O9: a read inside its space returns the stored content where that is specified, and 0 outside. -/
theorem hostReadsReturnTheElement : Obligations.HostReadsReturnTheElement := by
  unfold Obligations.HostReadsReturnTheElement
  intro s sp idx rest hport
  refine ⟨memRead sp idx.toNat s, step_of_port hport, ?reg, ?ibuf, ?obufOutside, ?obuf, ?freqOutside, ?freq, ?nodeOutside,
    ?nodea, ?nodew, ?codelOutside, ?codel, ?codebOutside, ?codeb⟩
  case reg => rintro rfl; exact memRead_reg idx s
  case ibuf => rintro rfl; exact memRead_ibuf _ s
  case obuf => rintro rfl hin hvalid hlen b hb; exact memRead_obuf hin hvalid hlen hb
  case nodeOutside => rintro (rfl | rfl) hout <;> exact memRead_outside hout
  case obufOutside | freqOutside | codelOutside | codebOutside => rintro rfl hout; exact memRead_outside hout
  case freq | nodea | nodew | codel | codeb => rintro rfl hin hvalid; exact memRead_inside hin hvalid

/-! ### Which command writes which memory (R60) -/

/-- The memories of the core (R60); NODEA and NODEW are views of one, and so are CODEL and CODEB. -/
inductive MemoryName where
  | ibuf
  | obuf
  | freq
  | node
  | code
deriving DecidableEq

/-- The memories that a command writes (R60). -/
def memoriesWritten : Instr → List MemoryName
  | .freq => [.freq]
  | .build => [.node]
  | .gencode => [.code]
  | .pack => [.obuf]
  | .unpack => [.obuf]
  | .compress => [.freq, .node, .code, .obuf]
  | .nop => []
  | .rst => []
  | .discard => []

/-- The memory holds in `t` what it holds in `s`. -/
def MemoryName.Same (m : MemoryName) (s t : State) : Prop :=
  match m with
  | .ibuf => t.ibuf = s.ibuf
  | .obuf => t.obuf = s.obuf
  | .freq => t.freq = s.freq
  | .node => t.node = s.node
  | .code => t.code = s.code

namespace MemoryName

variable {m : MemoryName} {u : State}

theorem Same.refl (m : MemoryName) (s : State) : m.Same s s := by
  cases m <;> rfl

/-- An update of registers alone leaves every memory. -/
theorem Same.congr (h : m.Same s t) (hibuf : u.ibuf = t.ibuf) (hobuf : u.obuf = t.obuf) (hfreq : u.freq = t.freq)
    (hnode : u.node = t.node) (hcode : u.code = t.code) : m.Same s u := by
  cases m with
  | ibuf => exact hibuf.trans h
  | obuf => exact hobuf.trans h
  | freq => exact hfreq.trans h
  | node => exact hnode.trans h
  | code => exact hcode.trans h

theorem Same.withObuf (h : m.Same s t) (hm : m ≠ .obuf) (o : List Host.Cell) : m.Same s { t with obuf := o } := by
  cases m with
  | obuf => exact absurd rfl hm
  | ibuf | freq | node | code => exact h

theorem Same.storeFreq (h : m.Same s t) (hm : m ≠ .freq) (f : List (Nat × Word)) : m.Same s (storeFreq f t) := by
  cases m with
  | freq => exact absurd rfl hm
  | ibuf | obuf | node | code => exact h

theorem Same.storeTree (h : m.Same s t) (hm : m ≠ .node) : m.Same s (storeTree t) := by
  cases m with
  | node => exact absurd rfl hm
  | ibuf | obuf | freq | code => exact h

theorem Same.storeCode (h : m.Same s t) (hm : m ≠ .code) (c : List (Nat × Code)) : m.Same s (storeCode c t) := by
  cases m with
  | code => exact absurd rfl hm
  | ibuf | obuf | freq | node => exact h

theorem freqBody_leaves (h : m.Same s t) (hm : m ≠ .freq) : (freqBody t).Leaves (m.Same s) := by
  have hclear : m.Same s (clearFreq t) := h.congr rfl rfl rfl rfl rfl
  rw [freqBody_eq]
  split
  · exact hclear.storeFreq hm _
  · exact hclear

theorem buildBody_leaves (h : m.Same s t) (hm : m ≠ .node) : (buildBody t).Leaves (m.Same s) := by
  have hclear : m.Same s (clearTree t) := h.congr rfl rfl rfl rfl rfl
  rw [buildBody_eq]
  split
  · exact hclear.storeTree hm
  · exact hclear

theorem gencodeBody_leaves (h : m.Same s t) (hm : m ≠ .code) : (gencodeBody t).Leaves (m.Same s) := by
  have hclear : m.Same s (clearCode t) := h.congr rfl rfl rfl rfl rfl
  rw [gencodeBody_eq]
  split
  · unfold generate
    split
    · exact Run.leaves_stopped _
    · exact hclear.storeCode hm _
  · exact hclear

theorem packBody_leaves (h : m.Same s t) (hm : m ≠ .obuf) : (packBody t).Leaves (m.Same s) := by
  have hclear : m.Same s (clearPack t) := h.congr rfl rfl rfl rfl rfl
  refine runThen_leaves (require_leaves hclear _ _ _) fun u hu => runThen_leaves (require_leaves hu _ _ _) fun v hv => ?_
  exact packInto_leaves (fun p _ => (hv.withObuf hm p.sink.obuf).congr rfl rfl rfl rfl rfl)
    (fun _ _ p _ => hv.withObuf hm p.sink.obuf)

theorem unpackBody_leaves (h : m.Same s t) (hm : m ≠ .obuf) : (unpackBody t).Leaves (m.Same s) := by
  have hclear : m.Same s (clearUnpack t) := h.congr rfl rfl rfl rfl rfl
  have hwalk : ∀ v, m.Same s v → (walkInto v).Leaves (m.Same s) := fun v hv =>
    walkInto_leaves (fun w _ => (hv.withObuf hm w.sink.obuf).congr rfl rfl rfl rfl rfl)
      (fun _ _ w _ => hv.withObuf hm w.sink.obuf)
  rw [unpackBody_eq]
  split_ifs
  · exact hclear
  · exact hclear
  · exact hwalk _ hclear
  · exact hclear
  · exact hclear

theorem compressBody_leaves (h : m.Same s t) (hfreq : m ≠ .freq) (hnode : m ≠ .node) (hcode : m ≠ .code)
    (hobuf : m ≠ .obuf) : (compressBody t).Leaves (m.Same s) := by
  have hclear : m.Same s (clearCodec (clearPack t)) := h.congr rfl rfl rfl rfl rfl
  exact runThen_leaves (freqBody_leaves hclear hfreq) fun _ hu =>
    runThen_leaves (buildBody_leaves hu hnode) fun _ hv =>
      runThen_leaves (gencodeBody_leaves hv hcode) fun _ hw => packBody_leaves hw hobuf

/-- A gated command leaves a memory that its body leaves: a raise writes no memory (R196). -/
theorem gated_same {body : State → Run State} (hbody : (body s).Leaves (m.Same s)) (h : gated body s = .next t) :
    m.Same s t :=
  gated_keeps (fun _ _ _ hu => hu.congr rfl rfl rfl rfl rfl) (Same.refl m s) hbody h

/-- A command leaves every memory but those it writes. -/
theorem exec_same {i : Instr} (hm : m ∉ memoriesWritten i) (h : exec i s = .next t) : m.Same s t := by
  have hs : m.Same s s := Same.refl m s
  cases i with
  | nop => cases h; exact hs
  | rst => cases h; exact hs.congr rfl rfl rfl rfl rfl
  | freq => exact gated_same (freqBody_leaves hs (List.ne_of_not_mem_cons hm)) h
  | build => exact gated_same (buildBody_leaves hs (List.ne_of_not_mem_cons hm)) h
  | gencode => exact gated_same (gencodeBody_leaves hs (List.ne_of_not_mem_cons hm)) h
  | pack => exact gated_same (packBody_leaves hs (List.ne_of_not_mem_cons hm)) h
  | unpack => exact gated_same (unpackBody_leaves hs (List.ne_of_not_mem_cons hm)) h
  | compress =>
    simp only [memoriesWritten, List.mem_cons, List.not_mem_nil, or_false, not_or] at hm
    obtain ⟨hfreq, hnode, hcode, hobuf⟩ := hm
    exact gated_same (compressBody_leaves hs hfreq hnode hcode hobuf) h
  | discard => exact gated_same (body := discardBody) (hs.congr rfl rfl rfl rfl rfl) h

theorem ibuf_not_written (i : Instr) : .ibuf ∉ memoriesWritten i := by
  cases i <;> decide

theorem freq_written_iff (i : Instr) : .freq ∈ memoriesWritten i ↔ i = .freq ∨ i = .compress := by
  cases i <;> decide

theorem node_written_iff (i : Instr) : .node ∈ memoriesWritten i ↔ i = .build ∨ i = .compress := by
  cases i <;> decide

theorem code_written_iff (i : Instr) : .code ∈ memoriesWritten i ↔ i = .gencode ∨ i = .compress := by
  cases i <;> decide

theorem obuf_written_iff (i : Instr) : .obuf ∈ memoriesWritten i ↔ i = .pack ∨ i = .unpack ∨ i = .compress := by
  cases i <;> decide

end MemoryName

/-- Settles O47: each memory is left by every command that the table of R60 does not name as its writer. -/
theorem eachMemoryHasItsWriters : Obligations.EachMemoryHasItsWriters := by
  unfold Obligations.EachMemoryHasItsWriters
  intro i s t hnext
  have hsame : ∀ m, m ∉ memoriesWritten i → m.Same s t := fun m hm => MemoryName.exec_same hm hnext
  refine ⟨fun a => ?ibuf, fun hfreq hcompress => hsame .freq ?freq, fun hbuild hcompress => hsame .node ?node,
    fun hgencode hcompress => hsame .code ?code, fun hpack hunpack hcompress a => ?obuf⟩
  case ibuf =>
    have hibuf : t.ibuf = s.ibuf := hsame .ibuf (MemoryName.ibuf_not_written i)
    rw [hibuf]
  case freq => simp [MemoryName.freq_written_iff, hfreq, hcompress]
  case node => simp [MemoryName.node_written_iff, hbuild, hcompress]
  case code => simp [MemoryName.code_written_iff, hgencode, hcompress]
  case obuf =>
    have hobuf : t.obuf = s.obuf := hsame .obuf (by simp [MemoryName.obuf_written_iff, hpack, hunpack, hcompress])
    rw [hobuf]

end Sys2Proof.Machine

/-!
PROOF of O2, O3, O1, O11 and O26. The decoder inverts the encoder and names what it rejects (spec 30_encoding.md R81, R83,
R84), the fields of the table words (R85, R86), and the Packed Buffer that PACK writes (R89, 43_pack.md R140, R143).
-/

namespace Sys2Proof.Machine

open Sys2Proof.Claims

/-! ### The decoder and the encoder (R81) -/

/-- Every row of the opcode map compares the whole word with the word of its own command. -/
theorem opcodeMap_compares_encoded_words :
    ∀ row ∈ opcodeMap, row.mask = BitVec.allOnes 32 ∧ row.pattern = encode row.instr := by
  decide

/-- The decoder reads every command back from its word. -/
@[simp] theorem decode_encode (i : Instr) : decode (encode i) = .ok i := by
  cases i <;> rfl

/-- Only the encoder's word decodes to a command: it is the pattern of the row that answered. -/
theorem encode_of_decode {w : Word} {i : Instr} (h : decode w = .ok i) : w = encode i := by
  have hrow : ∃ row ∈ opcodeMap, w &&& row.mask = row.pattern := by
    unfold decode at h
    split at h
    next hfind => exact mem_of_findRow hfind
    next => cases h
  obtain ⟨row, hmem, hw⟩ := hrow
  obtain ⟨hmask, hpattern⟩ := opcodeMap_compares_encoded_words row hmem
  rw [hmask, BitVec.and_allOnes, hpattern] at hw
  rw [hw, decode_encode] at h
  cases h
  exact hw

theorem decode_eq_ok_iff {w : Word} {i : Instr} : decode w = .ok i ↔ w = encode i := by
  constructor
  · exact encode_of_decode
  · rintro rfl
    exact decode_encode i

/-- Settles O2: a row of the map holds the word of its command, and the encoder's words are the nine of R81. -/
theorem decodeIsTheInverseOfEncode : Obligations.DecodeIsTheInverseOfEncode := by
  unfold Obligations.DecodeIsTheInverseOfEncode
  exact ⟨fun _ _ => decode_eq_ok_iff, rfl, rfl, rfl, rfl, rfl, rfl, rfl, rfl, rfl⟩

/-! ### The rejections and their names (R83, R84) -/

theorem decode_illegalWord {w : Word} (h : IllegalWord w) : decode w = .error (rejection w) := by
  cases hdec : decode w with
  | ok i => exact absurd h (not_illegalWord_of_decode hdec)
  | error e =>
    unfold decode at hdec
    split at hdec
    · cases hdec
    · rw [← hdec]

theorem decode_zeroFieldSet {w : Word} (h : w.extractLsb' 8 24 ≠ 0) : decode w = .error .zeroFieldSet := by
  rw [decode_illegalWord (Or.inl h), rejection, if_neg h]

theorem decode_reservedOpcode {w : Word} (hzero : w.extractLsb' 8 24 = 0) (h : 9 ≤ (w.extractLsb' 0 8).toNat) :
    decode w = .error .reservedOpcode := by
  rw [decode_illegalWord (Or.inr h), rejection, if_pos hzero]

/-- The opcodes 0x00 to 0x08 are all in use (R81, R84). -/
theorem exists_opcode {b : BitVec 8} (h : b.toNat ≤ 8) : ∃ i, opcode i = b := by
  have hrows : ∀ b : BitVec 8, b.toNat ≤ 8 → ∃ row ∈ opcodeMap, opcode row.instr = b := by decide
  obtain ⟨row, -, hrow⟩ := hrows b h
  exact ⟨row.instr, hrow⟩

/-- A word is the encoder's when its ZERO field is 0 and its opcode is one of the nine (R80). -/
theorem exists_encode {w : Word} (hzero : w.extractLsb' 8 24 = 0) (h : (w.extractLsb' 0 8).toNat ≤ 8) :
    ∃ i, w = encode i := by
  obtain ⟨i, hi⟩ := exists_opcode h
  have hfields : w.extractLsb' 8 24 ++ w.extractLsb' 0 8 = w := BitVec.extractLsb'_append_extractLsb'
  rw [hzero] at hfields
  exact ⟨i, by rw [encode, hi]; exact hfields.symm⟩

/-- Settles O3: the ZERO field, then the opcode, decides; a word with neither fault is one of the encoder's. -/
theorem illegalWordsAreRejectedByName : Obligations.IllegalWordsAreRejectedByName := by
  unfold Obligations.IllegalWordsAreRejectedByName
  refine fun w => ⟨decode_zeroFieldSet, decode_reservedOpcode, fun hzero hop => ?legal⟩
  case legal =>
    obtain ⟨i, rfl⟩ := exists_encode hzero hop
    exact ⟨i, decode_encode i⟩

/-- Settles O1: five of the encoder's words, and one word for each way to be illegal, a ZERO bit at either end. -/
theorem sampleWordsDecode : Obligations.SampleWordsDecode := by
  unfold Obligations.SampleWordsDecode
  exact ⟨decode_encode .nop, decode_encode .rst, decode_encode .freq, decode_encode .pack, decode_encode .discard,
    decode_reservedOpcode (by decide) (by decide), decode_zeroFieldSet (by decide), decode_zeroFieldSet (by decide)⟩

/-! ### The table words (R85, R86) -/

/-- A field of a word made of a field above a lower part. -/
theorem extractLsb'_field_append {u v w : Nat} (hi : BitVec u) (field : BitVec v) (lo : BitVec w) :
    (hi ++ field ++ lo).extractLsb' w v = field := by
  rw [BitVec.extractLsb'_append_eq_of_le (Nat.le_refl w), Nat.sub_self, BitVec.extractLsb'_append_eq_right]

theorem nodeaWord_kind (n : Node) : (nodeaWord n).extractLsb' 0 2 = n.kind.number := BitVec.extractLsb'_append_eq_right

theorem nodeaWord_sym (n : Node) : (nodeaWord n).extractLsb' 2 8 = n.sym := extractLsb'_field_append _ _ _

theorem nodeaWord_left (n : Node) : (nodeaWord n).extractLsb' 10 9 = n.left := by
  rw [nodeaWord, BitVec.extractLsb'_append_eq_of_le (show 2 ≤ 10 by decide)]
  exact extractLsb'_field_append _ _ _

theorem nodeaWord_right (n : Node) : (nodeaWord n).extractLsb' 19 9 = n.right := by
  rw [nodeaWord, BitVec.extractLsb'_append_eq_of_le (show 2 ≤ 19 by decide),
    BitVec.extractLsb'_append_eq_of_le (show 8 ≤ 17 by decide)]
  exact extractLsb'_field_append _ _ _

theorem nodeaWord_reserved (n : Node) : (nodeaWord n).extractLsb' 28 4 = 0 := by
  simpa only [nodeaWord, BitVec.append_assoc, BitVec.cast_eq] using
    append_high_zero (n.right ++ n.left ++ n.sym ++ n.kind.number)

theorem codelWord_len (c : Code) : (codelWord c).extractLsb' 0 8 = c.len := BitVec.extractLsb'_append_eq_right

theorem codelWord_reserved (c : Code) : (codelWord c).extractLsb' 8 23 = 0 := append_middle_zero _ _

theorem codelWord_valid (c : Code) : (codelWord c).getLsbD 31 = c.valid := by
  simp only [codelWord, BitVec.getLsbD_append]
  simp

/-- Bit j of word w of a code is its bit 32w + j (R86). -/
theorem codebWord_getLsbD (c : Code) (w : Nat) {j : Nat} (hj : j < 32) :
    (codebWord c w).getLsbD j = c.bits.getLsbD (32 * w + j) := by
  simp [codebWord, hj]

/-- Settles O11: the fields are the parts that the words are put together from. -/
theorem tableWordsAreLaidOut : Obligations.TableWordsAreLaidOut := by
  unfold Obligations.TableWordsAreLaidOut
  exact ⟨fun n => ⟨nodeaWord_kind n, nodeaWord_sym n, nodeaWord_left n, nodeaWord_right n, nodeaWord_reserved n, rfl⟩,
    fun c => ⟨codelWord_len c, codelWord_reserved c, codelWord_valid c, fun w _ _ hj => codebWord_getLsbD c w hj⟩⟩

/-! ### PACK (R89, R140, R143) -/

/-- A Bit Sequence is as long as its codes together. -/
theorem bitSequence_length (code : List (Nat × Code)) (bytes : List Byte) :
    (bitSequence code bytes).length = (bytes.map (fun b => (codeAt code b.toNat).len.toNat)).sum := by
  simp only [bitSequence, List.length_flatMap, sequence_length]

/-- A PACK that passes its checks is the packing part (R140). -/
theorem exec_pack_eq {s : State} (hfault : s.status.fault = false) (hcode : s.status.codeValid = true)
    (hin : s.inLen.toNat ≤ s.ibufCap.toNat) : exec .pack s = runFinish (packInto (clearPack s)) := by
  have hbody : packBody s = packInto (clearPack s) := by rw [packBody_eq, if_pos hcode, if_pos hin]
  rw [← hbody]
  exact gated_of_no_fault packBody hfault

/-- OBUF_SIZE is at most 2^27 (R4). -/
theorem le_of_obufSizeWf {n : Nat} (h : obufSizeWf n = true) : n ≤ 2 ^ 27 :=
  of_decide_eq_true (Bool.and_eq_true_iff.1 h).2

/-- Bits whose bytes fit OBUF can be counted in 32 bits (R4). -/
theorem lt_of_bytesFor_le {s : State} (hsizes : SizesOk s) {n : Nat} (hfit : bytesFor n ≤ s.obufCap.toNat) :
    n < 2 ^ 32 := by
  obtain ⟨-, hobuf⟩ := hsizes
  have hcap := le_of_obufSizeWf hobuf
  unfold bytesFor at hfit
  omega

/-- A successful PACK, by what its packer holds at the end: BCNT, OPTR and the Packed Buffer (R89, R140, R142). -/
theorem exec_pack_packed {s : State} (hfault : s.status.fault = false) (hcode : s.status.codeValid = true)
    (hin : s.inLen.toNat ≤ s.ibufCap.toNat) (hcoded : AllCoded s)
    (hfit : bytesFor (bitSequence s.code (inputBytes s)).length ≤ s.obufCap.toNat) :
    ∃ p, exec .pack s = .next (storePacked p (clearPack s)) ∧ p.bcnt = (bitSequence s.code (inputBytes s)).length ∧
      p.sink.optr = bytesFor (bitSequence s.code (inputBytes s)).length ∧
      ∀ a, Memory.read? p.sink.obuf a =
        if a < bytesFor (bitSequence s.code (inputBytes s)).length then
          some (packedByte (bitSequence s.code (inputBytes s)) a)
        else Memory.read? s.obuf a := by
  obtain ⟨p, hp, hheld⟩ := (if_pos hfit).mp (packRun_spec (clearPack s) hcoded)
  refine ⟨p, ?_, hheld⟩
  rw [exec_pack_eq hfault hcode hin, packInto, hp, runFinish_ok]

/-- Settles O26: the packer holds the Packed Buffer, and the sizes of R4 keep BITLEN and OUT_LEN from wrapping. -/
theorem packWritesThePackedBuffer : Obligations.PackWritesThePackedBuffer := by
  unfold Obligations.PackWritesThePackedBuffer
  intro s hsizes hfault hcode hin hcoded hfit
  obtain ⟨p, hexec, hbcnt, hoptr, hobuf⟩ := exec_pack_packed hfault hcode hin hcoded hfit
  have hbitLen : (storePacked p (clearPack s)).bitLen.toNat = (bitSequence s.code (inputBytes s)).length := by
    rw [storePacked_bitLen, hbcnt, BitVec.toNat_ofNat, Nat.mod_eq_of_lt (lt_of_bytesFor_le hsizes hfit)]
  refine ⟨storePacked p (clearPack s), hexec, ?bitLen, ?outLen, ?obuf, rfl⟩
  case bitLen => rw [hbitLen, bitSequence_length]
  case outLen =>
    rw [hbitLen, storePacked_outLen, hoptr, BitVec.toNat_ofNat,
      Nat.mod_eq_of_lt (Nat.lt_of_le_of_lt hfit s.obufCap.isLt)]
  case obuf => rwa [hbitLen]

end Sys2Proof.Machine

/-!
PROOF of O18, O19 and O40. The Frequency Analyzer (spec 40_freq.md R100 to R102): FREQ past the fault gate is one equation, and
what it stores is the table of the input bytes, whose counts are the occurrences of each byte.
-/

namespace Sys2Proof.Machine

open Sys2Proof.Claims

variable {s : State}

/-! ### What FREQ answers (R100, R190) -/

/-- FREQ with no fault latched: the table of the input is stored, or IN_RANGE is raised after the clears. -/
theorem exec_freq_eq (hfault : s.status.fault = false) :
    exec .freq s =
      .next (if s.inLen.toNat ≤ s.ibufCap.toNat then storeFreq (frequencyTable (inputBytes s)) (clearFreq s)
        else raiseFault .inRange s.inLen (clearFreq s)) := by
  have hgate : exec .freq s = runFinish (freqBody s) := gated_of_no_fault freqBody hfault
  rw [hgate, freqBody_eq]
  split
  · exact runFinish_ok _
  · exact runFinish_raised _ _ _

theorem exec_freq_counts (hfault : s.status.fault = false) (hin : s.inLen.toNat ≤ s.ibufCap.toNat) :
    exec .freq s = .next (storeFreq (frequencyTable (inputBytes s)) (clearFreq s)) := by
  rw [exec_freq_eq hfault, if_pos hin]

/-! ### The counts, the alphabet and NSYM (R101) -/

/-- A property of input bytes, counted over the bytes, is counted over their indices. -/
theorem countP_inputBytes (p : Byte → Bool) (s : State) :
    (inputBytes s).countP p = ((List.range s.inLen.toNat).filter (fun i => p (ibufByte s i))).length := by
  rw [inputBytes, List.countP_map, List.countP_eq_length_filter]
  rfl

theorem mem_inputBytes {b : Byte} : b ∈ inputBytes s ↔ ∃ i < s.inLen.toNat, ibufByte s i = b := by
  simp [inputBytes]

/-- A symbol has a count exactly when it occurs: no count wraps to 0 (R11). -/
theorem freqAt_frequencyTable_ne_zero {bytes : List Byte} (h : bytes.length < 2 ^ 32) (x : Nat) :
    freqAt (frequencyTable bytes) x ≠ 0 ↔ ∃ b ∈ bytes, b.toNat = x := by
  calc freqAt (frequencyTable bytes) x ≠ 0
      ↔ bytes.countP (fun b => decide (b.toNat = x)) ≠ 0 := by
        rw [← freqAt_frequencyTable_toNat h]
        exact not_congr BitVec.toNat_inj.symm
    _ ↔ ∃ b ∈ bytes, b.toNat = x := by
        rw [← Nat.pos_iff_ne_zero, List.countP_pos_iff]
        simp only [decide_eq_true_eq]

/-- Only the empty buffer has an empty alphabet. -/
theorem alphabet_frequencyTable_eq_nil {bytes : List Byte} (h : bytes.length < 2 ^ 32) :
    alphabet (frequencyTable bytes) = [] ↔ bytes = [] := by
  constructor
  · intro hnone
    refine List.eq_nil_iff_forall_not_mem.2 fun b hb => ?_
    have hmem : b.toNat ∈ alphabet (frequencyTable bytes) :=
      mem_alphabet.2 ⟨b.isLt, (freqAt_frequencyTable_ne_zero h _).2 ⟨b, hb, rfl⟩⟩
    rw [hnone] at hmem
    exact List.not_mem_nil hmem
  · rintro rfl
    exact List.eq_nil_iff_forall_not_mem.2 fun x hx => (mem_alphabet.1 hx).2 rfl

/-- NSYM holds N: at most 256 symbols are counted, so it does not wrap. -/
theorem storeFreq_nsym_toNat (f : List (Nat × Word)) (s : State) : (storeFreq f s).nsym.toNat = symbolCount f := by
  have hle := alphabet_length_le f
  rw [storeFreq_nsym, BitVec.toNat_ofNat, symbolCount_eq]
  exact Nat.mod_eq_of_lt (by omega)

theorem nsym_frequencyTable_eq_zero (s u : State) :
    (storeFreq (frequencyTable (inputBytes s)) u).nsym = 0 ↔ s.inLen = 0 := by
  calc (storeFreq (frequencyTable (inputBytes s)) u).nsym = 0
      ↔ symbolCount (frequencyTable (inputBytes s)) = 0 := by
        rw [← storeFreq_nsym_toNat _ u]
        exact BitVec.toNat_inj.symm
    _ ↔ inputBytes s = [] := by
        rw [symbolCount_eq, List.length_eq_zero_iff, alphabet_frequencyTable_eq_nil (inputBytes_length_lt s)]
    _ ↔ s.inLen = 0 := by
        rw [← List.length_eq_zero_iff, inputBytes_length]
        exact BitVec.toNat_inj (y := 0)

/-- Settles O18: what is stored is the table of the input bytes, fewer than 2^32 of them. -/
theorem freqCountsEveryByte : Obligations.FreqCountsEveryByte := by
  unfold Obligations.FreqCountsEveryByte
  intro s hfault hin
  have hlen := inputBytes_length_lt s
  refine ⟨_, exec_freq_counts hfault hin, ?counts, ?sum, nsym_frequencyTable_eq_zero s _, ?alphabet,
    storeFreq_nsym_toNat _ _, rfl⟩
  case counts =>
    intro x _
    rw [storeFreq_freq, freqAt_frequencyTable_toNat hlen, countP_inputBytes]
  case sum =>
    rw [storeFreq_freq, ← countSum_eq_range (tableWf_frequencyTable _), countSum_frequencyTable hlen, inputBytes_length]
  case alphabet =>
    intro x _
    rw [storeFreq_freq, freqAt_frequencyTable_ne_zero hlen]
    simp [mem_inputBytes]

/-! ### What FREQ reads (R102) -/

theorem inputBytes_congr {s s' : State} (hlen : s.inLen = s'.inLen)
    (hbytes : ∀ i < s.inLen.toNat, ibufByte s i = ibufByte s' i) : inputBytes s = inputBytes s' := by
  unfold inputBytes
  rw [← hlen]
  exact List.map_congr_left fun i hi => hbytes i (List.mem_range.1 hi)

/-- Settles O19: both cores store the table of the same bytes. -/
theorem freqDependsOnTheInputAlone : Obligations.FreqDependsOnTheInputAlone := by
  unfold Obligations.FreqDependsOnTheInputAlone
  intro s s' hfault hfault' hlen hcap hin hbytes
  have hin' : s'.inLen.toNat ≤ s'.ibufCap.toNat := by rwa [← hlen, ← hcap]
  refine ⟨_, _, exec_freq_counts hfault hin, exec_freq_counts hfault' hin', ?_⟩
  rw [inputBytes_congr hlen hbytes]
  exact ⟨rfl, rfl⟩

/-! ### What FREQ leaves (R100, R196) -/

/-- Settles O40: the gate answers the state itself, and past it FREQ clears, then stores or latches IN_RANGE. -/
theorem freqFrame : Obligations.FreqFrame := by
  unfold Obligations.FreqFrame
  intro s t hnext
  cases hfault : s.status.fault with
  | true =>
    have hgate : exec .freq s = .next s := gated_of_fault freqBody hfault
    cases hgate.symm.trans hnext
    exact ⟨⟨fun _ => rfl, fun _ => rfl⟩, fun _ => ⟨rfl, rfl⟩, rfl⟩
  | false =>
    rw [exec_freq_eq hfault] at hnext
    split at hnext
    next =>
      cases hnext
      exact ⟨⟨fun _ => rfl, fun _ => rfl⟩, fun _ => ⟨rfl, rfl⟩, rfl⟩
    next =>
      cases hnext
      refine ⟨⟨fun _ => rfl, fun _ => rfl⟩, fun hsame => ?_, rfl⟩
      have hlatched : true = s.status.fault := hsame
      rw [hfault] at hlatched
      cases hlatched

end Sys2Proof.Machine

/-!
PROOF of O22, O20, O21, O23, O41 and O46. The Tree Builder (spec 41_build.md R110 to R117): BUILD past the fault gate is one
equation, what it stores is the tree of the frequency table, and only four commands and a reset touch the tree.
-/

namespace Sys2Proof.Machine

open Sys2Proof.Claims

variable {s t : State}

/-! ### What BUILD answers (R110, R188) -/

/-- BUILD with no fault latched: the tree of the table is stored, or MISSING_STATE is raised after the clears. -/
theorem exec_build_eq (hfault : s.status.fault = false) :
    exec .build s =
      .next (if s.status.freqValid then storeTree (clearTree s) else raiseFault .missingState 0 (clearTree s)) := by
  have hgate : exec .build s = runFinish (buildBody s) := gated_of_no_fault buildBody hfault
  rw [hgate, buildBody_eq]
  split
  · exact runFinish_ok _
  · exact runFinish_raised _ _ _

theorem exec_build_stores (hfault : s.status.fault = false) (hfreq : s.status.freqValid = true) :
    exec .build s = .next (storeTree (clearTree s)) := by
  rw [exec_build_eq hfault, if_pos hfreq]

/-! ### The tree of a table (R111 to R116) -/

theorem nodeAt_nil (i : Nat) : nodeAt [] i = Node.emptyRecord := rfl

/-- A table of no counts has no symbols. -/
theorem alphabet_eq_nil {f : List (Nat × Word)} (h : ∀ x < 256, freqAt f x = 0) : alphabet f = [] :=
  List.eq_nil_iff_forall_not_mem.2 fun x hx => (mem_alphabet.1 hx).2 (h x (mem_alphabet.1 hx).1)

/-- A table with one count has one symbol. -/
theorem alphabet_eq_singleton {f : List (Nat × Word)} {x : Nat} (hx : x < 256) (hfx : freqAt f x ≠ 0)
    (halone : ∀ y < 256, y ≠ x → freqAt f y = 0) : alphabet f = [x] := by
  refine sorted_ext (alphabet_sorted f) (List.pairwise_singleton _ _) fun y => ?_
  rw [mem_alphabet, List.mem_singleton]
  constructor
  · rintro ⟨hy, hfy⟩
    by_contra hne
    exact hfy (halone y hy hne)
  · rintro rfl
    exact ⟨hx, hfx⟩

/-- The leaves are made of the counts of the 256 symbols alone. -/
theorem leaves_congr {f f' : List (Nat × Word)} (h : ∀ x < 256, freqAt f x = freqAt f' x) : leaves f = leaves f' :=
  table_ext (tableWf_leaves f) (tableWf_leaves f') fun i => by
    change nodeAt (leaves f) i = nodeAt (leaves f') i
    rw [nodeAt_leaves, nodeAt_leaves]
    by_cases hi : i < 256
    · simp only [leafNode, h i hi]
    · simp only [hi, false_and, if_false]

/-- So is the tree (R114). -/
theorem treeOf_congr {f f' : List (Nat × Word)} (h : ∀ x < 256, freqAt f x = freqAt f' x) : treeOf f = treeOf f' := by
  have halphabet : alphabet f' = alphabet f := (alphabet_congr h).symm
  unfold treeOf
  rw [halphabet, leaves_congr h]
  match hal : alphabet f with
  | [] => rfl
  | [x] =>
    have hx : x < 256 := (mem_alphabet.1 (hal ▸ List.mem_singleton.2 rfl : x ∈ alphabet f)).1
    simp only [h x hx]
  | _ :: _ :: _ => rfl

/-- Settles O22: the merge loop ends with N - 1 merges made. -/
theorem buildMergesTheTwoLightest : Obligations.BuildMergesTheTwoLightest := by
  unfold Obligations.BuildMergesTheTwoLightest
  intro s hfault hfreq hcount
  obtain ⟨n, hn⟩ := Nat.exists_eq_add_of_le' hcount
  have hlen : (alphabet s.freq).length = n + 2 := hn
  obtain ⟨hmerging, hroot⟩ := treeOf_merged hlen
  refine ⟨_, exec_build_stores hfault hfreq, hmerging.leaf, ?merges, ?empty, ?frame⟩
  case merges =>
    intro k hk
    exact hmerging.merged k (by omega)
  case empty =>
    intro i hi
    exact hmerging.empty i (by omega)
  case frame =>
    have hidx : 256 + symbolCount s.freq - 2 = 256 + n := by omega
    have hdegen : degenOf (alphabet s.freq).length = false := by simp [degenOf, hlen]
    simp only [storeTree, clearTree, hroot, hidx, hdegen]

/-- Settles O20: the alphabet is empty, so the tree is. -/
theorem buildOfAnEmptyTable : Obligations.BuildOfAnEmptyTable := by
  unfold Obligations.BuildOfAnEmptyTable
  intro s hfault hfreq hnone
  have halphabet := alphabet_eq_nil hnone
  have htree := treeOf_empty halphabet
  refine ⟨_, exec_build_stores hfault hfreq, fun i => ?slots, ?frame⟩
  case slots =>
    rw [storeTree_node, clearTree_freq, htree]
    exact nodeAt_nil i
  case frame =>
    simp only [storeTree, clearTree, htree, halphabet, degenOf, Root.zero]
    rfl

/-- Settles O21: the tree of a single symbol has three slots. -/
theorem buildOfASingleSymbol : Obligations.BuildOfASingleSymbol := by
  unfold Obligations.BuildOfASingleSymbol
  intro s x hfault hfreq hx hfx halone
  have halphabet := alphabet_eq_singleton hx hfx halone
  obtain ⟨hnodes, hroot⟩ := treeOf_single halphabet
  have hslot : ∀ i, nodeAt (storeTree (clearTree s)).node i =
      if x = i then leafNode s.freq x
      else if 256 = i then internalNode (freqAt s.freq x) x 511
      else if 511 = i then unusedNode else Node.emptyRecord := by
    intro i
    rw [storeTree_node, clearTree_freq, hnodes]
    simp only [nodeAt, tableGet, cellFind]
    split_ifs <;> rfl
  refine ⟨_, exec_build_stores hfault hfreq, ?leaf, ?root, ?unused, fun i hix hi256 hi511 => ?empty, ?frame⟩
  case leaf => rw [hslot, if_pos rfl, leafNode]
  case root =>
    rw [hslot, if_neg (by omega), if_pos rfl]
    rfl
  case unused =>
    rw [hslot, if_neg (by omega), if_neg (by decide), if_pos rfl]
    rfl
  case empty =>
    rw [hslot, if_neg (Ne.symm hix), if_neg (Ne.symm hi256), if_neg (Ne.symm hi511)]
    rfl
  case frame =>
    simp only [storeTree, clearTree, hroot, halphabet, degenOf]
    rfl

/-- Settles O23: both cores store the tree of the same counts. -/
theorem buildDependsOnTheTableAlone : Obligations.BuildDependsOnTheTableAlone := by
  unfold Obligations.BuildDependsOnTheTableAlone
  intro s s' hfault hfault' hfreq hfreq' hsame
  have htree : treeOf s.freq = treeOf s'.freq := treeOf_congr hsame
  refine ⟨_, _, exec_build_stores hfault hfreq, exec_build_stores hfault' hfreq', fun i => ?nodes, ?root, ?degen⟩
  case nodes => simp only [storeTree_node, clearTree_freq, htree]
  case root => simp only [storeTree_root, clearTree_freq, htree]
  case degen => simp only [storeTree_status, clearTree_freq, alphabet_congr hsame]

/-! ### What BUILD and GENCODE leave (R110, R130, R196) -/

/-- Latching a fault where none was latched: FAULT differs, so the exception registers may. -/
theorem faultRegistersKept_raiseFault (hfault : s.status.fault = false) (c : FaultCode) (i : Word) (u : State) :
    FaultRegistersKept s (raiseFault c i u) := by
  intro hsame
  rw [hfault] at hsame
  cases hsame

/-- GENCODE with no fault latched: the code table is stored, or MISSING_STATE is raised after the clear. -/
theorem exec_gencode_eq_next (hfault : s.status.fault = false) (h : exec .gencode s = .next t) :
    (s.status.treeValid = true ∧ ∃ code, codeTable s.node s.root = some code ∧ t = storeCode code (clearCode s)) ∨
      (s.status.treeValid = false ∧ t = raiseFault .missingState 1 (clearCode s)) := by
  have hgate : exec .gencode s = runFinish (gencodeBody s) := gated_of_no_fault gencodeBody hfault
  rw [hgate, gencodeBody_eq] at h
  cases htree : s.status.treeValid with
  | false =>
    rw [htree] at h
    cases h
    exact Or.inr ⟨rfl, rfl⟩
  | true =>
    rw [htree, if_pos rfl, generate, clearCode_node, clearCode_root] at h
    cases hcode : codeTable s.node s.root with
    | none =>
      rw [hcode] at h
      cases h
    | some code =>
      rw [hcode] at h
      cases h
      exact Or.inl ⟨rfl, code, rfl, rfl⟩

/-- A command past the closed gate leaves the state as it is (R197). -/
theorem eq_of_gated {body : State → Run State} (hfault : s.status.fault = true) (h : gated body s = .next t) : t = s := by
  rw [gated_of_fault body hfault] at h
  cases h
  rfl

/-- Settles O41: the gate answers the state itself; past it the command clears, then stores or latches MISSING_STATE. -/
theorem buildAndGencodeFrame : Obligations.BuildAndGencodeFrame := by
  unfold Obligations.BuildAndGencodeFrame
  refine ⟨fun s t hnext => ?build, fun s t hnext => ?gencode⟩
  case build =>
    cases hfault : s.status.fault with
    | true =>
      cases eq_of_gated (body := buildBody) hfault hnext
      exact ⟨⟨fun _ => rfl, fun _ => rfl⟩, fun _ => ⟨rfl, rfl⟩, rfl⟩
    | false =>
      rw [exec_build_eq hfault] at hnext
      split at hnext
      next =>
        cases hnext
        exact ⟨⟨fun _ => rfl, fun _ => rfl⟩, fun _ => ⟨rfl, rfl⟩, rfl⟩
      next =>
        cases hnext
        exact ⟨⟨fun _ => rfl, fun _ => rfl⟩, faultRegistersKept_raiseFault hfault _ _ _, rfl⟩
  case gencode =>
    cases hfault : s.status.fault with
    | true =>
      cases eq_of_gated (body := gencodeBody) hfault hnext
      exact ⟨⟨fun _ => rfl, fun _ => rfl⟩, fun _ => ⟨rfl, rfl⟩, rfl⟩
    | false =>
      rcases exec_gencode_eq_next hfault hnext with ⟨-, code, -, rfl⟩ | ⟨-, rfl⟩
      · exact ⟨⟨fun _ => rfl, fun _ => rfl⟩, fun _ => ⟨rfl, rfl⟩, rfl⟩
      · exact ⟨⟨fun _ => rfl, fun _ => rfl⟩, faultRegistersKept_raiseFault hfault _ _ _, rfl⟩

/-! ### What touches the tree (R117) -/

/-- `t` holds the tree of `s`: NODE, ROOT, TREE_VALID and DEGEN. -/
def TreeKept (s t : State) : Prop :=
  t.node = s.node ∧ t.root = s.root ∧ t.status.treeValid = s.status.treeValid ∧ t.status.degen = s.status.degen

theorem TreeKept.refl (s : State) : TreeKept s s := ⟨rfl, rfl, rfl, rfl⟩

theorem freqBody_leaves_tree (h : TreeKept s t) : (freqBody t).Leaves (TreeKept s) :=
  runThen_leaves (require_leaves (s := clearFreq t) h _ _ _) fun _ hu => hu

theorem generate_leaves_tree (h : TreeKept s t) : (generate t).Leaves (TreeKept s) := by
  unfold generate
  split
  · exact Run.leaves_stopped _
  · exact h

theorem gencodeBody_leaves_tree (h : TreeKept s t) : (gencodeBody t).Leaves (TreeKept s) :=
  runThen_leaves (require_leaves (s := clearCode t) h _ _ _) fun _ => generate_leaves_tree

theorem packBody_leaves_tree (h : TreeKept s t) : (packBody t).Leaves (TreeKept s) :=
  runThen_leaves (require_leaves (s := clearPack t) h _ _ _) fun _ hu =>
    runThen_leaves (require_leaves hu _ _ _) fun _ hv => packInto_leaves (fun _ _ => hv) (fun _ _ _ _ => hv)

theorem unpackBody_leaves_tree (h : TreeKept s t) : (unpackBody t).Leaves (TreeKept s) :=
  runThen_leaves (require_leaves (s := clearUnpack t) h _ _ _) fun _ hu =>
    runThen_leaves (require_leaves hu _ _ _) fun _ hv =>
      runThen_leaves (require_leaves hv _ _ _) fun _ hw =>
        runThen_leaves (require_leaves hw _ _ _) fun _ hx => walkInto_leaves (fun _ _ => hx) (fun _ _ _ _ => hx)

theorem gated_keeps_tree {body : State → Run State} (hbody : (body s).Leaves (TreeKept s)) (h : gated body s = .next t) :
    TreeKept s t :=
  gated_keeps (fun _ _ _ hu => hu) (TreeKept.refl s) hbody h

/-- The commands that may change or invalidate the tree (R117). -/
def TouchesTree (i : Instr) : Prop := i = .build ∨ i = .compress ∨ i = .discard ∨ i = .rst

/-- No other command does. -/
theorem exec_keeps_tree {i : Instr} (hi : ¬TouchesTree i) (h : exec i s = .next t) : TreeKept s t := by
  have hs := TreeKept.refl s
  cases i with
  | nop => cases h; exact hs
  | freq => exact gated_keeps_tree (freqBody_leaves_tree hs) h
  | gencode => exact gated_keeps_tree (gencodeBody_leaves_tree hs) h
  | pack => exact gated_keeps_tree (packBody_leaves_tree hs) h
  | unpack => exact gated_keeps_tree (unpackBody_leaves_tree hs) h
  | build => exact absurd (Or.inl rfl) hi
  | compress => exact absurd (Or.inr (Or.inl rfl)) hi
  | discard => exact absurd (Or.inr (Or.inr (Or.inl rfl))) hi
  | rst => exact absurd (Or.inr (Or.inr (Or.inr rfl))) hi

theorem illegalCommand_keeps_tree (word : Word) (s : State) : TreeKept s (illegalCommand word s) := by
  unfold illegalCommand
  split <;> exact TreeKept.refl s

theorem issueCommand_keeps_tree {word : Word} (hword : ∀ i, word = encode i → ¬TouchesTree i)
    (h : issueCommand word s = .next t) : TreeKept s t := by
  unfold issueCommand at h
  split at h
  next i hdec => exact exec_keeps_tree (hword i (encode_of_decode hdec)) h
  next =>
    cases h
    exact illegalCommand_keeps_tree word s

/-- A host write keeps the tree, unless it writes the word of one of the four commands to CMD. -/
theorem hostWrite_keeps_tree {space : Space} {index v : Word}
    (hcmd : ∀ i, space = .reg → index = 0 → v = encode i → ¬TouchesTree i) (h : hostWrite space index v s = .next t) :
    TreeKept s t := by
  by_cases hreg : space = .reg ∧ index = 0
  · obtain ⟨rfl, rfl⟩ := hreg
    exact issueCommand_keeps_tree (fun i => hcmd i rfl rfl) h
  · have hframe := hostWrite_frame hreg h
    rw [hframe]
    exact TreeKept.refl s

/-- Settles O46: of the accesses a step serves, only a reset and the four commands touch the tree. -/
theorem onlyFourCommandsTouchTheTree : Obligations.OnlyFourCommandsTouchTheTree := by
  unfold Obligations.OnlyFourCommandsTouchTheTree
  intro s t hnext hreset hcommand
  change TreeKept s t
  match hport : s.port with
  | [] =>
    rw [step, hport] at hnext
    cases hnext
    exact TreeKept.refl s
  | a :: rest =>
    rw [step_of_port hport] at hnext
    have hkept : TreeKept { s with port := rest } t := by
      cases a with
      | read space index => cases hnext; exact TreeKept.refl s
      | reset => exact absurd hport (hreset rest)
      | write space index v =>
        refine hostWrite_keeps_tree (fun i hspace hindex hv htouches => ?_) hnext
        subst hspace hindex hv
        obtain ⟨hbuild, hcompress, hdiscard, hrst⟩ := hcommand i rest hport
        rcases htouches with h | h | h | h
        · exact hbuild h
        · exact hcompress h
        · exact hdiscard h
        · exact hrst h
    exact hkept

end Sys2Proof.Machine

/-!
PROOF of O59. Huffman code lengths (spec 41_build.md R118): whatever is removed from the collection comes before all that is
left in it, so of two nodes the later one in the order of R114 stands no deeper in the tree.
-/

namespace Sys2Proof.Machine

open Sys2Proof.Claims

/-! ### The order of the collection (R114) -/

theorem before_iff_toNat {nodes : List (Nat × Node)} {x y : Nat} :
    Before nodes x y ↔ (nodeAt nodes x).weight.toNat < (nodeAt nodes y).weight.toNat ∨
      ((nodeAt nodes x).weight.toNat = (nodeAt nodes y).weight.toNat ∧ x < y) := by
  simp only [Before, BitVec.lt_def, BitVec.toNat_inj]

theorem before_asymm {nodes : List (Nat × Node)} {x y : Nat} (h : Before nodes x y) : ¬Before nodes y x := by
  rw [before_iff_toNat] at h ⊢
  omega

theorem weight_le_of_before {nodes : List (Nat × Node)} {x y : Nat} (h : Before nodes x y) :
    (nodeAt nodes x).weight.toNat ≤ (nodeAt nodes y).weight.toNat := by
  rw [before_iff_toNat] at h
  omega

/-! ### What is removed comes before what is left (R112, R114) -/

/-- `x` is a child of the node of merge `j`. -/
def ChildOfMerge (nodes : List (Nat × Node)) (j x : Nat) : Prop :=
  (nodeAt nodes (256 + j)).left.toNat = x ∨ (nodeAt nodes (256 + j)).right.toNat = x

/-- Before merge k + 1 the collection holds the node of merge k and what merge k left. -/
theorem inCollection_succ {nodes : List (Nat × Node)} {k z : Nat} (h : InCollection nodes (k + 1) z) :
    z = 256 + k ∨ (InCollection nodes k z ∧ ¬ChildOfMerge nodes k z) := by
  obtain ⟨hkind, hchildren⟩ := h
  by_cases hz : z = 256 + k
  · exact Or.inl hz
  · refine Or.inr ⟨⟨hkind.imp_right fun hk => by omega, fun j hj => hchildren j (by omega)⟩, ?_⟩
    obtain ⟨hleft, hright⟩ := hchildren k (by omega)
    exact not_or_intro hleft hright

section Merges

variable {f : List (Nat × Word)} {n : Nat} {nodes : List (Nat × Node)} {active : List Nat} (h : Merging f n nodes active)

include h

theorem inCollection_of_child {j x : Nat} (hj : j < n) (hx : ChildOfMerge nodes j x) :
    InCollection nodes j x := by
  obtain ⟨-, -, hleft, hright, -⟩ := h.merged j hj
  rcases hx with rfl | rfl
  · exact hleft
  · exact hright

/-- A merge removes the two least members of the collection. -/
theorem child_before_rest {j x z : Nat} (hj : j < n) (hx : ChildOfMerge nodes j x)
    (hz : InCollection nodes j z) (hrest : ¬ChildOfMerge nodes j z) : Before nodes x z := by
  obtain ⟨-, -, -, -, -, hleft, hright, -⟩ := h.merged j hj
  obtain ⟨hzl, hzr⟩ := not_or.1 hrest
  rcases hx with rfl | rfl
  · exact hleft z hz (Ne.symm hzl)
  · exact hright z hz (Ne.symm hzl) (Ne.symm hzr)

variable (hsum : ((alphabet f).map (fun x => (freqAt f x).toNat)).sum < 2 ^ 32)

include hsum

/-- A child comes before its parent: no weight is larger than a sum it is part of, and its slot is below. -/
theorem child_before_parent {j x : Nat} (hj : j < n) (hx : ChildOfMerge nodes j x) : Before nodes x (256 + j) := by
  have hslot := lt_of_inCollection (inCollection_of_child h hj hx)
  have hweight := h.exact hsum j hj
  rw [before_iff_toNat]
  rcases hx with rfl | rfl <;> omega

/-- Whatever a merge removed comes before all that any later collection holds. -/
theorem child_before_collection {i x : Nat} (hx : ChildOfMerge nodes i x) {k : Nat} (hik : i < k) (hk : k ≤ n) {z : Nat}
    (hz : InCollection nodes k z) : Before nodes x z := by
  induction k generalizing z with
  | zero => omega
  | succ k ih =>
    rcases Nat.lt_succ_iff_lt_or_eq.1 hik with hlt | rfl
    · rcases inCollection_succ hz with rfl | ⟨hz, -⟩
      · have hleft : ChildOfMerge nodes k (nodeAt nodes (256 + k)).left.toNat := Or.inl rfl
        exact before_trans (ih hlt (by omega) (inCollection_of_child h hk hleft)) (child_before_parent h hsum hk hleft)
      · exact ih hlt (by omega) hz
    · rcases inCollection_succ hz with rfl | ⟨hz, hrest⟩
      · exact child_before_parent h hsum hk hx
      · exact child_before_rest h hk hx hz hrest

/-- So the weights of the merges never fall. -/
theorem merge_before_later_merge {i j : Nat} (hij : i < j) (hj : j < n) : Before nodes (256 + i) (256 + j) := by
  have hleft := weight_le_of_before (child_before_collection h hsum (x := (nodeAt nodes (256 + i)).left.toNat)
    (Or.inl rfl) hij (by omega) (inCollection_of_child h hj (Or.inl rfl)))
  have hright := weight_le_of_before (child_before_collection h hsum (x := (nodeAt nodes (256 + i)).right.toNat)
    (Or.inr rfl) hij (by omega) (inCollection_of_child h hj (Or.inr rfl)))
  have hi := h.exact hsum i (by omega)
  have hj := h.exact hsum j hj
  rw [before_iff_toNat]
  omega

end Merges

/-! ### Depths in the tree (R113, R118) -/

/-- A path that is not empty ends with a step from an internal node to its child. -/
theorem descend_concat {nodes : List (Nat × Node)} {n x : NodeIdx} {p : List Bool} {b : Bool} :
    descend nodes n (p ++ [b]) = some x ↔
      ∃ m, descend nodes n p = some m ∧ (nodeAt nodes m.toNat).kind = .internal ∧ childOf (nodeAt nodes m.toNat) b = x := by
  rw [descend_append, Option.bind_eq_some_iff]
  simp only [descend, Option.ite_none_right_eq_some, Option.some.injEq]

theorem descend_concat_merge {f : List (Nat × Word)} {n : Nat} {nodes : List (Nat × Node)} {active : List Nat}
    (h : Merging f n nodes active) {root x : NodeIdx} {p : List Bool} {b : Bool}
    (hp : descend nodes root (p ++ [b]) = some x) :
    ∃ m : NodeIdx, ∃ j < n, descend nodes root p = some m ∧ m.toNat = 256 + j ∧ ChildOfMerge nodes j x.toNat := by
  obtain ⟨m, hm, hkind, hchild⟩ := descend_concat.1 hp
  obtain ⟨j, hj, hslot⟩ := (merging_internal h m.toNat).1 hkind
  refine ⟨m, j, hj, hm, hslot, ?_⟩
  rw [ChildOfMerge, ← hslot, ← hchild]
  cases b
  · exact Or.inl rfl
  · exact Or.inr rfl

/-- A node that does not come before another in the order of R114 stands no deeper. -/
theorem path_length_le_of_not_before {f : List (Nat × Word)} {n : Nat} {nodes : List (Nat × Node)} {root : NodeIdx}
    (h : Merging f n nodes [root.toNat]) (hsum : ((alphabet f).map (fun x => (freqAt f x).toNat)).sum < 2 ^ 32)
    {p q : List Bool} {x y : NodeIdx} (hp : descend nodes root p = some x) (hq : descend nodes root q = some y)
    (hxy : ¬Before nodes x.toNat y.toNat) : p.length ≤ q.length := by
  induction p using List.reverseRecOn generalizing q x y with
  | nil => exact Nat.zero_le _
  | append_singleton p b ih =>
    obtain ⟨x', i, hi, hx', hxi, hx⟩ := descend_concat_merge h hp
    have hlast : ∀ k, k ≤ n → InCollection nodes k y.toNat → k ≤ i := fun k hk hy =>
      Nat.le_of_not_lt fun hik => hxy (child_before_collection h hsum hx hik hk hy)
    cases q using List.reverseRecOn with
    | nil =>
      have hy : root = y := Option.some.inj hq
      have hroot := hlast n (Nat.le_refl n) ((h.mem _).1 (hy ▸ List.mem_singleton_self _))
      omega
    | append_singleton q c =>
      obtain ⟨y', j, hj, hy', hyj, hy⟩ := descend_concat_merge h hq
      have hji : j ≤ i := hlast j hj.le (inCollection_of_child h hj hy)
      have hparents : ¬Before nodes x'.toNat y'.toNat := by
        rw [hxi, hyj]
        rcases hji.lt_or_eq with hlt | rfl
        · exact before_asymm (merge_before_later_merge h hsum hlt hi)
        · exact fun hb => before_asymm hb hb
      rw [List.length_append, List.length_append]
      exact Nat.add_le_add_right (ih hx' hy' hparents) 1

/-! ### Code lengths (R118) -/

/-- A slot is a 9-bit number (R5). -/
theorem slot_toNat {x : Nat} (hx : x < 512) : (BitVec.ofNat 9 x).toNat = x := by
  rw [BitVec.toNat_ofNat]
  exact Nat.mod_eq_of_lt hx

/-- What BUILD and GENCODE leave under the invariant: the tree of the counts, which cannot wrap, and its code table. -/
theorem built_and_coded {s t u : State} (hinv : Inv s) (hfault : s.status.fault = false)
    (hfreq : s.status.freqValid = true) (hbuild : exec .build s = .next t) (hgencode : exec .gencode t = .next u) :
    ((alphabet s.freq).map (fun x => (freqAt s.freq x).toNat)).sum < 2 ^ 32 ∧
      tableWf Code.noCode Config.symbols u.code ∧ CodeOk (treeOf s.freq).1 (treeOf s.freq).2 u.code := by
  obtain ⟨-, ⟨-, -, hfreqWf, -⟩, ⟨-, -, hcounts, -⟩, -⟩ := hinv
  have hsum : ((alphabet s.freq).map (fun x => (freqAt s.freq x).toNat)).sum < 2 ^ 32 := by
    rw [← countSum_eq hfreqWf]
    exact (hcounts hfreq).2.trans_lt s.ibufCap.isLt
  obtain ⟨hnodeWf, htree, -⟩ := treeOf_ok hsum
  obtain ⟨code, hcode, hcodeWf, hok⟩ := codeTable_ok hnodeWf htree
  rw [exec_build_stores hfault hfreq] at hbuild
  cases hbuild
  rcases exec_gencode_eq_next (s := storeTree (clearTree s)) hfault hgencode with ⟨-, code', hcode', rfl⟩ | ⟨hnone, -⟩
  · cases hcode.symm.trans hcode'
    exact ⟨hsum, hcodeWf, hok⟩
  · cases hnone

/-- Two symbols are enough for merges (R110). -/
theorem exists_length_of_two_symbols {f : List (Nat × Word)} {x y : Nat} (hx : x ∈ alphabet f) (hy : y ∈ alphabet f)
    (hne : x ≠ y) : ∃ n, (alphabet f).length = n + 2 := by
  match hal : alphabet f with
  | [] => rw [hal] at hx; cases hx
  | [z] =>
    rw [hal, List.mem_singleton] at hx hy
    exact absurd (hx.trans hy.symm) hne
  | _ :: _ :: rest => exact ⟨rest.length, rfl⟩

/-- The path of a symbol is as long as its code, and leads to its leaf (R132). -/
theorem code_path {f : List (Nat × Word)} {root : Root} {nodes : List (Nat × Node)} {code : List (Nat × Code)}
    (hnodeWf : tableWf Node.emptyRecord Config.nodeSlots nodes) (hleaves : leafSlots nodes = alphabet f)
    (hcodeWf : tableWf Code.noCode Config.symbols code) (hok : CodeOk nodes root code) {x : Nat} (hx : x ∈ alphabet f) :
    ∃ p, p.length = (codeAt code x).len.toNat ∧ descend nodes root.idx p = some (BitVec.ofNat 9 x) := by
  have hkind : (nodeAt nodes x).kind = .leaf := (mem_leafSlots_iff hnodeWf).1 (hleaves ▸ hx)
  obtain ⟨-, -, -, hpath⟩ := codeOk_at hok ((codeOk_valid_iff hnodeWf hcodeWf hok x).2 hkind)
  exact ⟨(codeAt code x).sequence, sequence_length _, hpath⟩

/-- Settles O59: the leaf of the more frequent symbol comes later in the order of R114, so its path is not longer. -/
theorem moreFrequentSymbolsHaveNoLongerCodes : Obligations.MoreFrequentSymbolsHaveNoLongerCodes := by
  unfold Obligations.MoreFrequentSymbolsHaveNoLongerCodes
  intro s t u hinv hfault hfreq hbuild hgencode a b hb hab
  obtain ⟨hsum, hcodeWf, hok⟩ := built_and_coded hinv hfault hfreq hbuild hgencode
  have ha : freqAt s.freq a.toNat ≠ 0 := fun h0 => by
    rw [h0] at hab
    exact absurd hab (by simp)
  have hamem : a.toNat ∈ alphabet s.freq := mem_alphabet.2 ⟨a.isLt, ha⟩
  have hbmem : b.toNat ∈ alphabet s.freq := mem_alphabet.2 ⟨b.isLt, hb⟩
  obtain ⟨n, hn⟩ := exists_length_of_two_symbols hamem hbmem fun he => by
    rw [he] at hab
    exact absurd hab (by simp)
  have hle := alphabet_length_le s.freq
  obtain ⟨hmerging, hroot⟩ := treeOf_merged hn
  obtain ⟨hnodeWf, -, hleaves⟩ := treeOf_ok hsum
  obtain ⟨p, hplen, hp⟩ := code_path hnodeWf hleaves hcodeWf hok hamem
  obtain ⟨q, hqlen, hq⟩ := code_path hnodeWf hleaves hcodeWf hok hbmem
  have hidx : (treeOf s.freq).2.idx.toNat = 256 + n := by
    rw [hroot]
    exact slot_toNat (by omega)
  have hslot : ∀ c : Byte, (BitVec.ofNat 9 c.toNat).toNat = c.toNat := fun c => slot_toNat (c.isLt.trans (by decide))
  have hweight : ∀ c : Byte, freqAt s.freq c.toNat ≠ 0 →
      (nodeAt (treeOf s.freq).1 c.toNat).weight = freqAt s.freq c.toNat := fun c hc => by
    rw [hmerging.leaf c.toNat c.isLt, if_neg hc, leafNode]
  have hlater : Before (treeOf s.freq).1 b.toNat a.toNat := Or.inl (by rwa [hweight a ha, hweight b hb])
  rw [← hidx] at hmerging
  have hpq := path_length_le_of_not_before hmerging hsum hp hq (by
    rw [hslot, hslot]
    exact before_asymm hlater)
  rw [BitVec.le_def, ← hplen, ← hqlen]
  exact hpq

end Sys2Proof.Machine

/-!
PROOF of O60. The encoded length (spec 41_build.md R113, 43_pack.md R143): in a tree of R44 every slot but the root's is the
child of one internal node, so a sum over all slots is the root's part and a sum over the children. Taken of the weights this
gives the weight of the root, taken of weight times depth it gives the sum of the internal weights.
-/

namespace Sys2Proof.Machine

open Sys2Proof.Claims

/-! ### Sums over the slots of a tree (R44) -/

/-- The internal nodes of a tree, with their slots. -/
def internalNodes (nodes : List (Nat × Node)) : List (Nat × Node) :=
  nodes.filter (fun c => decide (c.2.kind = .internal))

theorem mem_internalNodes {nodes : List (Nat × Node)} {c : Nat × Node} :
    c ∈ internalNodes nodes ↔ c ∈ nodes ∧ c.2.kind = .internal := by
  rw [internalNodes, List.mem_filter, decide_eq_true_eq]

/-- The children of a record, if it is an internal node. -/
def childPair (c : Nat × Node) : List Nat := if c.2.kind = .internal then [c.2.left.toNat, c.2.right.toNat] else []

theorem childSlots_eq (nodes : List (Nat × Node)) : childSlots nodes = nodes.flatMap childPair := rfl

theorem childOf_mem_childPair {c : Nat × Node} (hc : c.2.kind = .internal) (b : Bool) :
    (childOf c.2 b).toNat ∈ childPair c := by
  rw [childPair, if_pos hc, List.mem_pair]
  cases b
  · exact Or.inl rfl
  · exact Or.inr rfl

theorem sum_childSlots (g : Nat → Nat) (nodes : List (Nat × Node)) :
    ((childSlots nodes).map g).sum = ((internalNodes nodes).map (fun c => g c.2.left.toNat + g c.2.right.toNat)).sum := by
  induction nodes with
  | nil => rfl
  | cons c rest ih =>
    rw [childSlots_eq, List.flatMap_cons, ← childSlots_eq, List.map_append, List.sum_append, ih]
    by_cases hk : c.2.kind = .internal <;> simp [internalNodes, childPair, hk]

/-- A sum over all slots, when it counts nothing but leaves and internal nodes. -/
theorem sum_slots (g : Nat → Nat) (nodes : List (Nat × Node))
    (hg : ∀ c ∈ nodes, c.2.kind ≠ .leaf → c.2.kind ≠ .internal → g c.1 = 0) :
    ((nodes.map Prod.fst).map g).sum =
      ((leafSlots nodes).map g).sum + ((internalNodes nodes).map (fun c => g c.1)).sum := by
  induction nodes with
  | nil => rfl
  | cons c rest ih =>
    have hrest := ih fun d hd => hg d (List.mem_cons_of_mem c hd)
    simp only [leafSlots, internalNodes, List.map_map] at hrest
    by_cases hleaf : c.2.kind = .leaf
    · simp [leafSlots, internalNodes, hleaf, hrest, Nat.add_assoc]
    · by_cases hint : c.2.kind = .internal
      · simp [leafSlots, internalNodes, hint, hrest, Nat.add_left_comm]
      · simp [leafSlots, internalNodes, hleaf, hint, hrest, hg c List.mem_cons_self hleaf hint]

section Tree

variable {nodes : List (Nat × Node)} {root : Root} (hw : tableWf Node.emptyRecord Config.nodeSlots nodes)
  (ht : TreeOk nodes root)

include hw in
theorem record_of_internal {i : Nat} (hi : (nodeAt nodes i).kind = .internal) : (i, nodeAt nodes i) ∈ nodes :=
  (mem_nodes_iff hw).2 ⟨rfl, fun he => by rw [show nodeAt nodes i = Node.emptyRecord from he] at hi; cases hi⟩

include hw in
theorem childOf_mem_childSlots {i : Nat} (hi : (nodeAt nodes i).kind = .internal) (b : Bool) :
    (childOf (nodeAt nodes i) b).toNat ∈ childSlots nodes :=
  List.mem_flatMap.2 ⟨_, record_of_internal hw hi, childOf_mem_childPair (c := (i, nodeAt nodes i)) hi b⟩

include ht in
/-- The root is no child (R44 item 4). -/
theorem treeOk_root_not_child : root.idx.toNat ∉ childSlots nodes := by
  obtain ⟨-, -, -, -, -, hchild, hslots⟩ := ht
  intro hroot
  obtain ⟨c, hc, hslot⟩ := List.mem_map.1 (hslots _ hroot)
  exact (hchild c hc).1 (hslot ▸ hroot) hslot

include hw ht

/-- The slots of a tree are its root and the children (R44 item 4). -/
theorem treeOk_slots_perm (hvalid : root.valid = true) :
    (nodes.map Prod.fst).Perm (root.idx.toNat :: childSlots nodes) := by
  have hroot : root.idx.toNat ∈ nodes.map Prod.fst := by
    rcases treeOk_root hw ht with ⟨hinvalid, -⟩ | ⟨-, hkind, -⟩
    · rw [hvalid] at hinvalid
      cases hinvalid
    · exact List.mem_map_of_mem (record_of_internal hw hkind)
  have hnodup : (root.idx.toNat :: childSlots nodes).Nodup := by
    obtain ⟨-, -, -, -, hchildren, -⟩ := id ht
    exact List.nodup_cons.2 ⟨treeOk_root_not_child ht, hchildren⟩
  refine (List.perm_ext_iff_of_nodup ((keys_sorted hw).imp Nat.ne_of_lt) hnodup).2 fun x => ?_
  obtain ⟨-, -, -, -, -, hchild, hslots⟩ := ht
  rw [List.mem_cons]
  constructor
  · intro hx
    obtain ⟨c, hc, rfl⟩ := List.mem_map.1 hx
    exact or_iff_not_imp_left.2 (hchild c hc).2
  · rintro (rfl | hx)
    · exact hroot
    · exact hslots x hx

/-- What the leaves and the internal nodes hold is what the root and the children hold. -/
theorem treeOk_sum_balance (hvalid : root.valid = true) (g : Nat → Nat)
    (hg : ∀ c ∈ nodes, c.2.kind ≠ .leaf → c.2.kind ≠ .internal → g c.1 = 0) :
    ((leafSlots nodes).map g).sum + ((internalNodes nodes).map (fun c => g c.1)).sum =
      g root.idx.toNat + ((internalNodes nodes).map (fun c => g c.2.left.toNat + g c.2.right.toNat)).sum := by
  calc ((leafSlots nodes).map g).sum + ((internalNodes nodes).map (fun c => g c.1)).sum
      = ((nodes.map Prod.fst).map g).sum := (sum_slots g nodes hg).symm
    _ = ((root.idx.toNat :: childSlots nodes).map g).sum := ((treeOk_slots_perm hw ht hvalid).map g).sum_eq
    _ = _ := by rw [List.map_cons, List.sum_cons, sum_childSlots]

end Tree

/-! ### Weights and depths (R113) -/

/-- NODE[x].weight as a number. -/
def weightAt (nodes : List (Nat × Node)) (x : Nat) : Nat := (nodeAt nodes x).weight.toNat

/-- The depth of a slot: the length of the paths from the root to it. -/
noncomputable def depthOf (nodes : List (Nat × Node)) (root : NodeIdx) (x : Nat) : Nat :=
  sInf {k | ∃ p, p.length = k ∧ descend nodes root p = some (BitVec.ofNat 9 x)}

section Tree

variable {nodes : List (Nat × Node)} {root : Root} (hw : tableWf Node.emptyRecord Config.nodeSlots nodes)
  (ht : TreeOk nodes root)

include hw ht

theorem internalNodes_slot {c : Nat × Node} (hc : c ∈ internalNodes nodes) :
    nodeAt nodes c.1 = c.2 ∧ (nodeAt nodes c.1).kind = .internal ∧ 256 ≤ c.1 ∧ c.1 < 511 := by
  obtain ⟨hmem, hkind⟩ := mem_internalNodes.1 hc
  have hnode := ((mem_nodes_iff hw).1 hmem).1
  have hint : (nodeAt nodes c.1).kind = .internal := by rw [hnode, hkind]
  obtain ⟨hlo, hhi, -⟩ := treeOk_internal hw ht hint false
  exact ⟨hnode, hint, hlo, hhi⟩

/-- The weight of an internal node is the sum of its children's (R44 item 5). -/
theorem weightAt_internal {c : Nat × Node} (hc : c ∈ internalNodes nodes) :
    weightAt nodes c.2.left.toNat + weightAt nodes c.2.right.toNat = weightAt nodes c.1 := by
  obtain ⟨hnode, -, hlo, hhi⟩ := internalNodes_slot hw ht hc
  obtain ⟨-, hok, -⟩ := id ht
  obtain ⟨-, hinternal, -⟩ := hok c (mem_internalNodes.1 hc).1
  obtain ⟨-, -, -, -, hsum⟩ := hinternal hlo hhi
  rw [weightAt, weightAt, weightAt, hnode, hsum]

/-- The unused leaf weighs nothing (R115). -/
theorem weightAt_of_neither {c : Nat × Node} (hc : c ∈ nodes) (hleaf : c.2.kind ≠ .leaf) (hint : c.2.kind ≠ .internal) :
    weightAt nodes c.1 = 0 := by
  obtain ⟨-, hok, -⟩ := ht
  obtain ⟨hlow, hmiddle, hhigh⟩ := hok c hc
  have h256 : Config.symbols ≤ c.1 := Nat.le_of_not_lt fun hlt => hleaf (hlow hlt).1
  have h511 : Config.unusedSlot ≤ c.1 := Nat.le_of_not_lt fun hlt => hint (hmiddle h256 hlt).1
  rw [weightAt, ((mem_nodes_iff hw).1 hc).1, hhigh h511]
  rfl

/-- The weight of the root is the sum of the weights of the leaves (R113). -/
theorem weightAt_root (hvalid : root.valid = true) :
    weightAt nodes root.idx.toNat = ((leafSlots nodes).map (weightAt nodes)).sum := by
  have hbalance := treeOk_sum_balance hw ht hvalid (weightAt nodes) fun c => weightAt_of_neither hw ht
  have hchildren : (internalNodes nodes).map (fun c => weightAt nodes c.2.left.toNat + weightAt nodes c.2.right.toNat) =
      (internalNodes nodes).map (fun c => weightAt nodes c.1) :=
    List.map_congr_left fun c hc => weightAt_internal hw ht hc
  rw [hchildren] at hbalance
  omega

/-- No two internal nodes share a child (R44 item 4). -/
theorem treeOk_parent_unique {i j : Nat} {b c : Bool} (hi : (nodeAt nodes i).kind = .internal)
    (hj : (nodeAt nodes j).kind = .internal) (hchild : childOf (nodeAt nodes i) b = childOf (nodeAt nodes j) c) :
    i = j := by
  obtain ⟨-, -, -, -, hnodup, -⟩ := ht
  have hsymm : Std.Symm (Function.onFun List.Disjoint childPair) := ⟨fun _ _ h => h.symm⟩
  obtain ⟨-, hdisjoint⟩ := List.nodup_flatMap.1 ((childSlots_eq nodes) ▸ hnodup)
  by_contra hne
  refine hdisjoint.forall (record_of_internal hw hi) (record_of_internal hw hj) (fun he => hne (congrArg Prod.fst he))
    (childOf_mem_childPair (c := (i, nodeAt nodes i)) hi b) ?_
  rw [hchild]
  exact childOf_mem_childPair (c := (j, nodeAt nodes j)) hj c

/-- All paths from the root to a slot have the same length. -/
theorem treeOk_path_length {p q : List Bool} {x : NodeIdx} (hp : descend nodes root.idx p = some x)
    (hq : descend nodes root.idx q = some x) : p.length = q.length := by
  have hrootless : ∀ {m : NodeIdx} {b : Bool}, (nodeAt nodes m.toNat).kind = .internal →
      childOf (nodeAt nodes m.toNat) b ≠ root.idx := fun {m b} hm he =>
    treeOk_root_not_child ht (he ▸ childOf_mem_childSlots hw hm b)
  induction p using List.reverseRecOn generalizing q x with
  | nil =>
    cases hp
    cases q using List.reverseRecOn with
    | nil => rfl
    | append_singleton q c =>
      obtain ⟨m, -, hm, hchild⟩ := descend_concat.1 hq
      exact absurd hchild (hrootless hm)
  | append_singleton p b ih =>
    obtain ⟨m, hpm, hm, hmx⟩ := descend_concat.1 hp
    cases q using List.reverseRecOn with
    | nil =>
      cases hq
      exact absurd hmx (hrootless hm)
    | append_singleton q c =>
      obtain ⟨m', hqm, hm', hmx'⟩ := descend_concat.1 hq
      have hmm : m = m' := BitVec.eq_of_toNat_eq (treeOk_parent_unique hw ht hm hm' (hmx.trans hmx'.symm))
      rw [List.length_append, List.length_append, ih hpm (hmm ▸ hqm)]
      rfl

theorem depthOf_eq {p : List Bool} {x : Nat} (hp : descend nodes root.idx p = some (BitVec.ofNat 9 x)) :
    depthOf nodes root.idx x = p.length := by
  have hsingleton : {k | ∃ q : List Bool, q.length = k ∧ descend nodes root.idx q = some (BitVec.ofNat 9 x)} =
      {p.length} := by
    ext k
    constructor
    · rintro ⟨q, rfl, hq⟩
      exact treeOk_path_length hw ht hq hp
    · rintro rfl
      exact ⟨p, rfl, hp⟩
  rw [depthOf, hsingleton, csInf_singleton]

theorem depthOf_root : depthOf nodes root.idx root.idx.toNat = 0 :=
  depthOf_eq hw ht (p := []) (by rw [descend, BitVec.ofNat_toNat, BitVec.setWidth_eq])

/-- A child is one edge deeper than its parent. -/
theorem depthOf_child {c : Nat × Node} (hc : c ∈ internalNodes nodes) (b : Bool) :
    depthOf nodes root.idx (childOf c.2 b).toNat = depthOf nodes root.idx c.1 + 1 := by
  obtain ⟨hnode, hkind, -, hhi⟩ := internalNodes_slot hw ht hc
  obtain ⟨p, hp⟩ := treeOk_reaches hw ht 512 c.1 (by omega) hhi (List.mem_map_of_mem (mem_internalNodes.1 hc).1)
  have hslot : (BitVec.ofNat 9 c.1).toNat = c.1 := slot_toNat (by omega)
  have hchild : descend nodes root.idx (p ++ [b]) = some (BitVec.ofNat 9 (childOf c.2 b).toNat) := by
    refine descend_concat.2 ⟨_, hp, ?_, ?_⟩
    · rw [hslot, hkind]
    · rw [hslot, hnode, BitVec.ofNat_toNat, BitVec.setWidth_eq]
  rw [depthOf_eq hw ht hchild, depthOf_eq hw ht hp, List.length_append]
  rfl

/-- The sum of weight times depth over the leaves is the sum of the weights of the internal nodes (R113). -/
theorem sum_leaves_weight_mul_depth :
    ((leafSlots nodes).map (fun x => weightAt nodes x * depthOf nodes root.idx x)).sum =
      ((internalNodes nodes).map (fun c => weightAt nodes c.1)).sum := by
  rcases treeOk_root hw ht with ⟨-, rfl⟩ | ⟨hvalid, -⟩
  · rfl
  · have hbalance := treeOk_sum_balance hw ht hvalid (fun x => weightAt nodes x * depthOf nodes root.idx x)
      fun c hc hleaf hint => by rw [weightAt_of_neither hw ht hc hleaf hint, Nat.zero_mul]
    have hchildren : (internalNodes nodes).map (fun c =>
        weightAt nodes c.2.left.toNat * depthOf nodes root.idx c.2.left.toNat +
          weightAt nodes c.2.right.toNat * depthOf nodes root.idx c.2.right.toNat) =
        (internalNodes nodes).map (fun c => weightAt nodes c.1 * depthOf nodes root.idx c.1 + weightAt nodes c.1) :=
      List.map_congr_left fun c hc => by
        have hleft : depthOf nodes root.idx c.2.left.toNat = depthOf nodes root.idx c.1 + 1 :=
          depthOf_child hw ht hc false
        have hright : depthOf nodes root.idx c.2.right.toNat = depthOf nodes root.idx c.1 + 1 :=
          depthOf_child hw ht hc true
        rw [hleft, hright, ← Nat.add_mul, weightAt_internal hw ht hc, Nat.mul_succ]
    rw [hchildren, List.sum_map_add, depthOf_root hw ht, Nat.mul_zero] at hbalance
    omega

end Tree

/-! ### The tree and the code of a buffer (R101, R113, R143) -/

/-- A leaf weighs the count of its symbol (R111, R115). -/
theorem weightAt_leaf (f : List (Nat × Word)) {x : Nat} (hx : x ∈ alphabet f) :
    weightAt (treeOf f).1 x = (freqAt f x).toNat := by
  obtain ⟨hlt, hcount⟩ := mem_alphabet.1 hx
  have hleaf : nodeAt (treeOf f).1 x = leafNode f x := by
    match hlen : (alphabet f).length with
    | 0 =>
      rw [List.length_eq_zero_iff.1 hlen] at hx
      cases hx
    | 1 =>
      obtain ⟨y, hy⟩ := List.length_eq_one_iff.1 hlen
      obtain rfl : x = y := by rwa [hy, List.mem_singleton] at hx
      rw [(treeOf_single hy).1]
      simp [nodeAt, tableGet, cellFind]
    | n + 2 => rw [(treeOf_merged hlen).1.leaf x hlt, if_neg hcount]
  rw [weightAt, hleaf, leafNode]

/-- A sum over the bytes of a buffer, taken over its alphabet with the counts. -/
theorem sum_bytes_eq {bytes : List Byte} (h : bytes.length < 2 ^ 32) (g : Nat → Nat) :
    (bytes.map (fun b => g b.toNat)).sum =
      ((alphabet (frequencyTable bytes)).map (fun x => (freqAt (frequencyTable bytes) x).toNat * g x)).sum := by
  have hcount : ∀ x, (freqAt (frequencyTable bytes) x).toNat = (bytes.map BitVec.toNat).count x := by
    intro x
    rw [freqAt_frequencyTable_toNat h, List.count, List.countP_map]
    exact List.countP_congr fun b _ => by simp
  have hsymbols : (bytes.map BitVec.toNat).toFinset = (alphabet (frequencyTable bytes)).toFinset := by
    ext x
    rw [List.mem_toFinset, List.mem_toFinset, List.mem_map, mem_alphabet, freqAt_frequencyTable_ne_zero h]
    constructor
    · rintro ⟨b, hb, rfl⟩
      exact ⟨b.isLt, b, hb, rfl⟩
    · exact fun hx => hx.2
  calc (bytes.map (fun b => g b.toNat)).sum
      = ((bytes.map BitVec.toNat).map g).sum := by rw [List.map_map]; rfl
    _ = ∑ x ∈ (bytes.map BitVec.toNat).toFinset, (bytes.map BitVec.toNat).count x * g x :=
        Finset.sum_list_map_count _ g
    _ = ∑ x ∈ (alphabet (frequencyTable bytes)).toFinset, (freqAt (frequencyTable bytes) x).toNat * g x := by
        simp only [hsymbols, hcount]
    _ = _ := List.sum_toFinset _ (alphabet_nodup _)

section Buffer

variable {bytes : List Byte} (h : bytes.length < 2 ^ 32)

include h

/-- The counts of a buffer make a tree of R44. -/
theorem treeOf_buffer_ok :
    tableWf Node.emptyRecord Config.nodeSlots (treeOf (frequencyTable bytes)).1 ∧
      TreeOk (treeOf (frequencyTable bytes)).1 (treeOf (frequencyTable bytes)).2 ∧
      leafSlots (treeOf (frequencyTable bytes)).1 = alphabet (frequencyTable bytes) :=
  treeOf_ok (by rwa [← countSum_eq (tableWf_frequencyTable bytes), countSum_frequencyTable h])

/-- The weight of the root is the length of the buffer (R113). -/
theorem weightAt_root_buffer (hne : bytes ≠ []) :
    weightAt (treeOf (frequencyTable bytes)).1 (treeOf (frequencyTable bytes)).2.idx.toNat = bytes.length := by
  obtain ⟨hw, ht, hleaves⟩ := treeOf_buffer_ok h
  have hvalid : (treeOf (frequencyTable bytes)).2.valid = true := by
    rcases treeOk_root hw ht with ⟨-, hempty⟩ | ⟨hvalid, -⟩
    · rw [hempty] at hleaves
      exact absurd ((alphabet_frequencyTable_eq_nil h).1 hleaves.symm) hne
    · exact hvalid
  rw [weightAt_root hw ht hvalid, hleaves, List.map_congr_left fun x hx => weightAt_leaf _ hx,
    ← countSum_eq (tableWf_frequencyTable bytes), countSum_frequencyTable h]

variable {code : List (Nat × Code)}
  (hcode : codeTable (treeOf (frequencyTable bytes)).1 (treeOf (frequencyTable bytes)).2 = some code)

include hcode

theorem codeOk_buffer : tableWf Code.noCode Config.symbols code ∧
    CodeOk (treeOf (frequencyTable bytes)).1 (treeOf (frequencyTable bytes)).2 code := by
  obtain ⟨hw, ht, -⟩ := treeOf_buffer_ok h
  obtain ⟨code', hcode', hcodeWf, hok⟩ := codeTable_ok hw ht
  cases hcode.symm.trans hcode'
  exact ⟨hcodeWf, hok⟩

/-- Every byte of a buffer has a code in the code table of the buffer (R132, R144). -/
theorem code_valid_buffer {b : Byte} (hb : b ∈ bytes) : (codeAt code b.toNat).valid = true := by
  obtain ⟨hw, -, hleaves⟩ := treeOf_buffer_ok h
  obtain ⟨hcodeWf, hok⟩ := codeOk_buffer h hcode
  rw [codeOk_valid_iff hw hcodeWf hok, ← mem_leafSlots_iff hw, hleaves]
  exact mem_alphabet.2 ⟨b.isLt, (freqAt_frequencyTable_ne_zero h _).2 ⟨b, hb, rfl⟩⟩

/-- The Bit Sequence of a buffer is as long as the internal nodes weigh together (R113, R143). -/
theorem bitSequence_length_buffer :
    (bitSequence code bytes).length =
      ((internalNodes (treeOf (frequencyTable bytes)).1).map (fun c => c.2.weight.toNat)).sum := by
  obtain ⟨hw, ht, hleaves⟩ := treeOf_buffer_ok h
  obtain ⟨hcodeWf, hok⟩ := codeOk_buffer h hcode
  calc (bitSequence code bytes).length
      = (bytes.map (fun b => (codeAt code b.toNat).len.toNat)).sum := bitSequence_length code bytes
    _ = ((alphabet (frequencyTable bytes)).map (fun x =>
          (freqAt (frequencyTable bytes) x).toNat * (codeAt code x).len.toNat)).sum :=
        sum_bytes_eq h fun x => (codeAt code x).len.toNat
    _ = ((leafSlots (treeOf (frequencyTable bytes)).1).map (fun x => weightAt (treeOf (frequencyTable bytes)).1 x *
          depthOf (treeOf (frequencyTable bytes)).1 (treeOf (frequencyTable bytes)).2.idx x)).sum := by
        rw [hleaves]
        refine congrArg List.sum (List.map_congr_left fun x hx => ?_)
        obtain ⟨p, hlen, hp⟩ := code_path hw hleaves hcodeWf hok hx
        rw [weightAt_leaf _ hx, depthOf_eq hw ht hp, hlen]
    _ = ((internalNodes (treeOf (frequencyTable bytes)).1).map
          (fun c => weightAt (treeOf (frequencyTable bytes)).1 c.1)).sum := sum_leaves_weight_mul_depth hw ht
    _ = _ := by
        refine congrArg List.sum (List.map_congr_left fun c hc => ?_)
        rw [weightAt, (internalNodes_slot hw ht hc).1]

end Buffer

/-! ### What COMPRESS answers (R173) -/

theorem runThen_eq_ok {α : Type} {r : Run α} {f : α → Run α} {b : α} :
    runThen r f = .ok b ↔ ∃ a, r = .ok a ∧ f a = .ok b := by
  cases r <;> simp

variable {s t : State}

/-- The state in which COMPRESS starts its packing, when its first three stages have made `code` (R173). -/
def packStageStart (code : List (Nat × Code)) (s : State) : State :=
  clearPack (storeCode code (clearCode (storeTree (clearTree
    (storeFreq (frequencyTable (inputBytes s)) (clearFreq (clearCodec (clearPack s))))))))

theorem inputBytes_packStageStart (code : List (Nat × Code)) (s : State) :
    inputBytes (packStageStart code s) = inputBytes s := rfl

theorem freqBody_eq_ok (h : freqBody s = .ok t) : t = storeFreq (frequencyTable (inputBytes s)) (clearFreq s) := by
  rw [freqBody_eq] at h
  split at h
  · cases h; rfl
  · cases h

theorem buildBody_eq_ok (h : buildBody s = .ok t) : t = storeTree (clearTree s) := by
  rw [buildBody_eq] at h
  split at h
  · cases h; rfl
  · cases h

theorem gencodeBody_eq_ok (h : gencodeBody s = .ok t) :
    ∃ code, codeTable s.node s.root = some code ∧ t = storeCode code (clearCode s) := by
  rw [gencodeBody_eq] at h
  split at h
  · unfold generate at h
    split at h
    · cases h
    · rename_i code hcode
      cases h
      exact ⟨code, hcode, rfl⟩
  · cases h

theorem packBody_eq_ok (h : packBody s = .ok t) :
    ∃ p, packRun (clearPack s) = .ok p ∧ t = storePacked p (clearPack s) := by
  rw [packBody_eq] at h
  split_ifs at h
  unfold packInto at h
  split at h
  · rename_i p hp
    cases h
    exact ⟨p, hp, rfl⟩
  · cases h
  · cases h

/-- A COMPRESS without a fault made the code table of the tree of its input, and packed with it (R173). -/
theorem exec_compress_packed (hfault : s.status.fault = false) (h : exec .compress s = .next t)
    (hgood : t.status.fault = false) :
    ∃ code p, codeTable (treeOf (frequencyTable (inputBytes s))).1 (treeOf (frequencyTable (inputBytes s))).2 = some code ∧
      packRun (packStageStart code s) = .ok p ∧ t = storePacked p (packStageStart code s) := by
  rcases gated_eq_next.1 h with ⟨hclosed, -⟩ | ⟨-, hok | ⟨c, i, u, -, rfl⟩⟩
  · rw [hfault] at hclosed
    cases hclosed
  · obtain ⟨s1, hfreq, hrest⟩ := runThen_eq_ok.1 hok
    cases freqBody_eq_ok hfreq
    obtain ⟨s2, hbuild, hrest⟩ := runThen_eq_ok.1 hrest
    cases buildBody_eq_ok hbuild
    obtain ⟨s3, hgencode, hpack⟩ := runThen_eq_ok.1 hrest
    obtain ⟨code, hcode, rfl⟩ := gencodeBody_eq_ok hgencode
    obtain ⟨p, hp, ht⟩ := packBody_eq_ok hpack
    exact ⟨code, p, hcode, hp, ht⟩
  · cases hgood

/-- A packing run that ended, when every byte has a code: BCNT is the length of the Bit Sequence, whose bytes fit. -/
theorem bcnt_of_packRun_ok (hv : AllCoded s) {p : Packer} (h : packRun s = .ok p) :
    p.bcnt = (bitSequence s.code (inputBytes s)).length ∧
      bytesFor (bitSequence s.code (inputBytes s)).length ≤ s.obufCap.toNat := by
  have hspec := packRun_spec s hv
  simp only at hspec
  split at hspec
  next hfit =>
    obtain ⟨q, hq, hbcnt, -⟩ := hspec
    cases h.symm.trans hq
    exact ⟨hbcnt, hfit⟩
  next =>
    obtain ⟨q, hq, -⟩ := hspec
    cases h.symm.trans hq

/-- Settles O60: the packer counts the bits of the codes, which are the paths of the tree of the input. -/
theorem encodedLengthIsTheSumOfInternalWeights : Obligations.EncodedLengthIsTheSumOfInternalWeights := by
  unfold Obligations.EncodedLengthIsTheSumOfInternalWeights
  intro s t hsizes hfault hnext hgood
  obtain ⟨code, p, hcode, hp, rfl⟩ := exec_compress_packed hfault hnext hgood
  have hlen := inputBytes_length_lt s
  obtain ⟨hbcnt, hfit⟩ := bcnt_of_packRun_ok (s := packStageStart code s) (fun b hb => code_valid_buffer hlen hcode hb) hp
  refine ⟨?bitLen, fun hne => ?rootWeight⟩
  case bitLen =>
    rw [storePacked_bitLen, BitVec.toNat_ofNat, hbcnt,
      Nat.mod_eq_of_lt (lt_of_bytesFor_le (s := packStageStart code s) hsizes hfit)]
    exact bitSequence_length_buffer hlen hcode
  case rootWeight =>
    refine BitVec.eq_of_toNat_eq ((weightAt_root_buffer hlen fun hempty => hne ?_).trans (inputBytes_length s))
    refine BitVec.eq_of_toNat_eq ?_
    rw [← inputBytes_length, hempty]
    rfl

end Sys2Proof.Machine

/-!
PROOF of O24 and O55. The Code Table Generator (spec 42_gencode.md R130 to R133): GENCODE on a tree of R44 stores the code
table of that tree, whose records are the root paths of the leaves; and of the accesses a step serves, only four commands and
a reset clear CODE_VALID.
-/

namespace Sys2Proof.Machine

open Sys2Proof.Claims

variable {s t : State}

/-! ### What a code table holds at a symbol (R45, R46) -/

/-- Beyond its length the code of a symbol is zero (R45). -/
theorem codeRecordOk_bits_beyond {nodes : List (Nat × Node)} {root : Root} {c : Nat × Code}
    (h : CodeRecordOk nodes root c) {j : Nat} (hj : c.2.len.toNat ≤ j) : c.2.bits.getLsbD j = false := by
  obtain ⟨-, -, hbits, -⟩ := h
  exact Nat.testBit_lt_two_pow (hbits.trans_le (Nat.pow_le_pow_right (by decide) hj))

/-- A symbol without a leaf has the cleared record (R130). -/
theorem codeOk_noCode {nodes : List (Nat × Node)} {root : Root} {code : List (Nat × Code)}
    (hnode : tableWf Node.emptyRecord Config.nodeSlots nodes) (hwf : tableWf Code.noCode Config.symbols code)
    (h : CodeOk nodes root code) {x : Nat} (hx : (nodeAt nodes x).kind ≠ .leaf) : codeAt code x = Code.noCode := by
  by_contra hne
  obtain ⟨-, hrecords⟩ := id h
  obtain ⟨hvalid, -⟩ := hrecords _ (mem_of_tableGet_ne hne)
  exact hx ((codeOk_valid_iff hnode hwf h x).1 hvalid)

/-! ### What GENCODE answers (R130) -/

/-- GENCODE with a tree whose traversal ends: its code table is stored. -/
theorem exec_gencode_stores (hfault : s.status.fault = false) (htree : s.status.treeValid = true)
    {code : List (Nat × Code)} (hcode : codeTable s.node s.root = some code) :
    exec .gencode s = .next (storeCode code (clearCode s)) := by
  have hgate : exec .gencode s = runFinish (gencodeBody s) := gated_of_no_fault gencodeBody hfault
  rw [hgate, gencodeBody_eq, if_pos htree, generate, clearCode_node, clearCode_root, hcode]
  rfl

/-- Settles O24: the code table of a tree of R44 is stored, and its records are those of R46. -/
theorem gencodeRecordsTheRootPaths : Obligations.GencodeRecordsTheRootPaths := by
  unfold Obligations.GencodeRecordsTheRootPaths
  intro s hfault htree hnode hok
  obtain ⟨code, hcode, hwf, hcodeOk⟩ := codeTable_ok hnode hok
  refine ⟨_, exec_gencode_stores hfault htree hcode, fun x _ hleaf => ?leaf, fun x _ hx => ?other, rfl⟩
  case leaf =>
    have hvalid : (codeAt code x).valid = true := (codeOk_valid_iff hnode hwf hcodeOk x).2 hleaf
    have hrecord := codeOk_at hcodeOk hvalid
    obtain ⟨-, hlen, -, hpath⟩ := id hrecord
    exact ⟨hvalid, hlen, Nat.le_of_lt_succ (codeAt code x).len.isLt, hpath, fun _ => codeRecordOk_bits_beyond hrecord⟩
  case other => exact codeOk_noCode hnode hwf hcodeOk hx

/-! ### What a step does to STATUS (R23, R74) -/

/-- Every flag but FAULT is as before. -/
def FlagsKept (s t : State) : Prop := t.status = { s.status with fault := t.status.fault }

theorem illegalCommand_keeps_flags (word : Word) (s : State) : FlagsKept s (illegalCommand word s) := by
  unfold illegalCommand
  split <;> rfl

/-- A write to CMD runs a command or keeps every flag but FAULT (R22, R187). -/
theorem issueCommand_cases {word : Word} (h : issueCommand word s = .next t) :
    (∃ i, word = encode i ∧ exec i s = .next t) ∨ FlagsKept s t := by
  unfold issueCommand at h
  split at h
  next i hdec => exact Or.inl ⟨i, encode_of_decode hdec, h⟩
  next =>
    cases h
    exact Or.inr (illegalCommand_keeps_flags word s)

/-- A host write runs a command or keeps every flag but FAULT (R62). -/
theorem hostWrite_cases {space : Space} {index v : Word} (h : hostWrite space index v s = .next t) :
    (∃ i, Access.write space index v = Access.command (encode i) ∧ exec i s = .next t) ∨ FlagsKept s t := by
  by_cases hcmd : space = .reg ∧ index = 0
  · obtain ⟨rfl, rfl⟩ := hcmd
    exact (issueCommand_cases h).imp_left fun ⟨i, hword, hexec⟩ => ⟨i, hword ▸ rfl, hexec⟩
  · refine Or.inr ?_
    rw [hostWrite_frame hcmd h]
    rfl

/-- A step serves a reset, runs the pending command, or keeps every flag but FAULT. -/
theorem step_cases (h : step s = .next t) :
    (∃ rest, s.port = .reset :: rest) ∨
      (∃ i rest, CommandPending s (encode i) rest ∧ exec i { s with port := rest } = .next t) ∨ FlagsKept s t := by
  match hport : s.port with
  | [] =>
    rw [step, hport] at h
    cases h
    exact Or.inr (Or.inr rfl)
  | .reset :: rest => exact Or.inl ⟨rest, rfl⟩
  | .read space index :: rest =>
    rw [step_of_port hport] at h
    cases h
    exact Or.inr (Or.inr rfl)
  | .write space index v :: rest =>
    rw [step_of_port hport] at h
    refine Or.inr ((hostWrite_cases h).imp_left fun ⟨i, haccess, hexec⟩ => ⟨i, rest, ?_, hexec⟩)
    rw [CommandPending, hport, haccess]

/-! ### What clears CODE_VALID (R133) -/

/-- CODE_VALID is set (R23). -/
def HasCode (s : State) : Prop := s.status.codeValid = true

theorem freqBody_leaves_code (h : HasCode s) : (freqBody s).Leaves HasCode :=
  runThen_leaves (require_leaves (s := clearFreq s) h _ _ _) fun _ hu => hu

theorem packBody_leaves_code (h : HasCode s) : (packBody s).Leaves HasCode :=
  runThen_leaves (require_leaves (s := clearPack s) h _ _ _) fun _ hu =>
    runThen_leaves (require_leaves hu _ _ _) fun _ hv => packInto_leaves (fun _ _ => hv) (fun _ _ _ _ => hv)

theorem unpackBody_leaves_code (h : HasCode s) : (unpackBody s).Leaves HasCode :=
  runThen_leaves (require_leaves (s := clearUnpack s) h _ _ _) fun _ hu =>
    runThen_leaves (require_leaves hu _ _ _) fun _ hv =>
      runThen_leaves (require_leaves hv _ _ _) fun _ hw =>
        runThen_leaves (require_leaves hw _ _ _) fun _ hx => walkInto_leaves (fun _ _ => hx) (fun _ _ _ _ => hx)

/-- With a tree GENCODE ends with CODE_VALID set or not at all: the flag it clears first is set again (R130). -/
theorem gencodeBody_leaves_code (htree : s.status.treeValid = true) : (gencodeBody s).Leaves HasCode := by
  rw [gencodeBody_eq, if_pos htree, generate]
  split
  · exact Run.leaves_stopped _
  · rfl

theorem gated_keeps_code {body : State → Run State} (hs : HasCode s) (hbody : (body s).Leaves HasCode)
    (h : gated body s = .next t) : HasCode t :=
  gated_keeps (P := HasCode) (fun _ _ _ hu => hu) hs hbody h

/-- The code of a tree stays valid through every command that leaves the tree (R133). -/
theorem exec_keeps_code {i : Instr} (hi : ¬TouchesTree i) (htree : s.status.treeValid = true) (hs : HasCode s)
    (h : exec i s = .next t) : HasCode t := by
  cases i with
  | nop => cases h; exact hs
  | freq => exact gated_keeps_code hs (freqBody_leaves_code hs) h
  | gencode => exact gated_keeps_code hs (gencodeBody_leaves_code htree) h
  | pack => exact gated_keeps_code hs (packBody_leaves_code hs) h
  | unpack => exact gated_keeps_code hs (unpackBody_leaves_code hs) h
  | build => exact absurd (Or.inl rfl) hi
  | compress => exact absurd (Or.inr (Or.inl rfl)) hi
  | discard => exact absurd (Or.inr (Or.inr (Or.inl rfl))) hi
  | rst => exact absurd (Or.inr (Or.inr (Or.inr rfl))) hi

/-- Settles O55: a valid code has a valid tree, and both are left by all but a reset and the commands that touch the tree. -/
theorem onlyFourCommandsInvalidateTheCode : Obligations.OnlyFourCommandsInvalidateTheCode := by
  unfold Obligations.OnlyFourCommandsInvalidateTheCode
  intro s t hinv hnext hcode hcleared
  obtain ⟨-, -, -, -, hcodeOk⟩ := hinv
  have hlost : ¬HasCode t := by simp [HasCode, hcleared]
  rcases step_cases hnext with hreset | ⟨i, rest, hpending, hexec⟩ | hflags
  · exact Or.inl hreset
  · refine Or.inr ⟨i, rest, hpending, ?_⟩
    by_contra hi
    exact hlost (exec_keeps_code (s := { s with port := rest }) hi (hcodeOk hcode).1 hcode hexec)
  · refine absurd ?_ hlost
    rw [HasCode, hflags]
    exact hcode

end Sys2Proof.Machine

/-!
PROOF of O42. What PACK leaves unchanged (spec 43_pack.md R140, R146; 60_exceptions.md R196). The packer reaches its output
through `emit` alone, so whatever every emission keeps, the packing run keeps; and an emission writes at OPTR, then moves it
up. The other registers are seen in the three states in which the body of PACK can end.
-/

namespace Sys2Proof.Machine

open Sys2Proof.Claims

variable {s t : State}

/-! ### What every emission keeps, the packing run keeps -/

section Output

variable {cap : Nat} {P : Sink → Prop} (hemit : ∀ k, P k → ∀ v, (emit cap v k).Leaves P)

include hemit

theorem flushAcc_leaves_sink {p : Packer} (h : P p.sink) : (flushAcc cap p).Leaves (fun p => P p.sink) := by
  have hsink := hemit p.sink h p.acc
  unfold flushAcc
  cases hr : emit cap p.acc p.sink with
  | ok k => rwa [hr] at hsink
  | raised c i k => rwa [hr] at hsink
  | stopped e => exact Run.leaves_stopped e

theorem shiftBit_leaves_sink {p : Packer} (h : P p.sink) (b : Bool) :
    (shiftBit cap p b).Leaves (fun p => P p.sink) := by
  unfold shiftBit
  dsimp only
  split
  · exact flushAcc_leaves_sink hemit h
  · exact h

theorem packByte_leaves_sink (code : List (Nat × Code)) {p : Packer} (h : P p.sink) (item : Byte × Nat) :
    (packByte code cap p item).Leaves (fun p => P p.sink) := by
  unfold packByte
  dsimp only
  split
  · exact runFold_leaves (fun _ b hq => shiftBit_leaves_sink hemit hq b) h _
  · exact h

theorem flushLast_leaves_sink {p : Packer} (h : P p.sink) : (flushLast cap p).Leaves (fun p => P p.sink) := by
  unfold flushLast
  split
  · exact flushAcc_leaves_sink hemit h
  · exact h

end Output

theorem packRun_leaves_sink {P : Sink → Prop} (hemit : ∀ k, P k → ∀ v, (emit s.obufCap.toNat v k).Leaves P)
    (hstart : P { obuf := s.obuf, optr := 0 }) : (packRun s).Leaves (fun p => P p.sink) :=
  runThen_leaves (runFold_leaves (fun _ item hp => packByte_leaves_sink hemit s.code hp item) hstart _)
    (fun _ hp => flushLast_leaves_sink hemit hp)

/-! ### Sequential output is written below OPTR (R79) -/

/-- From OPTR on, the output buffer reads as `m` does. -/
def WrittenBelowOptr (m : List Host.Cell) (k : Sink) : Prop :=
  ∀ a, k.optr ≤ a → Memory.read? k.obuf a = Memory.read? m a

/-- The byte at the old OPTR is below the new one. -/
theorem emit_leaves_writtenBelowOptr (cap : Nat) {m : List Host.Cell} {k : Sink} (h : WrittenBelowOptr m k) (v : Byte) :
    (emit cap v k).Leaves (WrittenBelowOptr m) := by
  unfold emit
  split
  next => exact h
  next =>
    intro a (ha : k.optr + 1 ≤ a)
    rw [Memory.read?_write, if_neg (by omega)]
    exact h a (by omega)

theorem packRun_leaves_writtenBelowOptr (s : State) : (packRun s).Leaves (fun p => WrittenBelowOptr s.obuf p.sink) :=
  packRun_leaves_sink (fun _ hk v => emit_leaves_writtenBelowOptr _ hk v) (fun _ _ => rfl)

/-! ### What a gated command does to the exception registers (R196) -/

/-- A body touches no exception register: the raise that ends it does, and sets FAULT. -/
theorem gated_keeps_faultRegisters {body : State → Run State}
    (hbody : (body s).Leaves (fun u => u.errCode = s.errCode ∧ u.errInfo = s.errInfo)) (h : gated body s = .next t) :
    FaultRegistersKept s t := by
  rcases gated_eq_next.1 h with ⟨-, rfl⟩ | ⟨hopen, hok | ⟨c, i, u, -, rfl⟩⟩
  · exact fun _ => ⟨rfl, rfl⟩
  · rw [hok, Run.leaves_ok] at hbody
    exact fun _ => hbody
  · intro hsame
    rw [raiseFault_status, hopen] at hsame
    cases hsame

/-! ### What the body of PACK leaves (R140, R146) -/

/-- The body ends after its clears, after the stores of a finished packing, or where the packing raised. -/
theorem packBody_leaves {P : State → Prop} (hclear : P (clearPack s))
    (hok : ∀ p, packRun (clearPack s) = .ok p → P (storePacked p (clearPack s)))
    (hraised : ∀ c i p, packRun (clearPack s) = .raised c i p → P { clearPack s with obuf := p.sink.obuf }) :
    (packBody s).Leaves P := by
  rw [packBody_eq]
  split_ifs
  · exact packInto_leaves hok hraised
  · exact hclear
  · exact hclear

theorem packBody_leaves_faultRegisters (s : State) :
    (packBody s).Leaves (fun u => u.errCode = s.errCode ∧ u.errInfo = s.errInfo) :=
  packBody_leaves ⟨rfl, rfl⟩ (fun _ _ => ⟨rfl, rfl⟩) (fun _ _ _ _ => ⟨rfl, rfl⟩)

/-- OBUF reads as before from the OPTR of PACK's packing run on. -/
def ObufKeptFromOptr (s t : State) : Prop :=
  ∀ a, packedCount (packRun (clearPack s)) ≤ a → Memory.read? t.obuf a = Memory.read? s.obuf a

theorem packBody_leaves_obufKeptFromOptr (s : State) : (packBody s).Leaves (ObufKeptFromOptr s) := by
  have hrun := packRun_leaves_writtenBelowOptr (clearPack s)
  refine packBody_leaves (fun _ _ => rfl) (fun p hp a ha => ?_) (fun c i p hp a ha => ?_)
  all_goals
    rw [hp] at hrun ha
    exact hrun a ha

/-- All but OBUF, OUT_LEN, BITLEN, OUT_VALID and the fault registers is as before. -/
def PackTouchesOnly (s t : State) : Prop :=
  t = { s with
        obuf := t.obuf, outLen := t.outLen, bitLen := t.bitLen, errCode := t.errCode, errInfo := t.errInfo
        status := { s.status with outValid := t.status.outValid, fault := t.status.fault } }

theorem PackTouchesOnly.refl (s : State) : PackTouchesOnly s s := rfl

theorem packBody_leaves_packTouchesOnly (s : State) : (packBody s).Leaves (PackTouchesOnly s) :=
  packBody_leaves rfl (fun _ _ => rfl) (fun _ _ _ _ => rfl)

theorem PackTouchesOnly.raiseFault (h : PackTouchesOnly s t) (c : FaultCode) (i : Word) :
    PackTouchesOnly s (raiseFault c i t) := by
  rw [PackTouchesOnly, h]
  rfl

theorem PackTouchesOnly.ibuf_eq (h : PackTouchesOnly s t) : t.ibuf = s.ibuf := by rw [h]

/-- Settles O42: the body of PACK meets each part of the frame, and latching a fault keeps it. -/
theorem packFrame : Obligations.PackFrame := by
  unfold Obligations.PackFrame
  intro s t (hnext : gated packBody s = .next t)
  have hframe : PackTouchesOnly s t :=
    gated_keeps (P := PackTouchesOnly s) (fun c i _ hu => hu.raiseFault c i) (.refl s)
      (packBody_leaves_packTouchesOnly s) hnext
  have hobuf : ObufKeptFromOptr s t :=
    gated_keeps (P := ObufKeptFromOptr s) (fun _ _ _ hu => hu) (fun _ _ => rfl) (packBody_leaves_obufKeptFromOptr s) hnext
  have hfault := gated_keeps_faultRegisters (packBody_leaves_faultRegisters s) hnext
  exact ⟨fun a => by rw [hframe.ibuf_eq], hobuf, hfault, hframe⟩

end Sys2Proof.Machine

/-!
PROOF of O29, O56, O57 and O58. The walk of UNPACK (spec 44_unpack.md R155 to R162): a walk that starts and whose symbols fit
stores what `decodeBits` says. What PACK and COMPRESS leave in OBUF is the Packed Buffer of a Bit Sequence (30_encoding.md R89);
read back as input it is that sequence and then its padding bits, and the tree decodes the sequence to the bytes it was made
of and the padding bits to copies of the symbol whose code is all zeros (R161).
-/

namespace Sys2Proof.Machine

open Sys2Proof.Claims

variable {s t u : State}

/-! ### What UNPACK answers when its walk starts (R155) -/

/-- An UNPACK that passes its checks is the walking part. -/
theorem exec_unpack_eq (h : WalkStarts s) : exec .unpack s = runFinish (walkInto (clearUnpack s)) := by
  obtain ⟨hfault, htree, hin, hlen, hroot⟩ := h
  have hrange : ¬(s.lenEn = true ∧ 8 * s.inLen.toNat < s.decBitLen.toNat) := fun ⟨hmode, hmany⟩ =>
    Nat.not_lt.2 (hlen hmode) hmany
  have hroot' : ¬(bitCount s ≠ 0 ∧ s.root.valid = false) := fun ⟨hsome, hnone⟩ =>
    hroot.elim hsome fun hvalid => by simp [hnone] at hvalid
  have hbody : unpackBody s = walkInto (clearUnpack s) := by
    rw [unpackBody_eq, if_pos htree, if_pos hin, if_neg hrange, if_neg hroot']
  rw [← hbody]
  exact gated_of_no_fault unpackBody hfault

/-- A successful UNPACK, by what its walker holds at the end (R158 to R160). -/
theorem exec_unpack_walked {out : List Byte} {cur : NodeIdx} (h : WalkStarts s)
    (hd : decodeBits s.node s.root.idx s.root.idx (packedInput s (walkLength s)) = some (out, cur))
    (hfit : out.length ≤ s.obufCap.toNat) :
    ∃ w, exec .unpack s = .next (storeWalked w (clearUnpack s)) ∧ WalkerHolds s.obuf out cur w := by
  obtain ⟨w, hw, hholds⟩ := walkRun_ok (clearUnpack s) hd hfit
  refine ⟨w, ?_, hholds⟩
  rw [exec_unpack_eq h, walkInto, hw, runFinish_ok]

/-- OUT_LEN is the number of symbols emitted, which an OBUF of 32-bit size holds. -/
theorem WalkerHolds.outLen_toNat {m : List Host.Cell} {out : List Byte} {cur : NodeIdx} {w : Walker}
    (h : WalkerHolds m out cur w) (hfit : out.length ≤ s.obufCap.toNat) :
    (storeWalked w (clearUnpack s)).outLen.toNat = out.length := by
  rw [storeWalked_outLen, h.optr, BitVec.toNat_ofNat, Nat.mod_eq_of_lt (hfit.trans_lt s.obufCap.isLt)]

/-- Settles O29: the walker holds what `decodeBits` says, and UNPACK stores it. -/
theorem unpackEmitsTheWalkedSymbols : Obligations.UnpackEmitsTheWalkedSymbols := by
  unfold Obligations.UnpackEmitsTheWalkedSymbols
  intro s out cur hstarts hd hfit
  obtain ⟨w, hexec, hholds⟩ := exec_unpack_walked hstarts hd hfit
  refine ⟨_, hexec, hholds.outLen_toNat hfit, hholds.obuf, ?_⟩
  rw [← hholds.cur]
  rfl

/-- `v` is what an UNPACK that emits `out` leaves for the host to see. -/
structure UnpackEmits (u v : State) (out : List Byte) : Prop where
  exec_eq : exec .unpack u = .next v
  fault : v.status.fault = false
  outValid : v.status.outValid = true
  outLen : v.outLen.toNat = out.length
  output : outputBytes v = out.map some

theorem exec_unpack_emits {out : List Byte} {cur : NodeIdx} (h : WalkStarts u)
    (hd : decodeBits u.node u.root.idx u.root.idx (packedInput u (walkLength u)) = some (out, cur))
    (hfit : out.length ≤ u.obufCap.toNat) :
    ∃ v, UnpackEmits u v out ∧ v.status.decPartial = decide (cur ≠ u.root.idx) := by
  obtain ⟨w, hexec, hholds⟩ := exec_unpack_walked h hd hfit
  have hlen := hholds.outLen_toNat hfit
  obtain ⟨hfault, -⟩ := h
  refine ⟨_, ⟨hexec, hfault, rfl, hlen, ?output⟩, by rw [← hholds.cur]; rfl⟩
  case output =>
    rw [outputBytes, hlen]
    refine List.ext_getElem (by simp) fun i hi _ => ?_
    have hi : i < out.length := by simpa using hi
    simp [hholds.obuf, hi]

/-! ### What a packing run leaves in OBUF (R89, R140, R143) -/

/-- A loop that ends has done every one of its rounds. -/
theorem runFold_ok_round {α β : Type} {f : α → β → Run α} {a a' : α} {items : List β} (h : runFold f a items = .ok a')
    {b : β} (hb : b ∈ items) : ∃ a₁ a₂, f a₁ b = .ok a₂ := by
  induction items generalizing a with
  | nil => cases hb
  | cons c rest ih =>
    obtain ⟨a₁, hc, hrest⟩ := runThen_eq_ok.1 h
    rcases List.mem_cons.1 hb with rfl | hb
    · exact ⟨a, a₁, hc⟩
    · exact ih hrest hb

theorem code_valid_of_packByte_ok {code : List (Nat × Code)} {cap : Nat} {p q : Packer} {item : Byte × Nat}
    (h : packByte code cap p item = .ok q) : (codeAt code item.1.toNat).valid = true := by
  by_contra hnone
  simp [packByte, hnone] at h

/-- A packing run that ended met no byte without a code (R144). -/
theorem allCoded_of_packRun_ok {p : Packer} (h : packRun s = .ok p) : AllCoded s := by
  intro b hb
  obtain ⟨q, hloop, -⟩ := runThen_eq_ok.1 h
  obtain ⟨i, hi, rfl⟩ := List.getElem_of_mem hb
  obtain ⟨p₁, p₂, hround⟩ := runFold_ok_round hloop
    (List.mem_zipIdx_iff_getElem?.2 (List.getElem?_eq_getElem hi) : ((inputBytes s)[i], i) ∈ (inputBytes s).zipIdx)
  exact code_valid_of_packByte_ok hround

/-- The output of `t` is the Packed Buffer of `bits` (R89, R143). -/
structure HoldsPacked (bits : List Bool) (t : State) : Prop where
  bitLen : t.bitLen.toNat = bits.length
  outLen : t.outLen.toNat = bytesFor bits.length
  bytes : ∀ k < bytesFor bits.length, Memory.read? t.obuf k = some (packedByte bits k)

theorem holdsPacked_storePacked (hsizes : SizesOk s) {p : Packer} (hp : packRun s = .ok p) :
    HoldsPacked (bitSequence s.code (inputBytes s)) (storePacked p s) := by
  have hcoded := allCoded_of_packRun_ok hp
  obtain ⟨-, hfit⟩ := bcnt_of_packRun_ok hcoded hp
  obtain ⟨q, hq, hbcnt, hoptr, hobuf⟩ := (if_pos hfit).mp (packRun_spec s hcoded)
  cases hp.symm.trans hq
  refine ⟨?bitLen, ?outLen, fun k hk => (hobuf k).trans (if_pos hk)⟩
  case bitLen => rw [storePacked_bitLen, hbcnt, BitVec.toNat_ofNat, Nat.mod_eq_of_lt (lt_of_bytesFor_le hsizes hfit)]
  case outLen =>
    rw [storePacked_outLen, hoptr, BitVec.toNat_ofNat, Nat.mod_eq_of_lt (hfit.trans_lt s.obufCap.isLt)]

/-- A PACK without a fault packed its input to the end. -/
theorem packRun_of_exec_pack (hfault : s.status.fault = false) (h : exec .pack s = .next t)
    (hgood : t.status.fault = false) : ∃ p, packRun (clearPack s) = .ok p ∧ t = storePacked p (clearPack s) := by
  rcases gated_eq_next.1 h with ⟨hclosed, -⟩ | ⟨-, hok | ⟨c, i, v, -, rfl⟩⟩
  · rw [hfault] at hclosed
    cases hclosed
  · exact packBody_eq_ok hok
  · cases hgood

/-! ### The Packed Buffer read as input (R89, R157) -/

/-- The number of padding bits behind `n` bits (R142). -/
def padding (n : Nat) : Nat := (8 - n % 8) % 8

theorem add_padding (n : Nat) : n + padding n = 8 * bytesFor n := by
  unfold padding bytesFor
  omega

/-- The input of a core that holds a Packed Buffer: the Bit Sequence, then padding bits. -/
theorem packedInput_of_packedBytes {bits : List Bool} (h : ∀ k < bytesFor bits.length, ibufByte u k = packedByte bits k)
    {k : Nat} (hk : k ≤ padding bits.length) :
    packedInput u (bits.length + k) = bits ++ List.replicate k false := by
  have hpad := add_padding bits.length
  refine List.ext_getElem (by simp [packedInput]) fun i hi _ => ?_
  have hi : i < bits.length + k := by simpa [packedInput] using hi
  have hbit : (ibufByte u (i / 8)).getLsbD (i % 8) = bits.getD i false := by
    rw [h _ (by omega), packedByte_getLsbD _ _ _ (Nat.mod_lt _ (by decide)), Nat.div_add_mod]
  simp only [packedInput, List.getElem_map, List.getElem_range, hbit, List.getElem_append, List.getElem_replicate]
  split
  next hin => exact List.getD_eq_getElem _ _ hin
  next hout => exact List.getD_eq_default _ _ (Nat.le_of_not_lt hout)

/-! ### Decoding with a tree and its code table (R161, R162) -/

/-- `code` is the code table of the tree, both in canonical form (R44, R46). -/
structure CodedTree (nodes : List (Nat × Node)) (root : Root) (code : List (Nat × Code)) : Prop where
  nodeWf : tableWf Node.emptyRecord Config.nodeSlots nodes
  tree : TreeOk nodes root
  codeWf : tableWf Code.noCode Config.symbols code
  codeOk : CodeOk nodes root code

/-- The codec state of the invariant. -/
theorem codedTree_of_inv (h : Inv s) (hcode : s.status.codeValid = true) : CodedTree s.node s.root s.code := by
  obtain ⟨-, ⟨-, -, -, hnodeWf, hcodeWf⟩, -, htree, hcodec⟩ := h
  obtain ⟨hvalid, hok⟩ := hcodec hcode
  exact ⟨hnodeWf, (htree hvalid).1, hcodeWf, hok⟩

/-- The codec state that COMPRESS makes of a buffer (R173). -/
theorem codedTree_buffer {bytes : List Byte} (h : bytes.length < 2 ^ 32) {code : List (Nat × Code)}
    (hcode : codeTable (treeOf (frequencyTable bytes)).1 (treeOf (frequencyTable bytes)).2 = some code) :
    CodedTree (treeOf (frequencyTable bytes)).1 (treeOf (frequencyTable bytes)).2 code := by
  obtain ⟨hnodeWf, htree, -⟩ := treeOf_buffer_ok h
  obtain ⟨hcodeWf, hok⟩ := codeOk_buffer h hcode
  exact ⟨hnodeWf, htree, hcodeWf, hok⟩

theorem bitSequence_append (code : List (Nat × Code)) (xs ys : List Byte) :
    bitSequence code (xs ++ ys) = bitSequence code xs ++ bitSequence code ys := by
  simp [bitSequence]

theorem bitSequence_replicate_zeros {code : List (Nat × Code)} {z : Byte} {d : Nat}
    (hz : (codeAt code z.toNat).sequence = List.replicate d false) (k : Nat) :
    bitSequence code (List.replicate k z) = List.replicate (d * k) false := by
  simp [bitSequence, hz, List.flatMap_replicate, Nat.mul_comm]

/-- A walk along the beginning of a path emits nothing and stands where that beginning leads (R158). -/
theorem decodeBits_path_start {nodes : List (Nat × Node)} {n m : NodeIdx} (root : NodeIdx) {p q : List Bool} (hq : q ≠ [])
    (h : descend nodes n (p ++ q) = some m) :
    ∃ x, descend nodes n p = some x ∧ decodeBits nodes root n p = some ([], x) := by
  induction p generalizing n with
  | nil => exact ⟨n, rfl, rfl⟩
  | cons b p ih =>
    rw [List.cons_append, descend] at h
    split at h
    next hn =>
      obtain ⟨x, hx, hdecode⟩ := ih h
      obtain ⟨c, rest, hcons⟩ := List.exists_cons_of_ne_nil (List.append_ne_nil_of_right_ne_nil p hq)
      have hchild : (nodeAt nodes (childOf (nodeAt nodes n.toNat) b).toNat).kind = .internal := by
        by_contra hkind
        simp [hcons, descend, hkind] at h
      exact ⟨x, by rw [descend, if_pos hn, hx], by simp only [decodeBits, hchild, hdecode]⟩
    next => cases h

section CodedTree

variable {nodes : List (Nat × Node)} {root : Root} {code : List (Nat × Code)} (h : CodedTree nodes root code)

include h

/-- A tree with a code has a root (R44, R46). -/
theorem CodedTree.root_valid {x : Nat} (hx : (codeAt code x).valid = true) : root.valid = true := by
  have hleaf := (codeOk_valid_iff h.nodeWf h.codeWf h.codeOk x).1 hx
  rcases treeOk_root h.nodeWf h.tree with ⟨-, rfl⟩ | ⟨hvalid, -⟩
  · cases hleaf
  · exact hvalid

variable {bytes : List Byte} (hcoded : ∀ b ∈ bytes, (codeAt code b.toNat).valid = true)

include hcoded

/-- With no root there is nothing to walk. -/
theorem CodedTree.bitSequence_eq_nil_or_root : bitSequence code bytes = [] ∨ root.valid = true := by
  cases bytes with
  | nil => exact Or.inl rfl
  | cons b rest => exact Or.inr (h.root_valid (hcoded b List.mem_cons_self))

/-- The Bit Sequence of a buffer decodes to the buffer and ends at the root (R162). -/
theorem CodedTree.decodeBits_eq :
    decodeBits nodes root.idx root.idx (bitSequence code bytes) = some (bytes, root.idx) := by
  have hdecode := decodeBits_bitSequence h.nodeWf h.tree h.codeWf h.codeOk bytes hcoded []
  simpa [decodeBits] using hdecode

/-- Zeros behind the Bit Sequence decode to the symbol of the all-zero code as often as its code fits; what is left of them
takes the walk away from the root (R161). -/
theorem CodedTree.decodeBits_padded {z : Byte} {d : Nat} (hz : (codeAt code z.toNat).valid = true)
    (hzeros : (codeAt code z.toNat).sequence = List.replicate d false) (p : Nat) :
    ∃ cur, decodeBits nodes root.idx root.idx (bitSequence code bytes ++ List.replicate p false) =
        some (bytes ++ List.replicate (p / d) z, cur) ∧ (cur ≠ root.idx ↔ p % d ≠ 0) := by
  obtain ⟨-, hpos, -, hpath⟩ := codeOk_at h.codeOk hz
  have hd : 0 < d := by
    have hlen := sequence_length (codeAt code z.toNat)
    rw [hzeros, List.length_replicate] at hlen
    exact hlen ▸ hpos
  have hr : p % d < d := Nat.mod_lt p hd
  have hsplit : List.replicate d false = List.replicate (p % d) false ++ List.replicate (d - p % d) false := by
    rw [List.replicate_append_replicate, Nat.add_sub_cancel' hr.le]
  have hbits : bitSequence code bytes ++ List.replicate p false =
      bitSequence code (bytes ++ List.replicate (p / d) z) ++ List.replicate (p % d) false := by
    rw [bitSequence_append, bitSequence_replicate_zeros hzeros, List.append_assoc, List.replicate_append_replicate,
      Nat.div_add_mod]
  have hall : ∀ b ∈ bytes ++ List.replicate (p / d) z, (codeAt code b.toNat).valid = true := by
    intro b hb
    rcases List.mem_append.1 hb with hb | hb
    · exact hcoded b hb
    · rwa [List.eq_of_mem_replicate hb]
  rw [hzeros, hsplit] at hpath
  obtain ⟨cur, hcur, hrest⟩ := decodeBits_path_start root.idx
    (fun hnil => absurd ((List.replicate_eq_nil_iff _).1 hnil) (Nat.sub_ne_zero_of_lt hr)) hpath
  refine ⟨cur, ?decode, ?ends⟩
  case decode =>
    rw [hbits, decodeBits_bitSequence h.nodeWf h.tree h.codeWf h.codeOk _ hall, hrest]
    simp
  case ends =>
    refine not_congr ⟨fun hroot => ?_, fun hnone => ?_⟩
    · have hlen := treeOk_path_length h.nodeWf h.tree (q := []) hcur (by rw [hroot]; rfl)
      simpa using hlen
    · rw [hnone] at hcur
      cases hcur
      rfl

end CodedTree

/-! ### Decoding what was packed (R161, R162) -/

section Decoding

variable {code : List (Nat × Code)} {bytes : List Byte} (htree : CodedTree s.node s.root code)
  (hcoded : ∀ b ∈ bytes, (codeAt code b.toNat).valid = true) (hpacked : HoldsPacked (bitSequence code bytes) t)

include htree hcoded hpacked

/-- A core that has the packed output as its input walks the Bit Sequence and as many of its padding bits as NBITS says. -/
theorem exec_unpack_packed {out : List Byte} (hready : ReadyToDecode s t u out.length) {k : Nat}
    (hk : k ≤ padding (bitSequence code bytes).length) (hcount : walkLength u = (bitSequence code bytes).length + k)
    {cur : NodeIdx}
    (hd : decodeBits s.node s.root.idx s.root.idx (bitSequence code bytes ++ List.replicate k false) = some (out, cur)) :
    ∃ v, UnpackEmits u v out ∧ v.status.decPartial = decide (cur ≠ s.root.idx) := by
  obtain ⟨hfault, hvalid, hnode, hroot, hin, hinFits, houtFits, hbytes⟩ := hready
  have hlen : 8 * u.inLen.toNat = (bitSequence code bytes).length + padding (bitSequence code bytes).length := by
    rw [hin, hpacked.outLen, add_padding]
  have hinput : packedInput u (walkLength u) = bitSequence code bytes ++ List.replicate k false := by
    rw [hcount]
    refine packedInput_of_packedBytes (fun j hj => Option.some.inj ?_) hk
    rw [← hpacked.bytes j hj, hbytes j (by rwa [hpacked.outLen])]
  have hstarts : WalkStarts u := by
    refine ⟨hfault, hvalid, by rwa [hin], fun hmode => ?range, ?root⟩
    case range =>
      rw [walkLength, if_pos hmode] at hcount
      omega
    case root =>
      rcases htree.bitSequence_eq_nil_or_root hcoded with hnil | hsome
      · rw [hnil] at hcount hk
        exact Or.inl (hcount.trans ((Nat.zero_add k).trans (Nat.le_zero.1 hk)))
      · exact Or.inr (by rwa [hroot])
  rw [← hnode, ← hroot, ← hinput] at hd
  rw [← hroot]
  exact exec_unpack_emits hstarts hd houtFits

/-- The walk over exactly the Bit Sequence: BITLEN bits in length mode (R162 (a)). -/
theorem exec_unpack_round_trip (hready : ReadyToDecode s t u bytes.length) (hcount : walkLength u = t.bitLen.toNat) :
    ∃ v, UnpackEmits u v bytes ∧ v.status.decPartial = false := by
  obtain ⟨v, hemits, hpartial⟩ := exec_unpack_packed htree hcoded hpacked hready (Nat.zero_le _)
    (by rw [hcount, hpacked.bitLen, Nat.add_zero])
    (by rw [List.replicate_zero, List.append_nil]; exact htree.decodeBits_eq hcoded)
  exact ⟨v, hemits, by simpa using hpartial⟩

/-- The walk over the Bit Sequence and all its padding bits: baseline mode (R161). -/
theorem exec_unpack_baseline {z : Byte} {d : Nat} (hz : (codeAt code z.toNat).valid = true)
    (hzeros : (codeAt code z.toNat).sequence = List.replicate d false)
    (hready : ReadyToDecode s t u (bytes.length + padding t.bitLen.toNat / d)) (hmode : u.lenEn = false) :
    ∃ v, UnpackEmits u v (bytes ++ List.replicate (padding t.bitLen.toNat / d) z) ∧
      (v.status.decPartial = true ↔ padding t.bitLen.toNat % d ≠ 0) := by
  obtain ⟨-, -, -, -, hin, -⟩ := id hready
  have hcount : walkLength u = (bitSequence code bytes).length + padding t.bitLen.toNat := by
    rw [walkLength, hmode, hpacked.bitLen, add_padding, ← hpacked.outLen, ← hin]
    rfl
  obtain ⟨cur, hdecode, hends⟩ := htree.decodeBits_padded hcoded hz hzeros (padding t.bitLen.toNat)
  obtain ⟨v, hemits, hpartial⟩ := exec_unpack_packed htree hcoded hpacked (by simpa using hready)
    (by rw [hpacked.bitLen]) hcount hdecode
  exact ⟨v, hemits, by rw [hpartial, decide_eq_true_iff]; exact hends⟩

end Decoding

/-- The room that the input needs, as a number of bytes. -/
theorem readyToDecode_inputBytes {r : State} {n : Nat} (h : ReadyToDecode s t u (r.inLen.toNat + n)) :
    ReadyToDecode s t u ((inputBytes r).length + n) := by
  rwa [inputBytes_length]

/-- A core that emitted the input again has its length in OUT_LEN. -/
theorem UnpackEmits.outLen_eq_inLen {v : State} (h : UnpackEmits u v (inputBytes s)) : v.outLen = s.inLen :=
  BitVec.eq_of_toNat_eq (h.outLen.trans (inputBytes_length s))

/-- Under the invariant a PACK without a fault had a code for every byte, and left the Packed Buffer (R143, R144). -/
theorem holdsPacked_of_exec_pack (hinv : Inv s) (hfault : s.status.fault = false) (h : exec .pack s = .next t)
    (hgood : t.status.fault = false) : AllCoded s ∧ HoldsPacked (bitSequence s.code (inputBytes s)) t := by
  obtain ⟨hsizes, -⟩ := hinv
  obtain ⟨p, hp, rfl⟩ := packRun_of_exec_pack hfault h hgood
  exact ⟨allCoded_of_packRun_ok hp, holdsPacked_storePacked (s := clearPack s) hsizes hp⟩

/-- Settles O58: the padding bits decode to the symbol of the all-zero code. -/
theorem baselineDecodingAddsThePadding : Obligations.BaselineDecodingAddsThePadding := by
  unfold Obligations.BaselineDecodingAddsThePadding
  rintro s t u z p d hinv hfault hcode hnext hgood rfl hz hzeros hready hmode
  obtain ⟨hcoded, hpacked⟩ := holdsPacked_of_exec_pack hinv hfault hnext hgood
  obtain ⟨v, hemits, hpartial⟩ :=
    exec_unpack_baseline (codedTree_of_inv hinv hcode) hcoded hpacked hz hzeros (readyToDecode_inputBytes hready) hmode
  exact ⟨v, hemits.exec_eq, hemits.fault, hemits.output, hpartial⟩

/-- Settles O56: the walk covers the Bit Sequence alone, or also padding bits that are too few for a code. -/
theorem packedBuffersRoundTrip : Obligations.PackedBuffersRoundTrip := by
  unfold Obligations.PackedBuffersRoundTrip
  intro s t u hinv hfault hcode hnext hgood hready
  obtain ⟨hcoded, hpacked⟩ := holdsPacked_of_exec_pack hinv hfault hnext hgood
  have htree := codedTree_of_inv hinv hcode
  refine ⟨fun hmode => ?exact, fun z d hmode hz hzeros hfew => ?padded⟩
  case exact =>
    obtain ⟨-, -, -, -, hin, -⟩ := id hready
    have hcount : walkLength u = t.bitLen.toNat := by
      rcases hmode with ⟨hmode, hbits⟩ | ⟨hmode, hwhole⟩
      · rw [walkLength, if_pos hmode, hbits]
      · have hpad := add_padding t.bitLen.toNat
        rw [padding, hwhole] at hpad
        rw [walkLength, hmode, hin, hpacked.outLen, ← hpacked.bitLen, ← hpad]
        rfl
    obtain ⟨v, hemits, hpartial⟩ :=
      exec_unpack_round_trip htree hcoded hpacked (readyToDecode_inputBytes (n := 0) hready) hcount
    exact ⟨v, hemits.exec_eq, hemits.fault, hemits.outValid, hemits.outLen_eq_inLen, hemits.output, hpartial⟩
  case padded =>
    have hnone : padding t.bitLen.toNat / d = 0 := Nat.div_eq_of_lt hfew
    have hleft : padding t.bitLen.toNat % d = padding t.bitLen.toNat := Nat.mod_eq_of_lt hfew
    obtain ⟨v, hemits, hpartial⟩ := exec_unpack_baseline htree hcoded hpacked hz hzeros
      (readyToDecode_inputBytes (by rwa [hnone])) hmode
    rw [hnone, List.replicate_zero, List.append_nil] at hemits
    rw [hleft, ← Nat.pos_iff_ne_zero] at hpartial
    exact ⟨v, hemits.exec_eq, hemits.fault, hemits.outValid, hemits.outLen_eq_inLen, hemits.output, hpartial⟩

/-- Settles O57: COMPRESS packs with the code table of its own tree, which the core that decodes holds. -/
theorem compressThenUnpackIsTheIdentity : Obligations.CompressThenUnpackIsTheIdentity := by
  unfold Obligations.CompressThenUnpackIsTheIdentity
  intro s t u hsizes hfault hnext hgood hready hmode hbits
  obtain ⟨code, p, hcode, hp, rfl⟩ := exec_compress_packed hfault hnext hgood
  have htree := codedTree_buffer (inputBytes_length_lt s) hcode
  have hpacked := holdsPacked_storePacked (s := packStageStart code s) hsizes hp
  obtain ⟨v, hemits, hpartial⟩ := exec_unpack_round_trip (s := storePacked p (packStageStart code s)) htree
    (allCoded_of_packRun_ok hp) hpacked (readyToDecode_inputBytes (n := 0) hready)
    (by rw [walkLength, if_pos hmode, hbits])
  exact ⟨v, hemits.exec_eq, hemits.fault, hemits.outLen_eq_inLen, hemits.output, hpartial⟩

end Sys2Proof.Machine

/-!
PROOF of O34. What UNPACK reads (spec 44_unpack.md R155; 90_conflicts.md C7): the walks of two cores that agree on the tree and
the input go the same way bit by bit and emit the same symbols, whatever their output buffers held before.
-/

namespace Sys2Proof.Machine

open Sys2Proof.Claims

variable {s s' t : State}

/-! ### Runs that end alike -/

section Runs

variable {α β : Type} {R : α → α → Prop}

/-- Both runs go on, or both raise the same fault, and what they have written is related by `R`; or both stop alike. -/
inductive Run.Alike (R : α → α → Prop) : Run α → Run α → Prop
  | ok {a a' : α} (h : R a a') : Alike R (.ok a) (.ok a')
  | raised {a a' : α} (c : FaultCode) (i : Word) (h : R a a') : Alike R (.raised c i a) (.raised c i a')
  | stopped (e : Fault) : Alike R (.stopped e) (.stopped e)

theorem runThen_alike {r r' : Run α} {g g' : α → Run α} (h : r.Alike R r') (hg : ∀ a a', R a a' → (g a).Alike R (g' a')) :
    (runThen r g).Alike R (runThen r' g') := by
  cases h with
  | ok h => exact hg _ _ h
  | raised c i h => exact .raised c i h
  | stopped e => exact .stopped e

/-- A loop whose rounds end alike ends alike. -/
theorem runFold_alike {f : α → β → Run α} (hf : ∀ a a' b, R a a' → (f a b).Alike R (f a' b)) {a a' : α} (h : R a a')
    (items : List β) : (runFold f a items).Alike R (runFold f a' items) := by
  induction items generalizing a a' with
  | nil => exact .ok h
  | cons b rest ih => exact runThen_alike (hf a a' b h) fun _ _ => ih

end Runs

/-! ### Walks over the same bits -/

/-- Two walkers that stand in the same slot and have emitted the same symbols. -/
structure SameWalk (w w' : Walker) : Prop where
  cur : w'.cur = w.cur
  optr : w'.sink.optr = w.sink.optr
  emitted : ∀ a < w.sink.optr, Memory.read? w'.sink.obuf a = Memory.read? w.sink.obuf a

theorem sameWalk_start (m m' : List Host.Cell) (cur : NodeIdx) :
    SameWalk { sink := { obuf := m, optr := 0 }, cur := cur } { sink := { obuf := m', optr := 0 }, cur := cur } :=
  ⟨rfl, rfl, fun a ha => absurd ha (Nat.not_lt_zero a)⟩

theorem SameWalk.move {w w' : Walker} (h : SameWalk w w') (c : NodeIdx) :
    SameWalk { w with cur := c } { w' with cur := c } :=
  ⟨rfl, h.optr, h.emitted⟩

theorem SameWalk.emit {w w' : Walker} (h : SameWalk w w') (v : Byte) (c : NodeIdx) :
    SameWalk { sink := { obuf := Memory.write w.sink.obuf w.sink.optr v, optr := w.sink.optr + 1 }, cur := c }
      { sink := { obuf := Memory.write w'.sink.obuf w'.sink.optr v, optr := w'.sink.optr + 1 }, cur := c } where
  cur := rfl
  optr := by rw [h.optr]
  emitted a ha := by
    simp only [Memory.read?_write, h.optr]
    split
    next => rfl
    next hne => exact h.emitted a (Nat.lt_of_le_of_ne (Nat.le_of_lt_succ ha) hne)

theorem walkBit_alike (nodes : List (Nat × Node)) (root : NodeIdx) (cap : Nat) (w w' : Walker) (item : Bool × Nat)
    (h : SameWalk w w') : (walkBit nodes root cap w item).Alike SameWalk (walkBit nodes root cap w' item) := by
  obtain ⟨b, n⟩ := item
  have hcur := h.cur
  cases hk : (nodeAt nodes (childOf (nodeAt nodes w.cur.toNat) b).toNat).kind with
  | leaf =>
    rw [walkBit_leaf hk, walkBit_leaf (by rwa [hcur]), h.optr, hcur]
    split
    next => exact .raised _ _ (h.move root)
    next => exact .ok (h.optr ▸ h.emit _ root)
  | unused =>
    rw [walkBit_unused hk, walkBit_unused (by rwa [hcur]), hcur]
    exact .raised _ _ (h.move _)
  | internal =>
    rw [walkBit_move (Or.inl hk), walkBit_move (Or.inl (by rwa [hcur])), hcur]
    exact .ok (h.move _)
  | empty =>
    rw [walkBit_move (Or.inr hk), walkBit_move (Or.inr (by rwa [hcur])), hcur]
    exact .ok (h.move _)

/-! ### Cores that agree on what UNPACK reads -/

/-- `s'` agrees with `s` on what UNPACK reads (R155). -/
structure SameForUnpack (s s' : State) : Prop where
  inLen : s'.inLen = s.inLen
  ibufCap : s'.ibufCap = s.ibufCap
  obufCap : s'.obufCap = s.obufCap
  lenEn : s'.lenEn = s.lenEn
  decBitLen : s'.decBitLen = s.decBitLen
  root : s'.root = s.root
  node : s'.node = s.node
  bytes : ∀ i < s.inLen.toNat, ibufByte s' i = ibufByte s i

theorem SameForUnpack.walkLength_eq (h : SameForUnpack s s') : walkLength s' = walkLength s := by
  simp only [walkLength, h.lenEn, h.decBitLen, h.inLen]

theorem SameForUnpack.walkStarts (h : SameForUnpack s s') (hstarts : WalkStarts s) (hfault : s'.status.fault = false)
    (htree : s'.status.treeValid = true) : WalkStarts s' := by
  obtain ⟨-, -, hchecks⟩ := hstarts
  refine ⟨hfault, htree, ?_⟩
  rwa [h.walkLength_eq, h.inLen, h.ibufCap, h.lenEn, h.decBitLen, h.root]

/-- A walk that starts reads no byte beyond the input (R156). -/
theorem walkLength_le (h : WalkStarts s) : walkLength s ≤ 8 * s.inLen.toNat := by
  obtain ⟨-, -, -, hlen, -⟩ := h
  unfold walkLength
  split
  next hmode => exact hlen hmode
  next => exact Nat.le_refl _

theorem SameForUnpack.packedInput_eq (h : SameForUnpack s s') {n : Nat} (hn : n ≤ 8 * s.inLen.toNat) :
    packedInput s' n = packedInput s n := by
  refine List.map_congr_left fun k hk => ?_
  have hk : k < n := List.mem_range.1 hk
  rw [h.bytes _ (by omega)]

theorem SameForUnpack.walkRun_alike (h : SameForUnpack s s') (hstarts : WalkStarts s) :
    (walkRun s).Alike SameWalk (walkRun s') := by
  unfold walkRun
  rw [bitCount_eq, bitCount_eq, inputBits_eq, inputBits_eq, h.walkLength_eq, h.packedInput_eq (walkLength_le hstarts),
    h.node, h.root, h.obufCap]
  exact runFold_alike (walkBit_alike _ _ _) (sameWalk_start _ _ _) _

theorem SameForUnpack.clearUnpack (h : SameForUnpack s s') : SameForUnpack (clearUnpack s) (clearUnpack s') :=
  ⟨h.inLen, h.ibufCap, h.obufCap, h.lenEn, h.decBitLen, h.root, h.node, h.bytes⟩

/-- What the host sees of an UNPACK: FAULT, the output, DEC_CUR, DEC_PARTIAL and OUT_VALID. -/
def SameAnswer (t t' : State) : Prop :=
  t'.status.fault = t.status.fault ∧ outputBytes t' = outputBytes t ∧ t'.decCur = t.decCur ∧
    t'.status.decPartial = t.status.decPartial ∧ t'.status.outValid = t.status.outValid

theorem SameWalk.outputBytes_eq {w w' : Walker} (h : SameWalk w w') (s s' : State) :
    outputBytes (storeWalked w' s') = outputBytes (storeWalked w s) := by
  simp only [outputBytes, storeWalked_outLen, storeWalked_obuf, h.optr]
  refine List.map_congr_left fun a ha => h.emitted a ?_
  exact (List.mem_range.1 ha).trans_le (by rw [BitVec.toNat_ofNat]; exact Nat.mod_le _ _)

/-- The output of a raised walk is empty on both sides: OUT_LEN was cleared before it (R155, R196). -/
theorem SameForUnpack.exec_unpack (h : SameForUnpack s s') (hstarts : WalkStarts s) (hstarts' : WalkStarts s')
    (hnext : exec .unpack s = .next t) : ∃ t', exec .unpack s' = .next t' ∧ SameAnswer t t' := by
  have hrun := h.clearUnpack.walkRun_alike hstarts
  rw [exec_unpack_eq hstarts, walkInto] at hnext
  rw [exec_unpack_eq hstarts', walkInto]
  obtain ⟨hfault, -⟩ := hstarts
  obtain ⟨hfault', -⟩ := hstarts'
  generalize walkRun (Machine.clearUnpack s) = r at hrun hnext
  generalize walkRun (Machine.clearUnpack s') = r' at hrun
  cases hrun with
  | ok hw =>
    cases hnext
    exact ⟨_, rfl, hfault'.trans hfault.symm, hw.outputBytes_eq _ _, hw.cur, congrArg₂ partialOf hw.cur h.root, rfl⟩
  | raised c i hw =>
    cases hnext
    exact ⟨_, rfl, rfl, rfl, rfl, rfl, rfl⟩
  | stopped e => cases hnext

/-- Settles O34: both walks start, and what they answer is the same. -/
theorem unpackReadsOnlyTheTreeAndTheInput : Obligations.UnpackReadsOnlyTheTreeAndTheInput := by
  unfold Obligations.UnpackReadsOnlyTheTreeAndTheInput
  intro s s' t hstarts hfault htree hin hicap hocap hmode hbits hroot hnode hbytes hnext
  have hsame : SameForUnpack s s' := ⟨hin, hicap, hocap, hmode, hbits, hroot, hnode, hbytes⟩
  exact hsame.exec_unpack hstarts (hsame.walkStarts hstarts hfault htree) hnext

end Sys2Proof.Machine

/-!
PROOF of O43. What UNPACK leaves unchanged (spec 44_unpack.md R155; 60_exceptions.md R196). The walker, like the packer,
reaches its output through `emit` alone, so it writes below OPTR; the other registers are seen in the states in which the body
of UNPACK can end.
-/

namespace Sys2Proof.Machine

open Sys2Proof.Claims

variable {s t : State}

/-! ### The walk writes its output below OPTR (R79) -/

theorem walkBit_leaves_sink {cap : Nat} {P : Sink → Prop} (hemit : ∀ k, P k → ∀ v, (emit cap v k).Leaves P)
    (nodes : List (Nat × Node)) (root : NodeIdx) {w : Walker} (h : P w.sink) (item : Bool × Nat) :
    (walkBit nodes root cap w item).Leaves (fun w => P w.sink) := by
  unfold walkBit
  dsimp only
  split
  next => exact runMap_leaves (hemit _ h _) (fun _ hk => hk)
  all_goals exact h

theorem walkRun_leaves_writtenBelowOptr (s : State) : (walkRun s).Leaves (fun w => WrittenBelowOptr s.obuf w.sink) :=
  runFold_leaves
    (fun _ item hw => walkBit_leaves_sink (fun _ hk v => emit_leaves_writtenBelowOptr _ hk v) s.node s.root.idx hw item)
    (fun _ _ => rfl) _

/-! ### What the body of UNPACK leaves (R155, R196) -/

/-- The body ends after its clears, after the stores of a finished walk, or where the walk raised. -/
theorem unpackBody_leaves {P : State → Prop} (hclear : P (clearUnpack s))
    (hok : ∀ w, walkRun (clearUnpack s) = .ok w → P (storeWalked w (clearUnpack s)))
    (hraised : ∀ c i w, walkRun (clearUnpack s) = .raised c i w → P { clearUnpack s with obuf := w.sink.obuf }) :
    (unpackBody s).Leaves P := by
  rw [unpackBody_eq]
  split_ifs
  · exact hclear
  · exact hclear
  · exact walkInto_leaves hok hraised
  · exact hclear
  · exact hclear

theorem unpackBody_leaves_faultRegisters (s : State) :
    (unpackBody s).Leaves (fun u => u.errCode = s.errCode ∧ u.errInfo = s.errInfo) :=
  unpackBody_leaves ⟨rfl, rfl⟩ (fun _ _ => ⟨rfl, rfl⟩) (fun _ _ _ _ => ⟨rfl, rfl⟩)

/-- OBUF reads as before from the OPTR of UNPACK's walk on. -/
def ObufKeptFromWalkOptr (s t : State) : Prop :=
  ∀ a, walkedCount (walkRun (clearUnpack s)) ≤ a → Memory.read? t.obuf a = Memory.read? s.obuf a

theorem unpackBody_leaves_obufKeptFromWalkOptr (s : State) : (unpackBody s).Leaves (ObufKeptFromWalkOptr s) := by
  have hrun := walkRun_leaves_writtenBelowOptr (clearUnpack s)
  refine unpackBody_leaves (fun _ _ => rfl) (fun w hw a ha => ?_) (fun c i w hw a ha => ?_)
  all_goals
    rw [hw] at hrun ha
    exact hrun a ha

/-- All but OBUF, OUT_LEN, DEC_CUR, OUT_VALID, DEC_PARTIAL and the fault registers is as before. -/
def UnpackTouchesOnly (s t : State) : Prop :=
  t = { s with
        obuf := t.obuf, outLen := t.outLen, decCur := t.decCur, errCode := t.errCode, errInfo := t.errInfo
        status := { s.status with
          outValid := t.status.outValid, decPartial := t.status.decPartial, fault := t.status.fault } }

theorem UnpackTouchesOnly.refl (s : State) : UnpackTouchesOnly s s := rfl

theorem unpackBody_leaves_unpackTouchesOnly (s : State) : (unpackBody s).Leaves (UnpackTouchesOnly s) :=
  unpackBody_leaves rfl (fun _ _ => rfl) (fun _ _ _ _ => rfl)

theorem UnpackTouchesOnly.raiseFault (h : UnpackTouchesOnly s t) (c : FaultCode) (i : Word) :
    UnpackTouchesOnly s (raiseFault c i t) := by
  rw [UnpackTouchesOnly, h]
  rfl

theorem UnpackTouchesOnly.ibuf_eq (h : UnpackTouchesOnly s t) : t.ibuf = s.ibuf := by rw [h]

/-- Settles O43: the body of UNPACK meets each part of the frame, and latching a fault keeps it. -/
theorem unpackFrame : Obligations.UnpackFrame := by
  unfold Obligations.UnpackFrame
  intro s t (hnext : gated unpackBody s = .next t)
  have hframe : UnpackTouchesOnly s t :=
    gated_keeps (P := UnpackTouchesOnly s) (fun c i _ hu => hu.raiseFault c i) (.refl s)
      (unpackBody_leaves_unpackTouchesOnly s) hnext
  have hobuf : ObufKeptFromWalkOptr s t :=
    gated_keeps (P := ObufKeptFromWalkOptr s) (fun _ _ _ hu => hu) (fun _ _ => rfl)
      (unpackBody_leaves_obufKeptFromWalkOptr s) hnext
  have hfault := gated_keeps_faultRegisters (unpackBody_leaves_faultRegisters s) hnext
  exact ⟨fun a => by rw [hframe.ibuf_eq], hobuf, hfault, hframe⟩

end Sys2Proof.Machine

/-!
PROOF of O15, O16, O17, O35, O36, O37 and O44. The control commands and COMPRESS (spec 45_control_compound.md R170 to R173).
The input always has a code table, so past the fault gate COMPRESS is one of two things: IN_RANGE raised after the clears, or
the packing part of PACK from the state in which the first four commands leave the core.
-/

namespace Sys2Proof.Machine

open Sys2Proof.Claims

variable {s t u : State}

/-! ### NOP, RST and DISCARD (R170 to R172) -/

/-- Settles O16: NOP is answered with the state itself. -/
theorem nopLeavesEveryStateAsItIs : Obligations.NopLeavesEveryStateAsItIs := by
  unfold Obligations.NopLeavesEveryStateAsItIs
  exact fun _ => rfl

/-- After RST every register of space REG but the two capacities reads 0 (R55, R171). -/
theorem regWord_softReset (s : State) {n : Nat} (hibuf : n ≠ 12) (hobuf : n ≠ 13) : regWord (softReset s) n = 0 := by
  match n with
  | 1 => exact (by decide : Status.clear.word = 0)
  | 8 => exact (by decide : Root.zero.word = 0)
  | 0 | 2 | 3 | 4 | 5 | 6 | 7 | 9 | 10 | 11 => rfl
  | 12 => exact absurd rfl hibuf
  | 13 => exact absurd rfl hobuf
  | n + 14 => exact regWord_reserved _ (Nat.le_add_left 14 n)

/-- Settles O15: RST is the soft reset, whatever FAULT is. -/
theorem rstZeroesEveryRegister : Obligations.RstZeroesEveryRegister := by
  unfold Obligations.RstZeroesEveryRegister
  intro s
  exact ⟨softReset s, rfl, fun _ => regWord_softReset s, rfl, rfl, rfl, rfl, rfl, ⟨fun _ => rfl, fun _ => rfl⟩, rfl, rfl⟩

/-- DISCARD with no fault latched throws the codec state away (R172). -/
theorem exec_discard_eq (hfault : s.status.fault = false) : exec .discard s = .next (clearCodec s) :=
  gated_of_no_fault discardBody hfault

/-- Settles O17: the gate answers the state itself; past it DISCARD clears the codec state. -/
theorem discardClearsTheCodecState : Obligations.DiscardClearsTheCodecState := by
  unfold Obligations.DiscardClearsTheCodecState
  exact fun s => ⟨gated_of_fault discardBody, fun hfault =>
    ⟨clearCodec s, exec_discard_eq hfault, rfl, ⟨fun _ => rfl, fun _ => rfl⟩, rfl, rfl, rfl⟩⟩

/-! ### Commands one after another (R197) -/

/-- The fault gate stands before every command but RST. -/
theorem exec_of_fault {i : Instr} (hi : i ≠ .rst) (hfault : s.status.fault = true) : exec i s = .next s := by
  cases i with
  | nop => rfl
  | rst => exact absurd rfl hi
  | freq => exact gated_of_fault freqBody hfault
  | build => exact gated_of_fault buildBody hfault
  | gencode => exact gated_of_fault gencodeBody hfault
  | pack => exact gated_of_fault packBody hfault
  | unpack => exact gated_of_fault unpackBody hfault
  | compress => exact gated_of_fault compressBody hfault
  | discard => exact gated_of_fault discardBody hfault

theorem execAll_cons {i : Instr} (h : exec i s = .next u) (rest : List Instr) :
    execAll (i :: rest) s = execAll rest u := by
  rw [execAll, h]

theorem execAll_singleton (i : Instr) (s : State) : execAll [i] s = exec i s := by
  rw [execAll]
  cases exec i s <;> rfl

/-- A fault that one command latches is sticky: the others are ignored, up to a RST. -/
theorem execAll_of_fault {is : List Instr} (his : .rst ∉ is) (hfault : s.status.fault = true) :
    execAll is s = .next s := by
  induction is with
  | nil => rfl
  | cons i rest ih =>
    obtain ⟨hi, hrest⟩ := List.ne_and_not_mem_of_not_mem_cons his
    rw [execAll_cons (exec_of_fault (Ne.symm hi) hfault), ih hrest]

/-! ### What COMPRESS is past the gate (R173) -/

/-- The tree of the input has a code table: its traversal ends (R113). -/
theorem codeTable_input (s : State) :
    codeTable (treeOf (frequencyTable (inputBytes s))).1 (treeOf (frequencyTable (inputBytes s))).2 =
      some (inputCode s) := by
  obtain ⟨hw, ht, -⟩ := treeOf_buffer_ok (inputBytes_length_lt s)
  obtain ⟨code, hcode, -⟩ := codeTable_ok hw ht
  simp only [inputCode, hcode, Option.getD_some]

/-- The state after a FREQ whose input is in range (R100). -/
def afterFreq (s : State) : State := storeFreq (frequencyTable (inputBytes s)) (clearFreq s)

/-- The state after FREQ and BUILD (R110). -/
def afterBuild (s : State) : State := storeTree (clearTree (afterFreq s))

/-- The state after FREQ, BUILD and GENCODE (R130). -/
def afterGencode (s : State) : State := storeCode (inputCode s) (clearCode (afterBuild s))

theorem freqBody_in_range (hin : s.inLen.toNat ≤ s.ibufCap.toNat) : freqBody s = .ok (afterFreq s) := by
  rw [freqBody_eq, if_pos hin, afterFreq]

theorem freqBody_out_of_range (hout : s.ibufCap.toNat < s.inLen.toNat) :
    freqBody s = .raised .inRange s.inLen (clearFreq s) := by
  rw [freqBody_eq, if_neg (Nat.not_le_of_lt hout)]

theorem buildBody_afterFreq (s : State) : buildBody (afterFreq s) = .ok (afterBuild s) := rfl

theorem gencodeBody_afterBuild (s : State) : gencodeBody (afterBuild s) = .ok (afterGencode s) := by
  have hcode : codeTable (clearCode (afterBuild s)).node (clearCode (afterBuild s)).root = some (inputCode s) :=
    codeTable_input s
  have htree : (afterBuild s).status.treeValid = true := rfl
  rw [gencodeBody_eq, if_pos htree, generate, hcode, afterGencode]

/-- The output registers that COMPRESS clears at its start are cleared again at the start of PACK. -/
theorem clearPack_afterGencode (s : State) : clearPack (afterGencode (clearCodec s)) = packStageStart (inputCode s) s := rfl

theorem clearPack_afterGencode_clearPack (s : State) :
    clearPack (afterGencode (clearCodec (clearPack s))) = packStageStart (inputCode s) s := rfl

/-- With its input in range COMPRESS gets through its first three stages. -/
theorem beforePackStage_in_range (hin : s.inLen.toNat ≤ s.ibufCap.toNat) :
    beforePackStage s = .ok (afterGencode (clearCodec (clearPack s))) := by
  rw [beforePackStage, freqBody_in_range (s := clearCodec (clearPack s)) hin, runThen_ok, buildBody_afterFreq, runThen_ok,
    gencodeBody_afterBuild]

/-- The state in which COMPRESS raises IN_RANGE. -/
def freqStageStart (s : State) : State := clearFreq (clearCodec (clearPack s))

theorem beforePackStage_out_of_range (hout : s.ibufCap.toNat < s.inLen.toNat) :
    beforePackStage s = .raised .inRange s.inLen (freqStageStart s) := by
  have hfreq := freqBody_out_of_range (s := clearCodec (clearPack s)) hout
  rw [beforePackStage, hfreq]
  rfl

theorem compressBody_in_range (hin : s.inLen.toNat ≤ s.ibufCap.toNat) :
    compressBody s = packInto (packStageStart (inputCode s) s) := by
  rw [compressBody_eq, beforePackStage_in_range hin, runThen_ok]
  exact ((packBody_eq _).trans (if_pos rfl)).trans (if_pos hin)

theorem compressBody_out_of_range (hout : s.ibufCap.toNat < s.inLen.toNat) :
    compressBody s = .raised .inRange s.inLen (freqStageStart s) := by
  rw [compressBody_eq, beforePackStage_out_of_range hout, runThen_raised]

theorem exec_compress_in_range (hfault : s.status.fault = false) (hin : s.inLen.toNat ≤ s.ibufCap.toNat) :
    exec .compress s = runFinish (packInto (packStageStart (inputCode s) s)) := by
  rw [← compressBody_in_range hin]
  exact gated_of_no_fault compressBody hfault

theorem exec_compress_out_of_range (hfault : s.status.fault = false) (hout : s.ibufCap.toNat < s.inLen.toNat) :
    exec .compress s = .next (raiseFault .inRange s.inLen (freqStageStart s)) := by
  rw [← runFinish_raised, ← compressBody_out_of_range hout]
  exact gated_of_no_fault compressBody hfault

/-! ### COMPRESS and the five commands (R173) -/

/-- With the input in range the five commands start packing in the state in which COMPRESS does. -/
theorem execAll_fiveCommands_in_range (hfault : s.status.fault = false) (hin : s.inLen.toNat ≤ s.ibufCap.toNat) :
    execAll [.discard, .freq, .build, .gencode, .pack] s = runFinish (packInto (packStageStart (inputCode s) s)) := by
  have hfreq : exec .freq (clearCodec s) = .next (afterFreq (clearCodec s)) := exec_freq_counts (s := clearCodec s) hfault hin
  have hbuild : exec .build (afterFreq (clearCodec s)) = .next (afterBuild (clearCodec s)) :=
    exec_build_stores (s := afterFreq (clearCodec s)) hfault rfl
  have hgencode : exec .gencode (afterBuild (clearCodec s)) = .next (afterGencode (clearCodec s)) :=
    exec_gencode_stores (s := afterBuild (clearCodec s)) hfault rfl (codeTable_input s)
  rw [execAll_cons (exec_discard_eq hfault), execAll_cons hfreq, execAll_cons hbuild, execAll_cons hgencode,
    execAll_singleton, ← clearPack_afterGencode]
  exact exec_pack_eq (s := afterGencode (clearCodec s)) hfault rfl hin

/-- With the input out of range the five commands end in the fault that FREQ latches. -/
theorem execAll_fiveCommands_out_of_range (hfault : s.status.fault = false) (hout : s.ibufCap.toNat < s.inLen.toNat) :
    execAll [.discard, .freq, .build, .gencode, .pack] s =
      .next (raiseFault .inRange s.inLen (clearFreq (clearCodec s))) := by
  have hfreq : exec .freq (clearCodec s) = .next (raiseFault .inRange s.inLen (clearFreq (clearCodec s))) :=
    (exec_freq_eq (s := clearCodec s) hfault).trans (congrArg _ (if_neg (Nat.not_le_of_lt hout)))
  rw [execAll_cons (exec_discard_eq hfault), execAll_cons hfreq]
  exact execAll_of_fault (by decide) rfl

/-- A latched fault is not a state without a fault. -/
theorem next_raiseFault_ne (hgood : t.status.fault = false) (c : FaultCode) (i : Word) (u : State) :
    (Host.Outcome.next (raiseFault c i u) : Host.Outcome State Fault Refusal) ≠ .next t := by
  intro h
  cases h
  cases hgood

/-- Settles O35: with the input in range both are one packing run, otherwise both end in a fault. -/
theorem compressIsTheFiveCommands : Obligations.CompressIsTheFiveCommands := by
  unfold Obligations.CompressIsTheFiveCommands
  intro s t hfault hgood
  rcases Nat.lt_or_ge s.ibufCap.toNat s.inLen.toNat with hout | hin
  · rw [exec_compress_out_of_range hfault hout, execAll_fiveCommands_out_of_range hfault hout]
    exact iff_of_false (next_raiseFault_ne hgood _ _ _) (next_raiseFault_ne hgood _ _ _)
  · rw [exec_compress_in_range hfault hin, execAll_fiveCommands_in_range hfault hin]

/-! ### What COMPRESS leaves with its input in range (R143, R173, R191) -/

/-- Every byte of the input has a code when COMPRESS starts packing: NO_CODE is not raised. -/
theorem allCoded_packStageStart (s : State) : AllCoded (packStageStart (inputCode s) s) :=
  fun _ hb => code_valid_buffer (inputBytes_length_lt s) (codeTable_input s) hb

/-- A packing run of coded bytes that fit ends, with their Packed Buffer below OPTR (R89, R143). -/
theorem packRun_fits (hcoded : AllCoded s) (hfit : bytesFor (bitSequence s.code (inputBytes s)).length ≤ s.obufCap.toNat) :
    ∃ p, packRun s = .ok p ∧ ∀ a, Memory.read? p.sink.obuf a =
      if a < bytesFor (bitSequence s.code (inputBytes s)).length then some (packedByte (bitSequence s.code (inputBytes s)) a)
      else Memory.read? s.obuf a := by
  obtain ⟨p, hp, -, -, hobuf⟩ := (if_pos hfit).mp (packRun_spec s hcoded)
  exact ⟨p, hp, hobuf⟩

/-- A packing run of coded bytes that do not fit raises OUT_OVERFLOW(OBUF_SIZE) (R191). -/
theorem packRun_full (hcoded : AllCoded s) (hfull : ¬bytesFor (bitSequence s.code (inputBytes s)).length ≤ s.obufCap.toNat) :
    ∃ p, packRun s = .raised .outOverflow s.obufCap p := by
  obtain ⟨p, hp, -⟩ := (if_neg hfull).mp (packRun_spec s hcoded)
  rw [BitVec.ofNat_toNat, BitVec.setWidth_eq] at hp
  exact ⟨p, hp⟩

/-- The packed bytes fit: COMPRESS stores the packing. -/
theorem exec_compress_fits (hfault : s.status.fault = false) (hin : s.inLen.toNat ≤ s.ibufCap.toNat)
    (hfit : bytesFor (compressedBits s).length ≤ s.obufCap.toNat) :
    ∃ p, exec .compress s = .next (storePacked p (packStageStart (inputCode s) s)) ∧
      packRun (packStageStart (inputCode s) s) = .ok p ∧
      ∀ a, Memory.read? p.sink.obuf a =
        if a < bytesFor (compressedBits s).length then some (packedByte (compressedBits s) a)
        else Memory.read? s.obuf a := by
  obtain ⟨p, hp, hobuf⟩ := packRun_fits (allCoded_packStageStart s) hfit
  refine ⟨p, ?_, hp, hobuf⟩
  rw [exec_compress_in_range hfault hin, packInto, hp, runFinish_ok]

/-- The packed bytes do not fit: COMPRESS raises OUT_OVERFLOW with the bytes written so far in OBUF. -/
theorem exec_compress_overflow (hfault : s.status.fault = false) (hin : s.inLen.toNat ≤ s.ibufCap.toNat)
    (hfull : ¬bytesFor (compressedBits s).length ≤ s.obufCap.toNat) :
    ∃ m, exec .compress s =
      .next (raiseFault .outOverflow s.obufCap { packStageStart (inputCode s) s with obuf := m }) := by
  obtain ⟨p, hp⟩ := packRun_full (allCoded_packStageStart s) hfull
  refine ⟨p.sink.obuf, ?_⟩
  rw [exec_compress_in_range hfault hin, packInto, hp]
  rfl

/-- Settles O36: the packer holds the Packed Buffer, and the sizes of R4 keep BITLEN and OUT_LEN from wrapping. -/
theorem compressCompletes : Obligations.CompressCompletes := by
  unfold Obligations.CompressCompletes
  intro s hsizes hfault hin hfit
  obtain ⟨p, hexec, hp, hobuf⟩ := exec_compress_fits hfault hin hfit
  have hpacked : HoldsPacked (compressedBits s) (storePacked p (packStageStart (inputCode s) s)) :=
    holdsPacked_storePacked (s := packStageStart (inputCode s) s) hsizes hp
  refine ⟨_, hexec, rfl, storeFreq_nsym_toNat _ s, rfl, hpacked.bitLen, ?outLen, fun x _ => ?counts, fun a => ?obuf, rfl⟩
  case outLen => rw [hpacked.outLen, hpacked.bitLen]
  case counts => exact (freqAt_frequencyTable_toNat (inputBytes_length_lt s) x).trans (countP_inputBytes _ s)
  case obuf =>
    rw [hpacked.outLen]
    exact hobuf a

/-- Settles O37: with the input in range every byte has a code, so only OBUF can be too small. -/
theorem compressRaisesOnlyInRangeOrOutOverflow : Obligations.CompressRaisesOnlyInRangeOrOutOverflow := by
  unfold Obligations.CompressRaisesOnlyInRangeOrOutOverflow
  intro s hfault
  rcases Nat.lt_or_ge s.ibufCap.toNat s.inLen.toNat with hout | hin
  · exact ⟨_, exec_compress_out_of_range hfault hout, fun _ =>
      ⟨rfl, rfl, rfl, .inl ⟨hout, rfl, rfl, rfl, rfl, rfl, rfl, rfl, rfl⟩⟩⟩
  · by_cases hfit : bytesFor (compressedBits s).length ≤ s.obufCap.toNat
    · obtain ⟨p, hexec, -⟩ := exec_compress_fits hfault hin hfit
      refine ⟨_, hexec, fun hlatched : s.status.fault = true => ?_⟩
      rw [hfault] at hlatched
      cases hlatched
    · obtain ⟨m, hexec⟩ := exec_compress_overflow hfault hin hfit
      exact ⟨_, hexec, fun _ => ⟨rfl, rfl, rfl, .inr ⟨hin, rfl, rfl, rfl, rfl, rfl⟩⟩⟩

/-! ### What COMPRESS leaves unchanged (R146, R173, R196) -/

/-- The body ends after its clears, after the stores of a finished packing, or where the packing raised. -/
theorem compressBody_leaves {P : State → Prop} (hclear : P (freqStageStart s))
    (hok : ∀ p, s.inLen.toNat ≤ s.ibufCap.toNat → packRun (packStageStart (inputCode s) s) = .ok p →
      P (storePacked p (packStageStart (inputCode s) s)))
    (hraised : ∀ c i p, s.inLen.toNat ≤ s.ibufCap.toNat → packRun (packStageStart (inputCode s) s) = .raised c i p →
      P { packStageStart (inputCode s) s with obuf := p.sink.obuf }) :
    (compressBody s).Leaves P := by
  rcases Nat.lt_or_ge s.ibufCap.toNat s.inLen.toNat with hout | hin
  · rw [compressBody_out_of_range hout]
    exact hclear
  · rw [compressBody_in_range hin]
    exact packInto_leaves (fun p => hok p hin) (fun c i p => hraised c i p hin)

theorem compressBody_leaves_faultRegisters (s : State) :
    (compressBody s).Leaves (fun u => u.errCode = s.errCode ∧ u.errInfo = s.errInfo) :=
  compressBody_leaves ⟨rfl, rfl⟩ (fun _ _ _ => ⟨rfl, rfl⟩) (fun _ _ _ _ _ => ⟨rfl, rfl⟩)

/-- The OPTR of a COMPRESS with its input in range is that of its packing run. -/
theorem compressedCount_in_range (hfault : s.status.fault = false) (hin : s.inLen.toNat ≤ s.ibufCap.toNat) :
    compressedCount s = packedCount (packRun (packStageStart (inputCode s) s)) := by
  rw [compressedCount, hfault, beforePackStage_in_range hin, ← clearPack_afterGencode_clearPack]
  exact if_neg Bool.false_ne_true

/-- With its input out of range COMPRESS stores nothing. -/
theorem compressedCount_out_of_range (hout : s.ibufCap.toNat < s.inLen.toNat) : compressedCount s = 0 := by
  unfold compressedCount
  rw [beforePackStage_out_of_range hout]
  exact ite_self 0

/-- OBUF reads as before from the OPTR of COMPRESS on. -/
def ObufKeptFromCompressOptr (s t : State) : Prop :=
  ∀ a, compressedCount s ≤ a → Memory.read? t.obuf a = Memory.read? s.obuf a

theorem compressBody_leaves_obufKeptFromCompressOptr (hfault : s.status.fault = false) :
    (compressBody s).Leaves (ObufKeptFromCompressOptr s) := by
  have hrun := packRun_leaves_writtenBelowOptr (packStageStart (inputCode s) s)
  refine compressBody_leaves (fun _ _ => rfl) (fun p hin hp a ha => ?_) (fun c i p hin hp a ha => ?_)
  all_goals
    rw [compressedCount_in_range hfault hin, hp] at ha
    rw [hp] at hrun
    exact hrun a ha

/-- What COMPRESS does not write: CTRL, IN_LEN, DEC_BITLEN, DEC_CUR, DEC_PARTIAL, the capacities, IBUF and the host's side. -/
def CompressTouchesOnly (s t : State) : Prop :=
  t = { s with
        freq := t.freq, node := t.node, code := t.code, obuf := t.obuf, nsym := t.nsym, root := t.root
        outLen := t.outLen, bitLen := t.bitLen, errCode := t.errCode, errInfo := t.errInfo
        status := { t.status with decPartial := s.status.decPartial } }

theorem CompressTouchesOnly.refl (s : State) : CompressTouchesOnly s s := rfl

theorem compressBody_leaves_compressTouchesOnly (s : State) : (compressBody s).Leaves (CompressTouchesOnly s) :=
  compressBody_leaves rfl (fun _ _ _ => rfl) (fun _ _ _ _ _ => rfl)

theorem CompressTouchesOnly.raiseFault (h : CompressTouchesOnly s t) (c : FaultCode) (i : Word) :
    CompressTouchesOnly s (raiseFault c i t) := by
  rw [CompressTouchesOnly, h]
  rfl

theorem CompressTouchesOnly.ibuf_eq (h : CompressTouchesOnly s t) : t.ibuf = s.ibuf := by rw [h]

theorem exec_compress_keeps_obuf (h : exec .compress s = .next t) : ObufKeptFromCompressOptr s t := by
  cases hfault : s.status.fault with
  | true =>
    cases eq_of_gated (body := compressBody) hfault h
    exact fun _ _ => rfl
  | false =>
    exact gated_keeps (P := ObufKeptFromCompressOptr s) (fun _ _ _ hu => hu) (fun _ _ => rfl)
      (compressBody_leaves_obufKeptFromCompressOptr hfault) h

/-- Settles O44: the body of COMPRESS meets each part of the frame, and latching a fault keeps it. -/
theorem compressFrame : Obligations.CompressFrame := by
  unfold Obligations.CompressFrame
  intro s t (hnext : gated compressBody s = .next t)
  have hframe : CompressTouchesOnly s t :=
    gated_keeps (P := CompressTouchesOnly s) (fun c i _ hu => hu.raiseFault c i) (.refl s)
      (compressBody_leaves_compressTouchesOnly s) hnext
  have hobuf := exec_compress_keeps_obuf hnext
  refine ⟨fun a => by rw [hframe.ibuf_eq], hobuf, fun hfault => eq_of_gated hfault hnext, fun hout a => ?_,
    gated_keeps_faultRegisters (compressBody_leaves_faultRegisters s) hnext, hframe⟩
  exact hobuf a (by rw [compressedCount_out_of_range hout]; exact Nat.zero_le a)

end Sys2Proof.Machine

/-!
PROOF of O5, O6, O7, O27, O28, O30, O31, O32, O33, O38, O39 and O45. Faults (spec 60_exceptions.md R186 to R201): where each is
raised, and the fault gate. A fault is raised by the port, by a check of a command body, or inside a packing run or a walk; the
state a command then leaves is its clears, with the bytes written so far and the fault latched.
-/

namespace Sys2Proof.Machine

open Sys2Proof.Claims

variable {s t u : State}

/-! ### The idle core (R212) and an illegal command word (R187) -/

/-- Settles O5: with no access pending a step answers the state itself. -/
theorem idleCoreKeepsAllState : Obligations.IdleCoreKeepsAllState := by
  unfold Obligations.IdleCoreKeepsAllState
  intro s hport
  rw [step, hport]

/-- A pending command word is served by a write to CMD (R22). -/
theorem step_of_commandPending {w : Word} {rest : List Access} (h : CommandPending s w rest) :
    step s = issueCommand w { s with port := rest } :=
  step_of_port h

/-- Settles O6: the decoder rejects the word, and the port raises ILLEGAL_CMD. -/
theorem illegalCommandIsLatched : Obligations.IllegalCommandIsLatched := by
  unfold Obligations.IllegalCommandIsLatched
  intro s w rest hpending hw hfault
  rw [step_of_commandPending hpending]
  exact issueCommand_illegal (s := { s with port := rest }) hw hfault

/-! ### The fault gate (R197, R200, R201) -/

/-- While a fault is latched a write to CMD of any word but that of RST is ignored, be the word legal or not. -/
theorem issueCommand_of_fault {w : Word} (hw : w ≠ encode .rst) (hfault : s.status.fault = true) :
    issueCommand w s = .next s := by
  unfold issueCommand
  split
  next i hdec =>
    have hi : i ≠ .rst := fun hrst => hw (hrst ▸ encode_of_decode hdec)
    exact exec_of_fault hi hfault
  next => rw [illegalCommand, if_pos hfault]

theorem step_of_write {sp : Space} {idx v : Word} {rest : List Access} (h : s.port = .write sp idx v :: rest) :
    step s = hostWrite sp idx v { s with port := rest } :=
  step_of_port h

/-- Settles O7: the gate answers the state itself; a read and the other writes do not pass through it. -/
theorem faultGateIgnoresEveryCommandButRst : Obligations.FaultGateIgnoresEveryCommandButRst := by
  unfold Obligations.FaultGateIgnoresEveryCommandButRst
  intro s rest hfault
  refine ⟨fun w hpending hw => ?command, fun sp idx hport => ?read, fun v hport => ?ctrl, fun v hport => ?inLen,
    fun v hport => ?decBitLen, fun idx v hport hin => ?ibuf⟩
  case command =>
    rw [step_of_commandPending hpending]
    exact issueCommand_of_fault (s := { s with port := rest }) hw hfault
  case read => exact ⟨_, step_of_port hport, rfl⟩
  case ctrl | inLen | decBitLen =>
    rw [step_of_write hport]
    exact hostWrite_reg (by decide) v _
  case ibuf =>
    have hwrite := hostWrite_ibuf_inside (s := { s with port := rest }) hin v
    exact ⟨_, (step_of_write hport).trans hwrite, by rw [Memory.read?_write, if_pos rfl]⟩

/-- The core is faulted, with the code and the information that it had in `s`. -/
def FirstFaultKept (s t : State) : Prop := t.status.fault = true ∧ t.errCode = s.errCode ∧ t.errInfo = s.errInfo

theorem FirstFaultKept.refl (hfault : s.status.fault = true) : FirstFaultKept s s := ⟨hfault, rfl, rfl⟩

/-- Of the accesses only a reset and the word of RST in CMD touch a latched fault. -/
theorem serve_keeps_firstFault {a : Access} (hreset : a ≠ .reset) (hrst : a ≠ Access.command (encode .rst))
    (hfault : s.status.fault = true) (h : serve a s = .next t) : FirstFaultKept s t := by
  cases a with
  | read space index => cases h; exact .refl hfault
  | reset => exact absurd rfl hreset
  | write space index v =>
    by_cases hcmd : space = .reg ∧ index = 0
    · obtain ⟨rfl, rfl⟩ := hcmd
      have hv : v ≠ encode .rst := fun hv => hrst (congrArg Access.command hv)
      have hignored : serve (.write .reg 0 v) s = .next s := issueCommand_of_fault hv hfault
      rw [hignored] at h
      cases h
      exact .refl hfault
    · have hframe : HostWriteFrame s t := hostWrite_frame hcmd h
      rw [hframe]
      exact .refl hfault

/-- Settles O45: a step does nothing or serves an access, and only two accesses touch a latched fault. -/
theorem onlyRstOrResetLeavesAFault : Obligations.OnlyRstOrResetLeavesAFault := by
  unfold Obligations.OnlyRstOrResetLeavesAFault
  intro s t hfault hnext
  match hport : s.port with
  | [] =>
    rw [step, hport] at hnext
    cases hnext
    exact Or.inl (FirstFaultKept.refl hfault)
  | a :: rest =>
    rw [step_of_port hport] at hnext
    by_cases hreset : a = .reset
    · exact Or.inr (Or.inl ⟨rest, by rw [hreset]⟩)
    by_cases hrst : a = Access.command (encode .rst)
    · exact Or.inr (Or.inr ⟨rest, by rw [CommandPending, hport, hrst]; rfl⟩)
    · exact Or.inl (serve_keeps_firstFault (s := { s with port := rest }) hreset hrst hfault hnext)

/-! ### Faults of the checks (R188, R190, R194, R195)

Each check of a body comes after the clears of its command and before any write to a memory, so the state at the raise is that
of the clears. -/

/-- Past the gate a body that raises leaves what it has written, with the fault latched (R196). -/
theorem gated_raised {body : State → Run State} (hfault : s.status.fault = false) {c : FaultCode} {i : Word}
    (h : body s = .raised c i u) : gated body s = .next (raiseFault c i u) := by
  rw [gated_of_no_fault body hfault, h, runFinish_raised]

/-- Settles O38: the check of the table is the first of each body. -/
theorem missingTablesAreRefused : Obligations.MissingTablesAreRefused := by
  unfold Obligations.MissingTablesAreRefused
  intro s hfault
  refine ⟨fun hfreq => ?build, fun htree => ?gencode, fun htree => ?unpack, fun hcode => ?pack⟩
  case build => exact gated_raised hfault ((buildBody_eq s).trans (if_neg (ne_true_of_eq_false hfreq)))
  case gencode => exact gated_raised hfault ((gencodeBody_eq s).trans (if_neg (ne_true_of_eq_false htree)))
  case unpack => exact gated_raised hfault ((unpackBody_eq s).trans (if_neg (ne_true_of_eq_false htree)))
  case pack => exact gated_raised hfault ((packBody_eq s).trans (if_neg (ne_true_of_eq_false hcode)))

/-- Settles O39: FREQ and COMPRESS check IN_LEN first, PACK and UNPACK after their table. -/
theorem tooMuchInputIsRefused : Obligations.TooMuchInputIsRefused := by
  unfold Obligations.TooMuchInputIsRefused
  intro s hfault hout
  have hout' := Nat.not_le_of_lt hout
  refine ⟨?freq, ?compress, fun hcode => ?pack, fun htree => ?unpack⟩
  case freq => exact gated_raised hfault (freqBody_out_of_range hout)
  case compress => exact exec_compress_out_of_range hfault hout
  case pack => exact gated_raised hfault (((packBody_eq s).trans (if_pos hcode)).trans (if_neg hout'))
  case unpack => exact gated_raised hfault (((unpackBody_eq s).trans (if_pos htree)).trans (if_neg hout'))

/-- What UNPACK does once it has a tree and its input is in range (R199). -/
theorem unpackBody_in_range (htree : s.status.treeValid = true) (hin : s.inLen.toNat ≤ s.ibufCap.toNat) :
    unpackBody s =
      if s.lenEn = true ∧ 8 * s.inLen.toNat < s.decBitLen.toNat then .raised .lenRange s.decBitLen (clearUnpack s)
      else if walkLength s ≠ 0 ∧ s.root.valid = false then
        .raised .emptyTree (BitVec.ofNat 32 (walkLength s)) (clearUnpack s)
      else walkInto (clearUnpack s) :=
  ((unpackBody_eq s).trans (if_pos htree)).trans (if_pos hin)

/-- Settles O33: LEN_RANGE is checked before the tree is looked at. -/
theorem unpackFaultsOnTooManyBits : Obligations.UnpackFaultsOnTooManyBits := by
  unfold Obligations.UnpackFaultsOnTooManyBits
  intro s hfault htree hin hmode hmany
  exact ⟨_, gated_raised hfault ((unpackBody_in_range htree hin).trans (if_pos ⟨hmode, hmany⟩)), rfl, rfl⟩

/-- Settles O32: the length is in range, so the next check is that of the root. -/
theorem unpackFaultsOnTheEmptyTree : Obligations.UnpackFaultsOnTheEmptyTree := by
  unfold Obligations.UnpackFaultsOnTheEmptyTree
  intro s hfault htree hin hlen hbits hroot
  have hrange : ¬(s.lenEn = true ∧ 8 * s.inLen.toNat < s.decBitLen.toNat) := fun ⟨hmode, hmany⟩ =>
    Nat.not_lt.2 (hlen hmode) hmany
  have hbody : unpackBody s = .raised .emptyTree (BitVec.ofNat 32 (walkLength s)) (clearUnpack s) := by
    rw [unpackBody_in_range htree hin, if_neg hrange, if_pos ⟨hbits.ne', hroot⟩]
  exact ⟨_, gated_raised hfault hbody, rfl, rfl⟩

/-! ### Faults inside a packing run (R191, R192) -/

/-- A packing run that raises ends PACK with no output: only OBUF and the registers of the clears have changed (R146). -/
theorem exec_pack_raised (hfault : s.status.fault = false) (hcode : s.status.codeValid = true)
    (hin : s.inLen.toNat ≤ s.ibufCap.toNat) {c : FaultCode} {i : Word} {p : Packer}
    (h : packRun (clearPack s) = .raised c i p) :
    exec .pack s = .next (raiseFault c i { clearPack s with obuf := p.sink.obuf }) := by
  rw [exec_pack_eq hfault hcode hin, packInto, h, runFinish_raised]

theorem inputBytes_take {i : Nat} (hi : i ≤ s.inLen.toNat) :
    (inputBytes s).take i = (List.range i).map (ibufByte s) := by
  rw [inputBytes, ← List.map_take, List.take_range, Nat.min_eq_left hi]

/-- The first `i` bytes of the input have a code when those at the indices below `i` have one. -/
theorem take_coded {i : Nat} (hi : i ≤ s.inLen.toNat)
    (h : ∀ j < i, (codeAt s.code (ibufByte s j).toNat).valid = true) :
    ∀ b ∈ (inputBytes s).take i, (codeAt s.code b.toNat).valid = true := by
  rw [inputBytes_take hi]
  intro b hb
  obtain ⟨j, hj, rfl⟩ := List.mem_map.1 hb
  exact h j (List.mem_range.1 hj)

/-- The input, cut at its byte number `i`. -/
theorem inputBytes_split {i : Nat} (hi : i < s.inLen.toNat) :
    inputBytes s = (inputBytes s).take i ++ ibufByte s i :: (inputBytes s).drop (i + 1) := by
  have hlen : i < (inputBytes s).length := by rwa [inputBytes_length]
  have hbyte : (inputBytes s)[i] = ibufByte s i := by simp [inputBytes]
  rw [← hbyte, List.cons_getElem_drop_succ, List.take_append_drop]

/-- The packing run gets to the first byte with no code and raises NO_CODE with its index. -/
theorem packRun_noCode {i : Nat} (hi : i < s.inLen.toNat)
    (hnone : (codeAt s.code (ibufByte s i).toNat).valid = false)
    (hv : ∀ b ∈ (inputBytes s).take i, (codeAt s.code b.toNat).valid = true)
    (hfit : (bitSequence s.code ((inputBytes s).take i)).length / 8 ≤ s.obufCap.toNat) :
    ∃ p, packRun s = .raised .noCode (BitVec.ofNat 32 i) p := by
  obtain ⟨p, hp, -⟩ := (if_pos hfit).mp
    (packBytes_spec s.code ((inputBytes s).take i) hv 0 (packerHolds_start s.obuf) (Nat.zero_le s.obufCap.toNat))
  have hbyte : packByte s.code s.obufCap.toNat p (ibufByte s i, i) = .raised .noCode (BitVec.ofNat 32 i) p := by
    simp [packByte, hnone]
  have hindex : 0 + ((inputBytes s).take i).length = i := by simp [inputBytes_length, hi.le]
  refine ⟨p, ?_⟩
  rw [packRun, inputBytes_split hi, List.zipIdx_append, runFold_append, hp, runThen_ok, List.zipIdx_cons, hindex,
    runFold_cons, hbyte, runThen_raised, runThen_raised]

/-- Settles O27: the bytes before the one with no code are packed, then NO_CODE is raised. -/
theorem packStopsAtAByteWithNoCode : Obligations.PackStopsAtAByteWithNoCode := by
  unfold Obligations.PackStopsAtAByteWithNoCode
  intro s i hfault hcode hin hi hnone hv hfit
  obtain ⟨p, hp⟩ := packRun_noCode (s := clearPack s) hi hnone (take_coded hi.le hv) hfit
  exact ⟨_, exec_pack_raised hfault hcode hin hp, rfl⟩

/-- Settles O28: OBUF is full in the codes of the first `i` bytes, or all are packed and the last byte finds no room. -/
theorem packOverflowsAFullBuffer : Obligations.PackOverflowsAFullBuffer := by
  unfold Obligations.PackOverflowsAFullBuffer
  intro s i hfault hcode hin hi hv hfull
  have hcoded := take_coded hi hv
  have hrun : ∃ p, packRun (clearPack s) = .raised .outOverflow s.obufCap p := by
    rcases hfull with hfirst | ⟨rfl, hall⟩
    · obtain ⟨p, hp, -⟩ := packRun_overflow (clearPack s) i hcoded hfirst
      rw [BitVec.ofNat_toNat, BitVec.setWidth_eq] at hp
      exact ⟨p, hp⟩
    · rw [List.take_of_length_le (inputBytes_length s).le] at hcoded
      exact packRun_full (s := clearPack s) hcoded (Nat.not_le_of_lt hall)
  obtain ⟨p, hp⟩ := hrun
  exact ⟨_, exec_pack_raised hfault hcode hin hp, rfl⟩

/-! ### Faults inside a walk (R191, R193) -/

/-- A walk that raises ends UNPACK with no output and no cursor (R155, R196). -/
theorem exec_unpack_raised (h : WalkStarts s) {c : FaultCode} {i : Word} {w : Walker}
    (hw : walkRun (clearUnpack s) = .raised c i w) : ∃ t, exec .unpack s = .next t ∧ UnpackFaulted s t c.number i := by
  refine ⟨raiseFault c i { clearUnpack s with obuf := w.sink.obuf }, ?_, rfl⟩
  rw [exec_unpack_eq h, walkInto, hw, runFinish_raised]

/-- Settles O30: the walk gets to bit `n`, which leads to the unused leaf. -/
theorem unpackFaultsOnTheUnusedLeaf : Obligations.UnpackFaultsOnTheUnusedLeaf := by
  unfold Obligations.UnpackFaultsOnTheUnusedLeaf
  intro s n out cur hstarts hn hd hfit hunused
  obtain ⟨w, hw, -⟩ := walkRun_raised (clearUnpack s) hn hd hfit fun w hholds =>
    ⟨_, walkBit_unused (by rw [hholds.cur]; exact hunused) _ _ n, rfl⟩
  exact exec_unpack_raised hstarts hw

/-- Settles O31: the walk gets to bit `n`, which leads to a leaf, with OPTR at OBUF_SIZE. -/
theorem unpackOverflowsAFullBuffer : Obligations.UnpackOverflowsAFullBuffer := by
  unfold Obligations.UnpackOverflowsAFullBuffer
  intro s n out cur hstarts hn hd hfull hleaf
  obtain ⟨w, hw, -⟩ := walkRun_raised (c := .outOverflow) (i := s.obufCap) (clearUnpack s) hn hd hfull.le fun w hholds => by
    have hoptr : w.sink.optr = s.obufCap.toNat := hholds.optr.trans hfull
    have hbit := walkBit_leaf (cap := s.obufCap.toNat) (by rw [hholds.cur]; exact hleaf) s.root.idx n
    rw [if_pos hoptr.ge, hoptr, BitVec.ofNat_toNat, BitVec.setWidth_eq] at hbit
    exact ⟨_, hbit, rfl⟩
  exact exec_unpack_raised hstarts hw

end Sys2Proof.Machine

/-!
PROOF of O53 and O14. A step stops only where the body of a command does, and the one body with a stop in it is that of
GENCODE: its traversal goes beyond MAX_CODE_LEN edges (spec 42_gencode.md R130, log entry 9). The depth bound of R113 excludes
that for every tree of R44, so from a state of the invariant every step goes on (70_reset_and_hazards.md R236, R237). The two
resets leave the same registers (R215 to R217).
-/

namespace Sys2Proof.Machine

open Sys2Proof.Claims

variable {s : State}

/-! ### Runs that end -/

section Runs

variable {α β : Type}

/-- The run goes on or raises a fault: it does not stop. -/
def Run.Ends : Run α → Prop
  | .ok _ => True
  | .raised _ _ _ => True
  | .stopped _ => False

@[simp] theorem Run.ends_ok (a : α) : (Run.ok a).Ends := trivial

@[simp] theorem Run.ends_raised (c : FaultCode) (i : Word) (a : α) : (Run.raised c i a).Ends := trivial

theorem runThen_ends {r : Run α} {f : α → Run α} (hr : r.Ends) (hf : ∀ a, (f a).Ends) : (runThen r f).Ends := by
  cases r with
  | ok a => exact hf a
  | raised c i a => exact Run.ends_raised c i a
  | stopped e => exact hr.elim

theorem runMap_ends {r : Run α} (hr : r.Ends) (f : α → β) : (runMap f r).Ends := by
  cases r with
  | ok a => exact Run.ends_ok (f a)
  | raised c i a => exact Run.ends_raised c i (f a)
  | stopped e => exact hr.elim

/-- A loop over a list ends when each of its rounds does. -/
theorem runFold_ends {f : α → β → Run α} (hf : ∀ a b, (f a b).Ends) (a : α) (items : List β) :
    (runFold f a items).Ends := by
  induction items generalizing a with
  | nil => exact Run.ends_ok a
  | cons b rest ih => exact runThen_ends (hf a b) ih

theorem require_ends (holds : Bool) (c : FaultCode) (i : Word) (s : State) : (require holds c i s).Ends := by
  cases holds <;> trivial

end Runs

/-- A raised fault is a next state, so a body that ends answers one (R196). -/
theorem runFinish_goesOn {r : Run State} (hr : r.Ends) : ∃ t, runFinish r = .next t := by
  cases r with
  | ok t => exact ⟨t, runFinish_ok t⟩
  | raised c i t => exact ⟨raiseFault c i t, runFinish_raised c i t⟩
  | stopped e => exact hr.elim

theorem gated_goesOn {body : State → Run State} (hbody : (body s).Ends) : ∃ t, gated body s = .next t := by
  cases hfault : s.status.fault with
  | true => exact ⟨s, gated_of_fault body hfault⟩
  | false =>
    rw [gated_of_no_fault body hfault]
    exact runFinish_goesOn hbody

/-! ### The loops of PACK and UNPACK are over lists (R140, R155) -/

section Output

variable (cap : Nat)

theorem emit_ends (v : Byte) (k : Sink) : (emit cap v k).Ends := by
  unfold emit
  split <;> trivial

theorem flushAcc_ends (p : Packer) : (flushAcc cap p).Ends := by
  rw [flushAcc_eq]
  split <;> trivial

theorem shiftBit_ends (p : Packer) (b : Bool) : (shiftBit cap p b).Ends := by
  unfold shiftBit
  dsimp only
  split
  · exact flushAcc_ends cap _
  · exact Run.ends_ok _

theorem packByte_ends (code : List (Nat × Code)) (p : Packer) (item : Byte × Nat) : (packByte code cap p item).Ends := by
  unfold packByte
  dsimp only
  split
  · exact runFold_ends (shiftBit_ends cap) p _
  · exact Run.ends_raised _ _ p

theorem flushLast_ends (p : Packer) : (flushLast cap p).Ends := by
  unfold flushLast
  split
  · exact flushAcc_ends cap p
  · exact Run.ends_ok p

theorem walkBit_ends (nodes : List (Nat × Node)) (root : NodeIdx) (w : Walker) (item : Bool × Nat) :
    (walkBit nodes root cap w item).Ends := by
  unfold walkBit
  dsimp only
  split
  next => exact runMap_ends (emit_ends cap _ _) _
  all_goals trivial

end Output

theorem packRun_ends (s : State) : (packRun s).Ends :=
  runThen_ends (runFold_ends (packByte_ends _ s.code) _ _) (flushLast_ends _)

theorem walkRun_ends (s : State) : (walkRun s).Ends :=
  runFold_ends (walkBit_ends _ s.node s.root.idx) _ _

theorem packInto_ends (s : State) : (packInto s).Ends := by
  have hrun := packRun_ends s
  unfold packInto
  cases hr : packRun s with
  | ok p => exact Run.ends_ok _
  | raised c i p => exact Run.ends_raised c i _
  | stopped e => rwa [hr] at hrun

theorem walkInto_ends (s : State) : (walkInto s).Ends := by
  have hrun := walkRun_ends s
  unfold walkInto
  cases hr : walkRun s with
  | ok w => exact Run.ends_ok _
  | raised c i w => exact Run.ends_raised c i _
  | stopped e => rwa [hr] at hrun

/-! ### The bodies of the commands -/

theorem freqBody_ends (s : State) : (freqBody s).Ends :=
  runThen_ends (require_ends _ _ _ _) (fun _ => Run.ends_ok _)

theorem buildBody_ends (s : State) : (buildBody s).Ends :=
  runThen_ends (require_ends _ _ _ _) (fun _ => Run.ends_ok _)

/-- The traversal of a valid tree stays within MAX_CODE_LEN edges (R113). -/
theorem gencodeBody_ends (h : Inv s) : (gencodeBody s).Ends := by
  obtain ⟨-, ⟨-, -, -, hnode, -⟩, -, htree, -⟩ := h
  rw [gencodeBody_eq]
  split
  next hvalid =>
    obtain ⟨code, hcode, -⟩ := codeTable_ok hnode (htree hvalid).1
    have hcode' : codeTable (clearCode s).node (clearCode s).root = some code := hcode
    rw [generate, hcode']
    exact Run.ends_ok _
  next => exact Run.ends_raised _ _ _

theorem packBody_ends (s : State) : (packBody s).Ends :=
  runThen_ends (require_ends _ _ _ _) (fun _ => runThen_ends (require_ends _ _ _ _) packInto_ends)

theorem unpackBody_ends (s : State) : (unpackBody s).Ends :=
  runThen_ends (require_ends _ _ _ _) (fun _ =>
    runThen_ends (require_ends _ _ _ _) (fun _ =>
      runThen_ends (require_ends _ _ _ _) (fun _ =>
        runThen_ends (require_ends _ _ _ _) walkInto_ends)))

/-- COMPRESS makes its own tree, which has a code table, so it ends in every state (R173). -/
theorem compressBody_ends (s : State) : (compressBody s).Ends := by
  by_cases hin : s.inLen.toNat ≤ s.ibufCap.toNat
  · rw [compressBody_in_range hin]
    exact packInto_ends _
  · rw [compressBody_out_of_range (Nat.lt_of_not_le hin)]
    exact Run.ends_raised _ _ _

/-! ### Commands, accesses and steps go on (R236, R237) -/

theorem exec_goesOn (h : Inv s) (i : Instr) : ∃ t, exec i s = .next t := by
  cases i with
  | nop => exact ⟨s, rfl⟩
  | rst => exact ⟨softReset s, rfl⟩
  | freq => exact gated_goesOn (freqBody_ends s)
  | build => exact gated_goesOn (buildBody_ends s)
  | gencode => exact gated_goesOn (gencodeBody_ends h)
  | pack => exact gated_goesOn (packBody_ends s)
  | unpack => exact gated_goesOn (unpackBody_ends s)
  | compress => exact gated_goesOn (compressBody_ends s)
  | discard => exact gated_goesOn (body := discardBody) (Run.ends_ok (clearCodec s))

theorem issueCommand_goesOn (h : Inv s) (word : Word) : ∃ t, issueCommand word s = .next t := by
  unfold issueCommand
  split
  next i _ => exact exec_goesOn h i
  next => exact ⟨illegalCommand word s, rfl⟩

theorem hostWrite_goesOn (h : Inv s) (space : Space) (index v : Word) : ∃ t, hostWrite space index v s = .next t := by
  cases space with
  | reg =>
    rw [hostWrite]
    split
    · exact issueCommand_goesOn h v
    · exact ⟨writeReg index.toNat v s, rfl⟩
  | ibuf => exact ⟨writeIbuf index.toNat v s, rfl⟩
  | obuf | freq | nodea | nodew | codel | codeb => exact ⟨s, rfl⟩

theorem serve_goesOn (h : Inv s) (a : Access) : ∃ t, serve a s = .next t := by
  cases a with
  | read space index => exact ⟨hostRead space index s, rfl⟩
  | write space index v => exact hostWrite_goesOn h space index v
  | reset => exact ⟨hardwareReset s, rfl⟩

/-- Settles O53: the core is idle, or it serves an access, and the invariant keeps GENCODE from stopping. -/
theorem everyStepOfTheInvariantGoesOn : Obligations.EveryStepOfTheInvariantGoesOn := by
  unfold Obligations.EveryStepOfTheInvariantGoesOn
  intro s h
  unfold SafeStep
  match hport : s.port with
  | [] => exact ⟨s, idleCoreKeepsAllState s hport⟩
  | a :: rest =>
    rw [step_of_port hport]
    exact serve_goesOn (inv_kept.withPort h rest) a

/-! ### The two resets (R171, R215) -/

/-- A reset leaves the register values of RST: the capacities are the core's own, and all other registers are 0. -/
theorem regWord_hardwareReset (s : State) (n : Nat) : regWord (hardwareReset s) n = regWord (softReset s) n :=
  rfl

/-- Settles O14: the registers are those of the soft reset, and IBUF is empty. -/
theorem hardwareResetAgreesWithRst : Obligations.HardwareResetAgreesWithRst := by
  unfold Obligations.HardwareResetAgreesWithRst
  intro s rest hport
  exact ⟨hardwareReset { s with port := rest }, softReset s, step_of_port hport, rfl,
    regWord_hardwareReset { s with port := rest }, rfl, Memory.read?_nil⟩

end Sys2Proof.Machine
